-- ==== Sys2Proof/Word.lean ====
section
/-! DEFINITION. The byte and the 32-bit register word of the block (00_scope.md R10, R15). -/

namespace Sys2Proof

/-- A byte, 8 bits unsigned (R10). -/
abbrev Byte := BitVec 8

/-- A register value, 32 bits unsigned (R15). -/
abbrev Word := BitVec 32

end Sys2Proof
end

