-- ==== Sys2Proof/Config.lean ====
section
/-! DEFINITION. What one implementation fixes: the codec constants (00_scope.md R7), the parameters a model
takes as arguments (R8, 20_memory.md R87), and the free values of what the spec leaves unspecified. -/

namespace Sys2Proof

namespace Config

/-- `MAX_RUN` (R7). -/
def maxRun : Nat := 128

/-- `WINDOW` (R7): the pruning bound of the dictionary. -/
def window : Nat := 4096

/-- `MAX_OFFSET` (R7, 90_conflicts.md C2): the largest offset a 12-bit field holds. -/
def maxOffset : Nat := 4095

/-- `MIN_MATCH` (R7). -/
def minMatch : Nat := 3

/-- `MAX_MATCH` (R7). -/
def maxMatch : Nat := 10

/-- `ESCAPE` (R7). -/
def escape : Byte := 0x80

/-- Free value: the byte of IN at an address that the host has not written since power-up number `epoch`
(10_state.md R45, 93 U3 "any value"; log 4). -/
opaque inFree (epoch address : Nat) : Byte

/-- Free value: an unspecified byte of OUT, at an address, while the counter `epoch` has this value
(10_state.md R46, 93 U1, U2, U6 "any value"; log 5). -/
opaque outFree (epoch address : Nat) : Byte

end Config

/-- The parameters of one block and its platform (00_scope.md R8, 20_memory.md R87). A model takes each as an
argument: they stand in the state, and no step changes them (log 1). -/
structure Params where
  inCap : Nat
  outCap : Nat
  deflateAttached : Bool
  regBase : Nat
  inBase : Nat
  outBase : Nat
deriving DecidableEq, Repr

/-- The legal ranges of the capacities (R8). -/
abbrev Params.Legal (p : Params) : Prop :=
  1 ≤ p.inCap ∧ p.inCap ≤ 2 ^ 32 - 1 ∧ 1 ≤ p.outCap ∧ p.outCap ≤ 2 ^ 32 - 1

end Sys2Proof
end

