-- ==== Sys2Proof/Machine/Tree.lean ====
section
/-! DEFINITION. The canonical Huffman tree of 42_huffman_encoder.md R203 to R209: frequency table, leaves, total
order, merging, code table, and the edges a decoder walks. -/

namespace Sys2Proof.Machine

/-- What a node is (10_state.md R51): `sym` is meaningful for a leaf, `left` and `right` for an internal node. -/
inductive NodeKind where
  | leaf (sym : Byte)
  | internal (left right : Nat)
deriving DecidableEq, Repr

/-- A node of the arena NODES (R51). Frequencies are exact naturals, below 2^40 in every built tree (R15, R206;
log 16). -/
structure Node where
  kind : NodeKind
  freq : Nat
  seq : Nat
deriving DecidableEq, Repr

/-- FREQ (R50): 256 counters of 32 bits. -/
abbrev FreqTable := Vector Word 256

/-- CODES (R53): 256 bit strings, first bit first; the length of one is its `len`. -/
abbrev CodeTable := Vector (List Bool) 256

def FreqTable.zero : FreqTable := Vector.replicate 256 0

def FreqTable.at (t : FreqTable) (v : Byte) : Word := t[v.toNat]'v.isLt

def FreqTable.put (t : FreqTable) (v : Byte) (f : Word) : FreqTable := t.set v.toNat f v.isLt

def CodeTable.empty : CodeTable := Vector.replicate 256 []

def CodeTable.at (t : CodeTable) (v : Byte) : List Bool := t[v.toNat]'v.isLt

def CodeTable.put (t : CodeTable) (v : Byte) (c : List Bool) : CodeTable := t.set v.toNat c v.isLt

/-- R202: one more occurrence of `v`. -/
def FreqTable.bump (t : FreqTable) (v : Byte) : FreqTable := t.put v (t.at v + 1)

/-- `S` of R200: the values with a frequency above 0, ascending. -/
def FreqTable.symbols (t : FreqTable) : List Byte :=
  ((List.range 256).map (BitVec.ofNat 8)).filter (fun v => t.at v != 0)

/-- `total` of R250: the exact sum of the frequencies. -/
def FreqTable.total (t : FreqTable) : Nat := (t.symbols.map (fun v => (t.at v).toNat)).sum

/-- The total order of R204. -/
def Node.before (x y : Node) : Bool :=
  if x.freq < y.freq then true
  else if y.freq < x.freq then false
  else
    match x.kind, y.kind with
    | .leaf _, .internal _ _ => true
    | .internal _ _, .leaf _ => false
    | .leaf a, .leaf b => decide (a.toNat < b.toNat)
    | .internal _ _, .internal _ _ => decide (x.seq < y.seq)

/-- Put a node before the first node it precedes. -/
def insertNode (x : Node) : List Node → List Node
  | [] => [x]
  | y :: ys => if x.before y then x :: y :: ys else y :: insertNode x ys

/-- `seq` of node x is x (R203). -/
def numberNodes : Nat → List Node → List Node
  | _, [] => []
  | k, x :: xs => { x with seq := k } :: numberNodes (k + 1) xs

/-- The leaves of R203, one per distinct byte, in the total order. -/
def leaves (t : FreqTable) : List Node :=
  numberNodes 0 ((t.symbols.map (fun v => Node.mk (.leaf v) (t.at v).toNat 0)).foldr insertNode [])

def nodeFreq (nodes : List Node) (x : Nat) : Nat :=
  match nodes[x]? with
  | some n => n.freq
  | none => 0

/-- One round of the loop of R205: the two least active nodes become the children of a new internal node, which
enters ACTIVE after every node of a frequency at most its own. With fewer than two active nodes nothing changes. -/
def mergeLeast (nodes : List Node) : List Nat → List Node × List Nat
  | a :: b :: rest =>
    let f := nodeFreq nodes a + nodeFreq nodes b
    let p := nodes.length
    let nodes' := nodes ++ [{ kind := .internal a b, freq := f, seq := p }]
    let j := (rest.filter (fun x => decide (nodeFreq nodes x ≤ f))).length
    (nodes', rest.take j ++ p :: rest.drop j)
  | active => (nodes, active)

/-- The loop of R205; `fuel` is the number of active nodes, since a round removes one. -/
def mergeAll : Nat → List Node → List Nat → List Node × List Nat
  | 0, nodes, active => (nodes, active)
  | fuel + 1, nodes, active =>
    if 1 < active.length then
      mergeAll fuel (mergeLeast nodes active).1 (mergeLeast nodes active).2
    else (nodes, active)

/-- The root is the one node left in ACTIVE (R205). -/
def rootOf (active : List Nat) : Nat := active.headD 0

/-- `build_tree` of R205: the arena and the root. -/
def buildTree (t : FreqTable) : List Node × Nat :=
  let ls := leaves t
  let r := mergeAll ls.length ls (List.range ls.length)
  (r.1, rootOf r.2)

/-- The child of an internal node: bit 0 is the left edge, bit 1 the right edge (R209). -/
def child (nodes : List Node) (x : Nat) (b : Bool) : Option Nat :=
  match nodes[x]? with
  | some ⟨.internal l r, _, _⟩ => some (if b then r else l)
  | some ⟨.leaf _, _, _⟩ => none
  | none => none

/-- The byte of a leaf. -/
def leafSym (nodes : List Node) (x : Nat) : Option Byte :=
  match nodes[x]? with
  | some ⟨.leaf v, _, _⟩ => some v
  | some ⟨.internal _ _, _, _⟩ => none
  | none => none

/-- `walk` of R209; `fuel` bounds the depth, which is below the number of nodes. -/
def codeWalk (nodes : List Node) : Nat → Nat → List Bool → CodeTable → CodeTable
  | 0, _, _, codes => codes
  | fuel + 1, x, s, codes =>
    match nodes[x]? with
    | none => codes
    | some ⟨.leaf v, _, _⟩ => codes.put v s
    | some ⟨.internal l r, _, _⟩ =>
      codeWalk nodes fuel r (s ++ [true]) (codeWalk nodes fuel l (s ++ [false]) codes)

/-- `code_table` of R209. -/
def codeTable (nodes : List Node) (root : Nat) : CodeTable :=
  codeWalk nodes nodes.length root [] CodeTable.empty

end Sys2Proof.Machine
end

