-- ==== Sys2Proof/Syntax.lean ====
section
/-! DEFINITION. The instructions of the block: one constructor per row of spec/opcode_table.json. -/

namespace Sys2Proof

/-- CMD.MODE (10_state.md R34): 0 = compress, 1 = decompress. -/
inductive Mode where
  | compress
  | decompress
deriving DecidableEq, Repr

/-- The 19 rows of the opcode table. The first ten are command words (30_encoding.md R112), whose bits 30:4 are
ignored (R114) and so are no operand; the others are the blocks and tokens of the containers (R116 to R126). -/
inductive Instr where
  /-- RLE.C -/
  | rleC
  /-- RLE.D -/
  | rleD
  /-- HUF.C -/
  | hufC
  /-- HUF.D -/
  | hufD
  /-- LZ.C -/
  | lzC
  /-- LZ.D -/
  | lzD
  /-- DEF.C -/
  | defC
  /-- DEF.D -/
  | defD
  /-- UNSUP: ALG = 4 + `algLow`, either MODE -/
  | unsup (mode : Mode) (algLow : BitVec 2)
  /-- CMD.STORE: START = 0 -/
  | cmdStore (mode : Mode) (alg : BitVec 3)
  /-- RLE.RUN: `value` repeated `len + 1` times (R116) -/
  | rleRun (len : BitVec 7) (value : Byte)
  /-- RLE.LIT: the `len + 1` raw bytes (R117) -/
  | rleLit (len : BitVec 7) (raw : List Byte)
  /-- LZ.LIT: a literal below 0x80 (R119) -/
  | lzLit (value : BitVec 7)
  /-- LZ.ESC: a literal 0x80 + `value` (R120) -/
  | lzEsc (value : BitVec 7)
  /-- LZ.MATCH3S: length 3, offset below 128 (R123) -/
  | lzMatch3s (offset : BitVec 7)
  /-- LZ.MATCH: LLL, HHHH, OOOOOOOO (R121) -/
  | lzMatch (len : BitVec 3) (offHi : BitVec 4) (offLo : Byte)
  /-- HUF.HDR.COUNT: unique_count (R125) -/
  | hufHdrCount (count : BitVec 16)
  /-- HUF.HDR.ENTRY: one value and its frequency (R125) -/
  | hufHdrEntry (value : Byte) (freq : Word)
  /-- HUF.CODE: a code word, first bit first, false = left, true = right (R126) -/
  | hufCode (path : List Bool)
deriving DecidableEq, Repr

end Sys2Proof
end

