-- ==== Sys2Proof/Machine/State.lean ====
section
/-! DEFINITION. The state of the block (10_state.md), the reasons a step can stop, and the state right after reset. -/

namespace Sys2Proof.Machine

/-! ## Memory, dictionary and working state -/

/-- A buffer: the bytes that have a defined value, addresses strictly rising (log 13). -/
abbrev Memory := List Host.Cell

/-- DICT (R55): 24-bit keys, strictly rising, each with its positions in insertion order. -/
abbrev Dict := List (Nat × List Nat)

/-- The BitStream writer (10_state.md R54, 40_bitstream.md R150). -/
structure Writer where
  acc : Byte
  nbits : Nat
  w : List Byte
deriving DecidableEq, Repr

/-- The BitStream reader (R54, R154). -/
structure Reader where
  rbyte : Nat
  rbit : Nat
deriving DecidableEq, Repr

/-- The phase of the running codec (R32): which loop of the pseudocode the engine is in. -/
inductive Phase where
  /-- START has been taken; ALG and the length are not yet checked (47_dispatcher.md R362) -/
  | dispatch
  /-- the loop of R170 -/
  | rleC
  /-- the loop of R180 -/
  | rleD
  /-- the counting loop of R200 -/
  | hufCount
  /-- the merging loop of R205, for either direction -/
  | hufMerge
  /-- the encode pass of R211 -/
  | hufEncode
  /-- before unique_count is read (R240) -/
  | hufHeader
  /-- the loop over header entries of R240 -/
  | hufEntries
  /-- the tree walk of R251 -/
  | hufPayload
  /-- the loop of R310 -/
  | lzC
  /-- the loop of R330 -/
  | lzD
deriving DecidableEq, Repr

/-- The engine's working state (R32, R50 to R55) with the loop variables of the codec pseudocode. -/
structure Work where
  phase : Phase
  cursor : Nat
  out : List Byte
  freq : FreqTable
  nodes : List Node
  active : List Nat
  codes : CodeTable
  writer : Writer
  reader : Reader
  dict : Dict
  count : Nat
  entry : Nat
  total : Nat
deriving DecidableEq, Repr

/-- The working state where the spec leaves it unspecified (R57): a DESIGN CHOICE that nothing observes (log 6). -/
def Work.blank : Work where
  phase := .dispatch
  cursor := 0
  out := []
  freq := FreqTable.zero
  nodes := []
  active := []
  codes := CodeTable.empty
  writer := ⟨0, 0, []⟩
  reader := ⟨0, 0⟩
  dict := []
  count := 0
  entry := 0
  total := 0

/-- The operation latch (R56). -/
structure Latch where
  alg : BitVec 3
  mode : Mode
  len : Word
deriving DecidableEq, Repr

/-! ## What the outside does -/

/-- The three address spaces (20_memory.md R80). -/
inductive Space where
  | reg
  | inBuf
  | outBuf
deriving DecidableEq, Repr

/-- A transfer: a read, or a write of a value (a byte access uses its low 8 bits). -/
inductive Transfer where
  | read
  | write (value : Word)
deriving DecidableEq, Repr

/-- A host access: the space, the byte offset in it, the width in bits, and the transfer (R83, R84). -/
structure Access where
  space : Space
  offset : Nat
  width : Nat
  op : Transfer
deriving DecidableEq, Repr

/-- What happens next at the block's boundary. -/
inductive Input where
  /-- a host access to one of the three spaces -/
  | access (a : Access)
  /-- a host access by physical address (20_memory.md R87) -/
  | bus (address width : Nat) (op : Transfer)
  /-- the engine has its turn before the host's next access (47_dispatcher.md R368) -/
  | turn
  /-- the reset input is asserted (70_reset_and_hazards.md R450) -/
  | resetAssert
  /-- the reset input is released (R450) -/
  | resetRelease
  /-- power-up (R452) -/
  | powerUp
deriving DecidableEq, Repr

/-! ## The state -/

/-- Everything the spec gives the block, and below it the model's own fields. -/
structure State where
  /-- the parameters, constant (R8, R41) -/
  params : Params
  /-- CMD.ALG (R34) -/
  cmdAlg : BitVec 3
  /-- CMD.MODE (R34) -/
  cmdMode : Mode
  /-- IN_LEN (R35) -/
  inLen : Word
  /-- STATUS (R36) -/
  status : Word
  /-- ERR_CODE bits 3:0 (R37) -/
  errCode : BitVec 4
  /-- ERR_POS (R38) -/
  errPos : Word
  /-- ERR_COUNT (R39) -/
  errCount : Word
  /-- OUT_LEN (R40) -/
  outLen : Word
  /-- IN (R45) -/
  inMem : Memory
  /-- OUT (R46) -/
  outMem : Memory
  /-- the operation latch (R56) -/
  latch : Latch
  /-- the engine's working state (R50 to R55) -/
  work : Work
  /-- the reset input is asserted (R450) -/
  resetLine : Bool
  /-- the model's own: what the outside does next (log 2) -/
  inputs : List Input
  /-- the model's own: the value the latest host read returned (log 15) -/
  busData : Word
  /-- the model's own: which power-up the unwritten bytes of IN come from (log 4) -/
  inEpoch : Nat
  /-- the model's own: which free values the unspecified bytes of OUT have (log 5) -/
  outEpoch : Nat
deriving DecidableEq, Repr

/-- Why the machine stops. Both are faults of the host, and both are safe: nothing is claimed past them. -/
inductive Fault where
  /-- An access that the block does not admit (20_memory.md R84): the host is stuck (93 U8). Raised by a host access
  of the wrong width or alignment, or outside its space. Safe. -/
  | busError
  /-- A host write to IN while BUSY (70_reset_and_hazards.md R460 item 1, 93 U5). Raised by a host access. Safe. -/
  | inWriteWhileBusy
deriving DecidableEq, Repr

/-- Why a step has no meaning. -/
inductive Refusal where
  /-- An instruction of the table without a meaning yet. Raised by no instruction of this model. Safe. -/
  | notModelled (mnemonic : String)
  /-- The operation of DEF.C or DEF.D goes to an attached external DEFLATE unit, which this spec does not describe
  (47_dispatcher.md R380, 93 U9). Raised by the engine's dispatch. Safe. -/
  | externalDeflate
deriving DecidableEq, Repr

/-- What an instruction, or a step, answers. -/
abbrev Answer := Host.Outcome State Fault Refusal

/-- The parameters of `State.reset`: the instance that 95_test_vectors.md section 2.9 uses. DESIGN CHOICE (log 1). -/
def vectorParams : Params where
  inCap := 4096
  outCap := 4096
  deflateAttached := false
  regBase := 0
  inBase := 0x10000
  outBase := 0x20000

/-- The block with given parameters right after power-up and the release of reset (10_state.md R60,
70_reset_and_hazards.md R450, R452). -/
def State.afterReset (p : Params) : State where
  params := p
  cmdAlg := 0
  cmdMode := .compress
  inLen := 0
  status := 0
  errCode := 0
  errPos := 0
  errCount := 0
  outLen := 0
  inMem := []
  outMem := []
  latch := ⟨0, .compress, 0⟩
  work := Work.blank
  resetLine := false
  inputs := []
  busData := 0
  inEpoch := 0
  outEpoch := 0

/-- The machine right after reset, with the parameters of the test vectors. -/
def State.reset : State := State.afterReset vectorParams

end Sys2Proof.Machine
end

