-- ==== Sys2Proof/Machine/Flags.lean ====
section
/-! DEFINITION. STATUS, the block's only flag register (10_state.md R36), and the error codes (60_exceptions.md R400). -/

namespace Sys2Proof.Machine

/-- BUSY = DONE = ERROR = 0: idle, no result (R60). -/
def statusIdle : Word := 0b000

/-- BUSY = 1 (47_dispatcher.md R361). -/
def statusBusy : Word := 0b001

/-- DONE = 1 (R370). -/
def statusDone : Word := 0b010

/-- ERROR = 1 (R371). -/
def statusError : Word := 0b100

/-- STATUS.BUSY, bit 0. -/
def State.busy (s : State) : Bool := s.status.getLsbD 0

/-- STATUS.DONE, bit 1. -/
def State.done (s : State) : Bool := s.status.getLsbD 1

/-- STATUS.ERROR, bit 2. -/
def State.error (s : State) : Bool := s.status.getLsbD 2

/-- The engine runs: BUSY, and the reset input is released (70_reset_and_hazards.md R450). -/
def State.running (s : State) : Bool := s.busy && !s.resetLine

/-- The errors of R400. -/
inductive ErrorKind where
  | unsupportedAlgorithm
  | malformedHeader
  | malformedPayload
  | invalidBackReference
  | outputOverflow
  | inputLengthInvalid
deriving DecidableEq, Repr

/-- ERR_CODE of an error (R400). -/
def ErrorKind.code : ErrorKind → BitVec 4
  | .unsupportedAlgorithm => 1
  | .malformedHeader => 2
  | .malformedPayload => 3
  | .invalidBackReference => 4
  | .outputOverflow => 5
  | .inputLengthInvalid => 6

/-- What a codec function returns (00_scope.md R13): `Ok(out)`, or an error with its position and count. -/
inductive Result where
  | ok (out : List Byte)
  | err (kind : ErrorKind) (pos count : Nat)
deriving DecidableEq, Repr

end Sys2Proof.Machine
end

