-- ==== Sys2Proof/WellFormed.lean ====
section
/-! DEFINITION. Which instruction terms an encoding exists for. A container field whose value is an error when it
is executed (a unique_count above 256, a frequency of 0, an offset of 0) is still encodable, so it is well formed. -/

namespace Sys2Proof

/-- The three bounds that the constructors' types do not carry: a literal block holds `L + 1` raw bytes (R117);
the first byte of LZ.MATCH is not 0x80 (R121); a code word has 1 to 255 bits (R110, 10_state.md R53). -/
def Instr.wf : Instr → Bool
  | .rleC => true
  | .rleD => true
  | .hufC => true
  | .hufD => true
  | .lzC => true
  | .lzD => true
  | .defC => true
  | .defD => true
  | .unsup _ _ => true
  | .cmdStore _ _ => true
  | .rleRun _ _ => true
  | .rleLit len raw => raw.length == len.toNat + 1
  | .lzLit _ => true
  | .lzEsc _ => true
  | .lzMatch3s _ => true
  | .lzMatch len offHi _ => !(len == 0 && offHi == 0)
  | .hufHdrCount _ => true
  | .hufHdrEntry _ _ => true
  | .hufCode path => decide (1 ≤ path.length) && decide (path.length ≤ 255)

end Sys2Proof
end

