-- ==== Sys2Proof/Decode.lean ====
section
/-! DEFINITION. Decoding and encoding (30_encoding.md): the command word, the RLE blocks, the LZ77 tokens, the Huffman
header fields and the code words. The format is never in the words themselves: ALG, MODE and the position in the
container fix it (R129). -/

namespace Sys2Proof

open Sys2Proof.Machine

/-! ## Bit fields and byte order -/

/-- The ALG field, bits 2:0 of a command word (R111). -/
def cmdAlgField (w : Word) : BitVec 3 := w.extractLsb' 0 3

/-- The MODE field, bit 3 of a command word (R111). -/
def cmdModeField (w : Word) : Mode := if w.getLsbD 3 then .decompress else .compress

/-- The START bit, bit 31 of a command word (R111). -/
def cmdStartField (w : Word) : Bool := w.getLsbD 31

/-- The MODE bit as the register holds it (10_state.md R34). -/
def Mode.bit : Mode → Bool
  | .compress => false
  | .decompress => true

/-- The low seven bits of a byte. -/
def low7 (b : Byte) : BitVec 7 := b.extractLsb' 0 7

/-- A byte with bit 7 and its seven low bits given. -/
def byteOf (top : Bool) (low : BitVec 7) : Byte := BitVec.ofBool top ++ low

/-- `be16` of 00_scope.md R12: the first byte is the most significant. -/
def be16 (b1 b0 : Byte) : BitVec 16 := b1 ++ b0

/-- `be32` of R12. -/
def be32 (b3 b2 b1 b0 : Byte) : Word := b3 ++ b2 ++ b1 ++ b0

/-- `put16` of R12. -/
def put16 (v : BitVec 16) : List Byte := [v.extractLsb' 8 8, v.extractLsb' 0 8]

/-- `put32` of R12. -/
def put32 (v : Word) : List Byte :=
  [v.extractLsb' 24 8, v.extractLsb' 16 8, v.extractLsb' 8 8, v.extractLsb' 0 8]

/-! ## Decoding -/

/-- Why a decoder finds no instruction. -/
inductive DecodeError where
  /-- no byte is left -/
  | endOfInput
  /-- an RLE block extends past the input (41_rle.md R182) -/
  | truncatedBlock
  /-- an LZ77 first byte of 0x80 or above is the last byte (46_lz77_decoder.md R335) -/
  | truncatedToken
  /-- fewer than two bytes for unique_count (43_huffman_decoder.md R241) -/
  | truncatedCount
  /-- fewer than five bytes for a header entry (R244) -/
  | truncatedEntry
  /-- the bits ran out before a leaf (R252) -/
  | endOfStream
  /-- bit number `depth` of the code word directs to a missing child (R254) -/
  | missingChild (depth : Nat)
deriving DecidableEq, Repr

/-- R111, R112: every 32-bit value is a command word, and bits 30:4 select nothing (R114). -/
def decodeCommand (w : Word) : Instr :=
  let mode := cmdModeField w
  let alg := cmdAlgField w
  if cmdStartField w then
    if alg = 0 then (match mode with | .compress => .rleC | .decompress => .rleD)
    else if alg = 1 then (match mode with | .compress => .hufC | .decompress => .hufD)
    else if alg = 2 then (match mode with | .compress => .lzC | .decompress => .lzD)
    else if alg = 3 then (match mode with | .compress => .defC | .decompress => .defD)
    else .unsup mode (alg.extractLsb' 0 2)
  else .cmdStore mode alg

/-- An RLE block (R116 to R118). -/
def decodeRle : List Byte → Except DecodeError Instr
  | [] => .error .endOfInput
  | c :: rest =>
    if c.msb then
      match rest with
      | [] => .error .truncatedBlock
      | v :: _ => .ok (.rleRun (low7 c) v)
    else if rest.length < (low7 c).toNat + 1 then .error .truncatedBlock
    else .ok (.rleLit (low7 c) (rest.take ((low7 c).toNat + 1)))

/-- An LZ77 token, classified as R124 says. -/
def decodeLz : List Byte → Except DecodeError Instr
  | [] => .error .endOfInput
  | b1 :: rest =>
    if b1.msb then
      match rest with
      | [] => .error .truncatedToken
      | b2 :: _ =>
        if b1 = Config.escape then
          if b2.msb then .ok (.lzEsc (low7 b2)) else .ok (.lzMatch3s (low7 b2))
        else .ok (.lzMatch (b1.extractLsb' 4 3) (b1.extractLsb' 0 4) b2)
    else .ok (.lzLit (low7 b1))

/-- The unique_count field of a Huffman container (R125). -/
def decodeHufCount : List Byte → Except DecodeError Instr
  | b1 :: b0 :: _ => .ok (.hufHdrCount (be16 b1 b0))
  | [_] => .error .truncatedCount
  | [] => .error .truncatedCount

/-- One header entry of a Huffman container (R125). -/
def decodeHufEntry : List Byte → Except DecodeError Instr
  | v :: f3 :: f2 :: f1 :: f0 :: _ => .ok (.hufHdrEntry v (be32 f3 f2 f1 f0))
  | _ => .error .truncatedEntry

/-- The path of the code word that a bit string begins with: walk from node `x` until a leaf (R126, R129). `depth`
is the number of bits already read. -/
def walkCode (nodes : List Node) : Nat → Nat → List Bool → Except DecodeError (List Bool)
  | _, _, [] => .error .endOfStream
  | depth, x, b :: bs =>
    match child nodes x b with
    | none => .error (.missingChild depth)
    | some y =>
      match leafSym nodes y with
      | some _ => .ok [b]
      | none => (walkCode nodes (depth + 1) y bs).map (fun p => b :: p)

/-- One code word (F-HUF-CODE) of a payload whose tree has the given root. -/
def decodeHufCode (nodes : List Node) (root : Nat) (bits : List Bool) : Except DecodeError Instr :=
  (walkCode nodes 0 root bits).map Instr.hufCode

/-- Where an instruction stands, with the bits that begin there: the value written to CMD, or what follows the
engine's cursor in a container of the running operation's format. -/
inductive Source where
  | command (w : Word)
  | rle (bs : List Byte)
  | lz (bs : List Byte)
  | hufCount (bs : List Byte)
  | hufEntry (bs : List Byte)
  | hufCode (nodes : List Node) (root : Nat) (bits : List Bool)
deriving DecidableEq, Repr

/-- The decoder: total, and every refusal has a name. -/
def decode : Source → Except DecodeError Instr
  | .command w => .ok (decodeCommand w)
  | .rle bs => decodeRle bs
  | .lz bs => decodeLz bs
  | .hufCount bs => decodeHufCount bs
  | .hufEntry bs => decodeHufEntry bs
  | .hufCode nodes root bits => decodeHufCode nodes root bits

/-! ## Encoding -/

/-- The encoding of an instruction: a command word, container bytes, or the bits of a code word. -/
inductive Image where
  | word (w : Word)
  | bytes (bs : List Byte)
  | bits (bs : List Bool)
deriving DecidableEq, Repr

/-- A command word with bits 30:4 zero (R112). -/
def commandWord (start : Bool) (mode : Mode) (alg : BitVec 3) : Word :=
  BitVec.ofBool start ++ (0 : BitVec 27) ++ BitVec.ofBool mode.bit ++ alg

/-- The encoder (R111, R112, R116 to R126). -/
def encode : Instr → Image
  | .rleC => .word (commandWord true .compress 0)
  | .rleD => .word (commandWord true .decompress 0)
  | .hufC => .word (commandWord true .compress 1)
  | .hufD => .word (commandWord true .decompress 1)
  | .lzC => .word (commandWord true .compress 2)
  | .lzD => .word (commandWord true .decompress 2)
  | .defC => .word (commandWord true .compress 3)
  | .defD => .word (commandWord true .decompress 3)
  | .unsup mode algLow => .word (commandWord true mode ((1 : BitVec 1) ++ algLow))
  | .cmdStore mode alg => .word (commandWord false mode alg)
  | .rleRun len value => .bytes [byteOf true len, value]
  | .rleLit len raw => .bytes (byteOf false len :: raw)
  | .lzLit value => .bytes [byteOf false value]
  | .lzEsc value => .bytes [Config.escape, byteOf true value]
  | .lzMatch3s offset => .bytes [Config.escape, byteOf false offset]
  | .lzMatch len offHi offLo => .bytes [(1 : BitVec 1) ++ len ++ offHi, offLo]
  | .hufHdrCount count => .bytes (put16 count)
  | .hufHdrEntry value freq => .bytes (value :: put32 freq)
  | .hufCode path => .bits path

/-- How many container bytes a block, token or header field takes (R118, R124, R125); a command word and a code word
take none. -/
def Instr.byteLength : Instr → Nat
  | .rleC => 0
  | .rleD => 0
  | .hufC => 0
  | .hufD => 0
  | .lzC => 0
  | .lzD => 0
  | .defC => 0
  | .defD => 0
  | .unsup _ _ => 0
  | .cmdStore _ _ => 0
  | .rleRun _ _ => 2
  | .rleLit len _ => len.toNat + 2
  | .lzLit _ => 1
  | .lzEsc _ => 2
  | .lzMatch3s _ => 2
  | .lzMatch _ _ _ => 2
  | .hufHdrCount _ => 2
  | .hufHdrEntry _ _ => 5
  | .hufCode _ => 0

/-! ## Words of the opcode table -/

/-- The bytes of a number, most significant first. -/
def bytesBE : Nat → Nat → List Byte
  | 0, _ => []
  | k + 1, w => BitVec.ofNat 8 (w >>> (8 * k)) :: bytesBE k w

/-- The bytes of a number, least significant first. -/
def bytesLE : Nat → Nat → List Byte
  | 0, _ => []
  | k + 1, w => BitVec.ofNat 8 w :: bytesLE k (w >>> 8)

/-- The container format and bytes that a table word of `nbits` bits is read as; `none` for a command word and for a
width no row has. The table's words of different formats overlap, so the width and bit 15 choose one (log 11): 8 bits
and 16 bits with bit 15 set are LZ77 tokens, 16 bits with bit 15 clear are a unique_count, 40 bits a header entry,
any other number of whole bytes an RLE block, whose control byte the table numbers 7:0, with the raw bytes above the
row's bits 0. -/
def tableSource (nbits w : Nat) : Option Source :=
  if nbits = 32 then some (.command (BitVec.ofNat 32 w))
  else if nbits = 8 then some (.lz (bytesBE 1 w ++ [0]))
  else if nbits = 16 then
    if w.testBit 15 then some (.lz (bytesBE 2 w)) else some (.hufCount (bytesBE 2 w))
  else if nbits = 40 then some (.hufEntry (bytesBE 5 w))
  else if nbits % 8 = 0 ∧ 0 < nbits then some (.rle (bytesLE (nbits / 8) w ++ List.replicate (w % 128 + 1) 0))
  else none

/-- The instruction the decoder reads from a word of spec/opcode_table.json, in the format `tableSource` chooses. -/
def decodeTableWord (nbits w : Nat) : Option Instr :=
  match tableSource nbits w with
  | none => none
  | some src =>
    match decode src with
    | .ok i => some i
    | .error _ => none

end Sys2Proof
end

