-- ==== Sys2Proof/Machine/Operands.lean ====
section
/-! DEFINITION. The operand forms: fields of an encoding as the natural numbers the pseudocode computes with
(30_encoding.md R116, R117, R122, R123), the assembly of an LZ77 match token, and the saturation of a diagnostic
value (60_exceptions.md R402). -/

namespace Sys2Proof.Machine

/-- A value as a 32-bit diagnostic register holds it: saturated at 2^32 - 1 (R402). -/
def saturate32 (n : Nat) : Word := BitVec.ofNat 32 (min n (2 ^ 32 - 1))

/-- The number of bytes an RLE block stands for: `L + 1` (R116, R117). -/
def blockCount (len : BitVec 7) : Nat := len.toNat + 1

/-- The length of an LZ77 match: `b1[6:4] + MIN_MATCH` (R122). -/
def matchLen (len : BitVec 3) : Nat := len.toNat + Config.minMatch

/-- The offset of an LZ77 match: `b1[3:0] << 8 | b2` (R122). -/
def matchOff (offHi : BitVec 4) (offLo : Byte) : Nat := (offHi ++ offLo).toNat

/-- The value of a plain literal, 0x00 to 0x7F (R119). -/
def literalByte (value : BitVec 7) : Byte := byteOf false value

/-- The value of an escaped literal, 0x80 to 0xFF (R120). -/
def escapedByte (value : BitVec 7) : Byte := byteOf true value

/-- A match token (45_lz77_encoder.md R311, 30_encoding.md R122): `0x80 | (len - 3) << 4 | off >> 8`, `off & 0xFF`. -/
def matchToken (len off : Nat) : List Byte :=
  [BitVec.ofNat 8 (0x80 ||| ((len - Config.minMatch) <<< 4) ||| (off >>> 8)), BitVec.ofNat 8 (off &&& 0xFF)]

/-- The ALG of an UNSUP command: bit 2 set, two free bits (R112). -/
def reservedAlg (algLow : BitVec 2) : BitVec 3 := (1 : BitVec 1) ++ algLow

/-- A read of CMD: `MODE << 3 | ALG`; bits 30:4 and START read 0 (10_state.md R34, R114). -/
def cmdRead (mode : Mode) (alg : BitVec 3) : Word := commandWord false mode alg

end Sys2Proof.Machine
end

