-- ==== Sys2Proof/Machine/Ops.lean ====
section
/-! DEFINITION. The shared operations: keyed lists and the two buffers, register reads and writes, START, completion
(taking an error is one of its two forms), reset, and the engine's output. -/

namespace Sys2Proof.Machine

/-! ## Updates of one field -/

/-- Only the engine's working state changes. -/
def State.setWork (s : State) (w : Work) : State := { s with work := w }

/-- Only the list of what comes next changes. -/
def State.setInputs (s : State) (l : List Input) : State := { s with inputs := l }

/-- The value of a host read is returned (log 15). -/
def State.setBus (s : State) (v : Word) : State := { s with busData := v }

/-! ## Keyed lists -/

/-- The value at a key, if one is listed. -/
def Table.find {β : Type} (k : Nat) : List (Nat × β) → Option β
  | [] => none
  | (j, v) :: rest => if j = k then some v else Table.find k rest

/-- Set the value at a key, keeping the keys strictly rising. -/
def Table.put {β : Type} (k : Nat) (v : β) : List (Nat × β) → List (Nat × β)
  | [] => [(k, v)]
  | (j, u) :: rest =>
    if k < j then (k, v) :: (j, u) :: rest
    else if k = j then (k, v) :: rest
    else (j, u) :: Table.put k v rest

/-- Every key is at least `lo` and the keys strictly rise. -/
def Table.risingFrom {β : Type} : Nat → List (Nat × β) → Bool
  | _, [] => true
  | lo, (j, _) :: rest => decide (lo ≤ j) && Table.risingFrom (j + 1) rest

/-! ## The buffers -/

/-- The canonical form of a buffer: addresses strictly rising. An unlisted byte has no defined value, so no entry can
equal what an unlisted address reads as (log 13). -/
def Memory.wf (m : Memory) : Bool := Table.risingFrom 0 m

/-- Every listed address lies in a buffer of `cap` bytes. -/
def Memory.below (cap : Nat) (m : Memory) : Bool := m.all (fun c => decide (c.1 < cap))

/-- A byte sequence laid out from an address (`OUT[a] <- out[a]`, 47_dispatcher.md R367). -/
def Memory.layout : Nat → List Byte → Memory
  | _, [] => []
  | a, b :: bs => (a, b) :: Memory.layout (a + 1) bs

/-- `MemRead(IN, a, 1)`: the byte the host wrote there, else the free value of power-up (10_state.md R45, log 4). -/
def State.readIn (s : State) (a : Nat) : Byte :=
  match Table.find a s.inMem with
  | some b => b
  | none => Config.inFree s.inEpoch a

/-- `MemWrite(IN, a, 1, v)`. -/
def State.writeIn (s : State) (a : Nat) (v : Byte) : State := { s with inMem := Table.put a v s.inMem }

/-- `MemRead(OUT, a, 1)` by the host: a defined byte, else a free value (R46, log 5). -/
def State.readOut (s : State) (a : Nat) : Byte :=
  match Table.find a s.outMem with
  | some b => b
  | none => Config.outFree s.outEpoch a

/-- The unspecified bytes of OUT may change here: they take fresh free values (log 5). -/
def State.freshOut (s : State) : State := { s with outEpoch := s.outEpoch + 1 }

/-- The input of the running operation: `IN[0 .. L-1]` (47_dispatcher.md R362), L the latched IN_LEN. -/
def State.input (s : State) : List Byte := (List.range s.latch.len.toNat).map s.readIn

/-! ## Host access to the registers -/

/-- The register offsets of 10_state.md R33. -/
inductive RegName where
  | cmd
  | inLen
  | status
  | errCode
  | errPos
  | errCount
  | outLen
  | inCapR
  | outCapR
  | reserved
deriving DecidableEq, Repr

/-- Which register stands at an offset (R33; R42 for the reserved ones). -/
def regAt (offset : Nat) : RegName :=
  if offset = 0x00 then .cmd
  else if offset = 0x04 then .inLen
  else if offset = 0x08 then .status
  else if offset = 0x0C then .errCode
  else if offset = 0x10 then .errPos
  else if offset = 0x14 then .errCount
  else if offset = 0x18 then .outLen
  else if offset = 0x1C then .inCapR
  else if offset = 0x20 then .outCapR
  else .reserved

/-- A host read of a register (R34 to R42). -/
def State.readReg (s : State) : RegName → Word
  | .cmd => cmdRead s.cmdMode s.cmdAlg
  | .inLen => s.inLen
  | .status => s.status
  | .errCode => s.errCode.setWidth 32
  | .errPos => s.errPos
  | .errCount => s.errCount
  | .outLen => s.outLen
  | .inCapR => BitVec.ofNat 32 s.params.inCap
  | .outCapR => BitVec.ofNat 32 s.params.outCap
  | .reserved => 0

/-- A host write of IN_LEN: ignored while BUSY (R35). -/
def State.writeInLen (s : State) (v : Word) : State := if s.busy then s else { s with inLen := v }

/-- A CMD write with START = 0: stores ALG and MODE; ignored while BUSY (R34, 47_dispatcher.md R360). -/
def State.storeCommand (s : State) (mode : Mode) (alg : BitVec 3) : State :=
  if s.busy then s else { s with cmdAlg := alg, cmdMode := mode }

/-! ## START -/

/-- The effects of START (R361). The bytes of OUT become unspecified (10_state.md R46), and the engine is at the
beginning of `execute` (R362). -/
def State.started (s : State) (mode : Mode) (alg : BitVec 3) : State :=
  { s with
    latch := ⟨alg, mode, s.inLen⟩
    cmdAlg := alg
    cmdMode := mode
    status := statusBusy
    errCode := 0
    errPos := 0
    errCount := 0
    outLen := 0
    outMem := []
    outEpoch := s.outEpoch + 1
    work := { s.work with phase := .dispatch } }

/-- A CMD write with START = 1: ignored while BUSY (R360). -/
def State.startCommand (s : State) (mode : Mode) (alg : BitVec 3) : State :=
  if s.busy then s else s.started mode alg

/-! ## Completion and errors -/

/-- The output capacity check (R366): it turns only a successful result into OutputOverflow. -/
def capCheck (outCap : Nat) : Result → Result
  | .ok out =>
    if outCap < out.length then .err .outputOverflow outCap (min out.length (2 ^ 32 - 1)) else .ok out
  | .err kind pos count => .err kind pos count

/-- Completion with success (R370). Bytes of OUT from OUT_LEN on are unspecified (10_state.md R46). -/
def State.completeOk (s : State) (out : List Byte) : State :=
  { s with
    outMem := Memory.layout 0 out
    outEpoch := s.outEpoch + 1
    outLen := BitVec.ofNat 32 out.length
    errCode := 0
    errPos := 0
    errCount := 0
    status := statusDone }

/-- Taking an error: completion with an error (R371, 60_exceptions.md R415). ERR_CODE, ERR_POS and ERR_COUNT save the
code, position and count, STATUS becomes ERROR, OUT_LEN becomes 0 and every byte of OUT is unspecified. -/
def State.takeError (s : State) (kind : ErrorKind) (pos count : Nat) : State :=
  { s with
    outMem := []
    outEpoch := s.outEpoch + 1
    outLen := 0
    errCode := kind.code
    errPos := saturate32 pos
    errCount := saturate32 count
    status := statusError }

/-- The operation ends with the result of its codec function (R362, R366, R370, R371). -/
def State.complete (s : State) (r : Result) : State :=
  match capCheck s.params.outCap r with
  | .ok out => s.completeOk out
  | .err kind pos count => s.takeError kind pos count

/-- `raise E(pos, count)` of a codec function (00_scope.md R13): the operation ends with that error (R403). There is no
return from an error (R416): the next START clears it. -/
def State.raise (s : State) (kind : ErrorKind) (pos count : Nat) : State := s.complete (.err kind pos count)

/-! ## Reset -/

/-- The reset values (10_state.md R60, 70_reset_and_hazards.md R450, R451): every register, the engine idle, OUT
unspecified, IN unchanged. -/
def State.resetRegs (s : State) : State :=
  { s with
    cmdAlg := 0
    cmdMode := .compress
    inLen := 0
    status := statusIdle
    errCode := 0
    errPos := 0
    errCount := 0
    outLen := 0
    outMem := []
    outEpoch := s.outEpoch + 1 }

/-- The reset input is asserted (R450). -/
def State.assertReset (s : State) : State := { s.resetRegs with resetLine := true }

/-- The reset input is released (R450). -/
def State.releaseReset (s : State) : State := { s with resetLine := false }

/-- Power-up: a reset with, in addition, IN unspecified (R452; log 14). -/
def State.powerUp (s : State) : State :=
  { s.resetRegs with inMem := [], inEpoch := s.inEpoch + 1, resetLine := false }

/-! ## The engine's working state -/

/-- Every structure is initialised by the operation that uses it (10_state.md R57). -/
def Work.init (phase : Phase) : Work := { Work.blank with phase := phase }

/-- `out <- out ++ bytes; i <- i + used`. -/
def Work.emit (w : Work) (bytes : List Byte) (used : Nat) : Work :=
  { w with out := w.out ++ bytes, cursor := w.cursor + used }

/-- The same on the state. -/
def State.emit (s : State) (bytes : List Byte) (used : Nat) : State := s.setWork (s.work.emit bytes used)

/-! ## Placement of the spaces -/

/-- The space and offset of a physical address (20_memory.md R87): REG, IN and OUT stand at REG_BASE, IN_BASE and
OUT_BASE. Where a platform lets windows overlap, the first of the three that holds the address is taken (log 22). -/
def locate (p : Params) (address : Nat) : Option (Space × Nat) :=
  if p.regBase ≤ address ∧ address < p.regBase + 256 then some (.reg, address - p.regBase)
  else if p.inBase ≤ address ∧ address < p.inBase + p.inCap then some (.inBuf, address - p.inBase)
  else if p.outBase ≤ address ∧ address < p.outBase + p.outCap then some (.outBuf, address - p.outBase)
  else none

/-- Which accesses the block admits (R80, R83, R84). -/
def admits (p : Params) (a : Access) : Bool :=
  match a.space with
  | .reg => decide (a.width = 32 ∧ a.offset % 4 = 0 ∧ a.offset ≤ 0xFF)
  | .inBuf => decide (a.width = 8 ∧ a.offset < p.inCap)
  | .outBuf => decide (a.width = 8 ∧ a.offset < p.outCap)

end Sys2Proof.Machine
end

