-- ==== Sys2Proof/Machine/Command.lean ====
section
/-! DEFINITION. The command words (47_dispatcher.md): START for each command, CMD.STORE, and the engine's first step,
which checks the command and routes it to its codec. -/

namespace Sys2Proof.Machine

/-- RLE.C (41_rle.md R170): START with ALG 0, compress; the engine then runs `rle_compress`. -/
def execRleC (s : State) : Answer := .next (s.startCommand .compress 0)

/-- RLE.D (R180): START with ALG 0, decompress. -/
def execRleD (s : State) : Answer := .next (s.startCommand .decompress 0)

/-- HUF.C (42_huffman_encoder.md R200): START with ALG 1, compress. -/
def execHufC (s : State) : Answer := .next (s.startCommand .compress 1)

/-- HUF.D (43_huffman_decoder.md R240): START with ALG 1, decompress. -/
def execHufD (s : State) : Answer := .next (s.startCommand .decompress 1)

/-- LZ.C (45_lz77_encoder.md R310): START with ALG 2, compress. -/
def execLzC (s : State) : Answer := .next (s.startCommand .compress 2)

/-- LZ.D (46_lz77_decoder.md R330): START with ALG 2, decompress. -/
def execLzD (s : State) : Answer := .next (s.startCommand .decompress 2)

/-- DEF.C (R380): START with ALG 3, compress; the engine then raises UnsupportedAlgorithm, or forwards it. -/
def execDefC (s : State) : Answer := .next (s.startCommand .compress 3)

/-- DEF.D (R380): START with ALG 3, decompress. -/
def execDefD (s : State) : Answer := .next (s.startCommand .decompress 3)

/-- UNSUP (R381): START with ALG 4 to 7; the engine then raises UnsupportedAlgorithm. -/
def execUnsup (mode : Mode) (algLow : BitVec 2) (s : State) : Answer :=
  .next (s.startCommand mode (reservedAlg algLow))

/-- CMD.STORE (R360). -/
def execCmdStore (mode : Mode) (alg : BitVec 3) (s : State) : Answer := .next (s.storeCommand mode alg)

/-- The routing table of R363: the loop in which the codec of an ALG below 3 begins. -/
def codecPhase (alg : BitVec 3) : Mode → Phase
  | .compress => if alg = 0 then .rleC else if alg = 1 then .hufCount else .lzC
  | .decompress => if alg = 0 then .rleD else if alg = 1 then .hufHeader else .lzD

/-- The head of `execute` (R362), in the priority of 60_exceptions.md R410: UnsupportedAlgorithm; forwarding to an
attached DEFLATE unit, which has no meaning here (R380); InputLengthInvalid (R406); then the codec begins with its own
working state initialised (10_state.md R57). -/
def dispatchStep (s : State) : Answer :=
  if 4 ≤ s.latch.alg.toNat ∨ (s.latch.alg = 3 ∧ s.params.deflateAttached = false) then
    .next (s.raise .unsupportedAlgorithm 0 0)
  else if s.latch.alg = 3 then .refused .externalDeflate
  else if s.params.inCap < s.latch.len.toNat then .next (s.raise .inputLengthInvalid 0 s.latch.len.toNat)
  else .next (s.setWork (Work.init (codecPhase s.latch.alg s.latch.mode)))

end Sys2Proof.Machine
end

