-- ==== Sys2Proof/Machine/BitStream.lean ====
section
/-! DEFINITION. The BitStream unit (40_bitstream.md): MSB-first bit writer and reader. -/

namespace Sys2Proof.Machine

/-- The writer's initial state (R151). -/
def Writer.empty : Writer := ⟨0, 0, []⟩

/-- `write_bit(b)` (R150). -/
def Writer.writeBit (wr : Writer) (b : Bool) : Writer :=
  let acc := (wr.acc <<< 1) ||| (BitVec.ofBool b).setWidth 8
  if wr.nbits + 1 = 8 then ⟨0, 0, wr.w ++ [acc]⟩ else ⟨acc, wr.nbits + 1, wr.w⟩

/-- Write the bits of a string, first bit first (42_huffman_encoder.md R211). -/
def Writer.writeBits (wr : Writer) (bits : List Bool) : Writer := bits.foldl Writer.writeBit wr

/-- `finish()` (R152): pad the partial byte with zero bits. -/
def Writer.flush (wr : Writer) : Writer :=
  if 0 < wr.nbits then ⟨0, 0, wr.w ++ [wr.acc <<< (8 - wr.nbits)]⟩ else wr

/-- The bytes that `finish()` returns (R152). -/
def Writer.finish (wr : Writer) : List Byte := wr.flush.w

/-- The reader's initial state (R155). -/
def Reader.start : Reader := ⟨0, 0⟩

/-- `read_bit()` (R154) over the payload `p`; `none` is the end-of-stream signal EOS. -/
def Reader.readBit (p : List Byte) (r : Reader) : Option (Bool × Reader) :=
  match p[r.rbyte]? with
  | none => none
  | some x =>
    some (x.getLsbD (7 - r.rbit), if r.rbit + 1 = 8 then ⟨r.rbyte + 1, 0⟩ else ⟨r.rbyte, r.rbit + 1⟩)

/-- The bits that successive `read_bit()` calls return, at most `fuel` of them, up to EOS. -/
def Reader.bits (p : List Byte) : Nat → Reader → List Bool
  | 0, _ => []
  | fuel + 1, r =>
    match r.readBit p with
    | none => []
    | some (b, r') => b :: Reader.bits p fuel r'

/-- Every bit from here to EOS: a payload of P bytes has at most 8P (R156). -/
def Reader.remaining (p : List Byte) (r : Reader) : List Bool := Reader.bits p (8 * p.length) r

/-- The reader after `k` calls of `read_bit()`; at EOS it stays (R154). -/
def Reader.skip (p : List Byte) : Nat → Reader → Reader
  | 0, r => r
  | k + 1, r =>
    match r.readBit p with
    | none => r
    | some (_, r') => Reader.skip p k r'

end Sys2Proof.Machine
end

