-- ==== Sys2Proof/Machine/HuffmanEncoder.lean ====
section
/-! DEFINITION. The huffman_encoder unit (42_huffman_encoder.md): the loops of `huf_compress`, and the tree building
that the decoder shares. -/

namespace Sys2Proof.Machine

/-- The header of R210: `put16(k)`, then each distinct byte in ascending order with `put32` of its frequency. -/
def hufHeaderBytes (t : FreqTable) : List Byte :=
  put16 (BitVec.ofNat 16 t.symbols.length) ++ t.symbols.flatMap (fun v => v :: put32 (t.at v))

/-- The leaves are placed and the merging loop begins (R203, R205). -/
def Work.placeLeaves (w : Work) : Work :=
  { w with
    nodes := leaves w.freq
    active := List.range (leaves w.freq).length
    phase := .hufMerge }

/-- The engine's step in the counting loop of R200. When the input is counted, the header is written; with at most one
distinct byte the container is the header alone (R201, R207). -/
def hufCountStep (s : State) : Answer :=
  match s.input[s.work.cursor]? with
  | some v => .next (s.setWork { s.work with freq := s.work.freq.bump v, cursor := s.work.cursor + 1 })
  | none =>
    if s.work.freq.symbols.length ≤ 1 then .next (s.complete (.ok (hufHeaderBytes s.work.freq)))
    else
      .next (s.setWork
        { s.work.placeLeaves with
          out := hufHeaderBytes s.work.freq
          count := s.work.freq.symbols.length })

/-- The engine's step in the merging loop of R205, and what follows the loop: the code table and the encode pass of a
compress operation (R209, R211), the payload walk of a decompress operation (43_huffman_decoder.md R250). -/
def hufMergeStep (s : State) : Answer :=
  if 1 < s.work.active.length then
    .next (s.setWork
      { s.work with
        nodes := (mergeLeast s.work.nodes s.work.active).1
        active := (mergeLeast s.work.nodes s.work.active).2 })
  else
    match s.latch.mode with
    | .compress =>
      .next (s.setWork
        { s.work with
          codes := codeTable s.work.nodes (rootOf s.work.active)
          writer := Writer.empty
          cursor := 0
          phase := .hufEncode })
    | .decompress =>
      .next (s.setWork
        { s.work with
          total := s.work.freq.total
          reader := Reader.start
          phase := .hufPayload })

/-- The engine's step in the encode pass (R211). -/
def hufEncodeStep (s : State) : Answer :=
  match s.input[s.work.cursor]? with
  | some v =>
    .next (s.setWork
      { s.work with
        writer := s.work.writer.writeBits (s.work.codes.at v)
        cursor := s.work.cursor + 1 })
  | none => .next (s.complete (.ok (s.work.out ++ s.work.writer.finish)))

end Sys2Proof.Machine
end

