-- ==== Sys2Proof/Machine/HuffmanDecoder.lean ====
section
/-! DEFINITION. The huffman_decoder unit (43_huffman_decoder.md): the meanings of the header fields and of a code
word, and the step between the header and the payload. -/

namespace Sys2Proof.Machine

/-- The index of the first byte after the header: `2 + 5k` (R250). -/
def headerEnd (k : Nat) : Nat := 2 + 5 * k

/-- The payload `p`: the container from index `2 + 5k` to its end (R250). -/
def State.payload (s : State) : List Byte := s.input.drop (headerEnd s.work.count)

/-- The container byte that holds bit number `depth` after the reader's place (R254). -/
def State.bitByte (s : State) (depth : Nat) : Nat :=
  headerEnd s.work.count + (8 * s.work.reader.rbyte + s.work.reader.rbit + depth) / 8

/-- HUF.HDR.COUNT: the checks of R242, R243 and R244 in the order of R240, then an empty frequency table and the
loop over the entries. `k = 0` with nothing after it is the empty output. -/
def execHufHdrCount (count : BitVec 16) (s : State) : Answer :=
  let n := s.latch.len.toNat
  let k := count.toNat
  if k = 0 then
    if 2 < n then .next (s.raise .malformedHeader 2 0) else .next (s.complete (.ok []))
  else if 256 < k then .next (s.raise .malformedHeader 0 0)
  else if n < headerEnd k then .next (s.raise .malformedHeader (2 + 5 * ((n - 2) / 5)) 0)
  else
    .next (s.setWork
      { s.work with
        count := k
        entry := 0
        cursor := 2
        freq := FreqTable.zero
        phase := .hufEntries })

/-- HUF.HDR.ENTRY: a frequency of 0, or a value that an earlier entry had, is MalformedHeader at this entry (R245); else
FREQ[value] is set (R246). An earlier entry had the value exactly when its counter is no longer 0, since the table starts
at 0 and only frequencies above 0 are stored (log 17). -/
def execHufHdrEntry (value : Byte) (freq : Word) (s : State) : Answer :=
  if freq = 0 ∨ s.work.freq.at value ≠ 0 then
    .next (s.raise .malformedHeader (2 + 5 * s.work.entry) 0)
  else
    .next (s.setWork
      { s.work with
        freq := s.work.freq.put value freq
        entry := s.work.entry + 1
        cursor := s.work.cursor + 5 })

/-- The header is read. One entry: trailing bytes are MalformedHeader at 7 (R247), else the value is output `f` times
(R248). Two or more: the tree is built (R249). -/
def hufHeaderDone (s : State) : Answer :=
  if s.work.count = 1 then
    if 7 < s.latch.len.toNat then .next (s.raise .malformedHeader 7 0)
    else
      .next (s.complete (.ok (s.work.freq.symbols.flatMap
        (fun v => List.replicate (s.work.freq.at v).toNat v))))
  else .next (s.setWork s.work.placeLeaves)

/-- Where a bit string leads from a node. -/
inductive PathEnd where
  /-- to a leaf, exactly at its end -/
  | leaf (sym : Byte)
  /-- it ends before a leaf -/
  | inside
  /-- bit number `depth` directs to a missing child -/
  | missing (depth : Nat)
deriving DecidableEq, Repr

/-- Follow a bit string from node `x` (R251); `depth` is the number of bits already followed. -/
def followPath (nodes : List Node) : Nat → Nat → List Bool → PathEnd
  | _, _, [] => .inside
  | depth, x, b :: bs =>
    match child nodes x b with
    | none => .missing depth
    | some y =>
      match leafSym nodes y, bs with
      | some v, [] => .leaf v
      | some _, _ :: _ => .missing (depth + 1)
      | none, _ => followPath nodes (depth + 1) y bs

/-- HUF.CODE (R251): output the byte of the leaf that the path leads to and read that many bits. The engine runs only
paths that end at a leaf; of any other bit string, one that ends inside the tree has run out of bits (R252), and one
that leaves the tree directs to a missing child (R254, log 18). -/
def execHufCode (path : List Bool) (s : State) : Answer :=
  match followPath s.work.nodes 0 (rootOf s.work.active) path with
  | .leaf v =>
    .next (s.setWork
      { s.work with
        out := s.work.out ++ [v]
        reader := Reader.skip s.payload path.length s.work.reader })
  | .inside => .next (s.raise .malformedPayload s.latch.len.toNat s.work.out.length)
  | .missing depth => .next (s.raise .malformedPayload (s.bitByte depth) s.work.out.length)

end Sys2Proof.Machine
end

