-- ==== Sys2Proof/Machine/Lz77.lean ====
section
/-! DEFINITION. LZ77: the match finder (44_lz77_match_finder.md), one position of the encoder (45_lz77_encoder.md), and
the meanings of the tokens (46_lz77_decoder.md). -/

namespace Sys2Proof.Machine

/-! ## Match finder -/

/-- The key of position q: the three bytes there, as a 24-bit value (R281); `none` when fewer are left. -/
def lzKey (d : List Byte) (q : Nat) : Option Nat :=
  match d.drop q with
  | a :: b :: c :: _ => some (a ++ b ++ c).toNat
  | _ => none

/-- The bucket of a key (R280). -/
def Dict.bucket (dict : Dict) (key : Nat) : List Nat := (Table.find key dict).getD []

/-- `register(q)` (R282). -/
def Dict.register (d : List Byte) (dict : Dict) (q : Nat) : Dict :=
  match lzKey d q with
  | some key => Table.put key (dict.bucket key ++ [q]) dict
  | none => dict

/-- Register the positions `q .. q + len - 1` in order (45_lz77_encoder.md R314). -/
def Dict.registerRange (d : List Byte) (dict : Dict) (q len : Nat) : Dict :=
  (List.range len).foldl (fun acc k => Dict.register d acc (q + k)) dict

/-- Pruning before a lookup at `i` (R283): positions below `i - WINDOW` leave every bucket, and a bucket that is empty
is not listed. -/
def Dict.prune (dict : Dict) (i : Nat) : Dict :=
  (dict.map (fun e => (e.1, e.2.filter (fun p => decide (i ≤ p + Config.window))))).filter (fun e => !e.2.isEmpty)

/-- How many leading bytes two sequences share, at most `cap` (R287). -/
def matchLength : Nat → List Byte → List Byte → Nat
  | 0, _, _ => 0
  | _ + 1, [], _ => 0
  | _ + 1, _ :: _, [] => 0
  | cap + 1, a :: as, b :: bs => if a = b then 1 + matchLength cap as bs else 0

/-- The scan of R285 over candidates, the most recent first: `best` is the best (length, offset) so far (R286, R288). -/
def scanBucket (d : List Byte) (i : Nat) : List Nat → Nat × Nat → Nat × Nat
  | [], best => best
  | p :: ps, best =>
    if p < i ∧ i - p ≤ Config.maxOffset then
      let len := matchLength Config.maxMatch (d.drop p) (d.drop i)
      let best' := if best.1 < len then (len, i - p) else best
      if best'.1 = Config.maxMatch then best' else scanBucket d i ps best'
    else scanBucket d i ps best

/-- The dictionary after the pruning that `find_match(i)` does, when it makes a lookup (R283, R285). -/
def lookupDict (d : List Byte) (dict : Dict) (i : Nat) : Dict :=
  if d.length - i < 3 then dict else dict.prune i

/-- `find_match(i)` (R285): the (length, offset) of the best match, or (0, 0). -/
def findMatch (d : List Byte) (dict : Dict) (i : Nat) : Nat × Nat :=
  if d.length - i < 3 then (0, 0)
  else
    match lzKey d i with
    | none => (0, 0)
    | some key => scanBucket d i ((dict.prune i).bucket key).reverse (0, 0)

/-! ## Encoder -/

/-- A match is used when it is long enough and not demoted (R311, R312). -/
def usableMatch (m : Nat × Nat) : Bool :=
  decide (Config.minMatch ≤ m.1) && !(decide (m.1 = 3) && decide (128 ≤ m.2) && decide (m.2 ≤ 255))

/-- A literal of the encoder (R313). -/
def lzLiteral (v : Byte) : List Byte := if v.msb then [Config.escape, v] else [v]

/-- One iteration of the loop of R310 at position `i`, which holds `v`: the bytes emitted, the input bytes consumed,
and the dictionary after registration (R314). -/
def lzToken (d : List Byte) (dict : Dict) (i : Nat) (v : Byte) : List Byte × Nat × Dict :=
  let m := findMatch d dict i
  let looked := lookupDict d dict i
  if usableMatch m then (matchToken m.1 m.2, m.1, looked.registerRange d i m.1)
  else (lzLiteral v, 1, looked.registerRange d i 1)

/-- The engine's step in the loop of `lz_compress` (R310). -/
def lzCStep (s : State) : Answer :=
  match s.input[s.work.cursor]? with
  | some v =>
    let t := lzToken s.input s.work.dict s.work.cursor v
    .next (s.setWork { s.work.emit t.1 t.2.1 with dict := t.2.2 })
  | none => .next (s.complete (.ok s.work.out))

/-! ## Decoder -/

/-- Copy `len` bytes one at a time from `off` bytes before the end (R336). -/
def copyBack (off : Nat) : Nat → List Byte → List Byte
  | 0, out => out
  | len + 1, out => copyBack off len (out ++ [out.getD (out.length - off) 0])

/-- A match token (R336): the back-reference check, then the copy. Every match token is 2 bytes. -/
def lzBackRef (len off : Nat) (s : State) : Answer :=
  if off = 0 ∨ s.work.out.length < off then
    .next (s.raise .invalidBackReference s.work.cursor s.work.out.length)
  else
    .next (s.setWork
      { s.work with out := copyBack off len s.work.out, cursor := s.work.cursor + 2 })

/-- LZ.LIT (R331). -/
def execLzLit (value : BitVec 7) (s : State) : Answer := .next (s.emit [literalByte value] 1)

/-- LZ.ESC (R332). -/
def execLzEsc (value : BitVec 7) (s : State) : Answer := .next (s.emit [escapedByte value] 2)

/-- LZ.MATCH3S (R333): length 3, the offset in the second byte. -/
def execLzMatch3s (offset : BitVec 7) (s : State) : Answer := lzBackRef Config.minMatch offset.toNat s

/-- LZ.MATCH (R334). -/
def execLzMatch (len : BitVec 3) (offHi : BitVec 4) (offLo : Byte) (s : State) : Answer :=
  lzBackRef (matchLen len) (matchOff offHi offLo) s

end Sys2Proof.Machine
end

