-- ==== Sys2Proof/Machine/Rle.lean ====
section
/-! DEFINITION. The RLE codec (41_rle.md): one block of the encoder, and the meanings of the two block kinds. -/

namespace Sys2Proof.Machine

/-- How many leading bytes equal `v`, at most `cap` (R171). -/
def runLength (v : Byte) : Nat → List Byte → Nat
  | 0, _ => 0
  | _ + 1, [] => 0
  | cap + 1, b :: bs => if b = v then 1 + runLength v cap bs else 0

/-- How many bytes a literal block takes (R173), at most `cap`: bytes that do not begin a repeat. -/
def literalLength : Nat → List Byte → Nat
  | 0, _ => 0
  | _ + 1, [] => 0
  | _ + 1, [_] => 1
  | cap + 1, a :: b :: rest => if a = b then 0 else 1 + literalLength cap (b :: rest)

/-- One iteration of the loop of R170 on the input from the cursor: the block emitted and the bytes it covers. -/
def rleBlock : List Byte → List Byte × Nat
  | [] => ([], 0)
  | b :: bs =>
    let run := 1 + runLength b (Config.maxRun - 1) bs
    if 2 ≤ run then ([BitVec.ofNat 8 (0x80 ||| (run - 1)), b], run)
    else
      let m := literalLength Config.maxRun (b :: bs)
      (BitVec.ofNat 8 (m - 1) :: (b :: bs).take m, m)

/-- The engine's step in the loop of `rle_compress` (R170). -/
def rleCStep (s : State) : Answer :=
  if s.work.cursor < s.input.length then
    .next (s.emit (rleBlock (s.input.drop s.work.cursor)).1 (rleBlock (s.input.drop s.work.cursor)).2)
  else .next (s.complete (.ok s.work.out))

/-- RLE.RUN (R181): output the value `L + 1` times; the block is 2 bytes. -/
def execRleRun (len : BitVec 7) (value : Byte) (s : State) : Answer :=
  .next (s.emit (List.replicate (blockCount len) value) 2)

/-- RLE.LIT (R183): copy the `L + 1` raw bytes; the block is `1 + (L + 1)` bytes. -/
def execRleLit (len : BitVec 7) (raw : List Byte) (s : State) : Answer :=
  .next (s.emit raw (1 + blockCount len))

end Sys2Proof.Machine
end

