-- ==== Sys2Proof/Machine/Dispatch.lean ====
section
/-! DEFINITION. One arm per instruction. -/

namespace Sys2Proof.Machine

def exec (i : Instr) (s : State) : Host.Outcome State Fault Refusal :=
  match i with
  | .rleC => Sys2Proof.Machine.execRleC s
  | .rleD => Sys2Proof.Machine.execRleD s
  | .hufC => Sys2Proof.Machine.execHufC s
  | .hufD => Sys2Proof.Machine.execHufD s
  | .lzC => Sys2Proof.Machine.execLzC s
  | .lzD => Sys2Proof.Machine.execLzD s
  | .defC => Sys2Proof.Machine.execDefC s
  | .defD => Sys2Proof.Machine.execDefD s
  | .unsup mode algLow => Sys2Proof.Machine.execUnsup mode algLow s
  | .cmdStore mode alg => Sys2Proof.Machine.execCmdStore mode alg s
  | .rleRun len value => Sys2Proof.Machine.execRleRun len value s
  | .rleLit len raw => Sys2Proof.Machine.execRleLit len raw s
  | .lzLit value => Sys2Proof.Machine.execLzLit value s
  | .lzEsc value => Sys2Proof.Machine.execLzEsc value s
  | .lzMatch3s offset => Sys2Proof.Machine.execLzMatch3s offset s
  | .lzMatch len offHi offLo => Sys2Proof.Machine.execLzMatch len offHi offLo s
  | .hufHdrCount count => Sys2Proof.Machine.execHufHdrCount count s
  | .hufHdrEntry value freq => Sys2Proof.Machine.execHufHdrEntry value freq s
  | .hufCode path => Sys2Proof.Machine.execHufCode path s

end Sys2Proof.Machine
end

