-- ==== Sys2Proof/Machine/Fetch.lean ====
section
/-! DEFINITION. Who moves next and what it runs: a host access, a reset event, or the engine, which decodes a token at
its cursor or does one iteration of its codec's loop. -/

namespace Sys2Proof.Machine

/-- What a step does: run a decoded instruction on a state, or an answer that no instruction gives. -/
inductive Next where
  | run (i : Instr) (s : State)
  | answer (a : Answer)

/-! ## The engine -/

/-- The error that a truncated or malformed encoding raises: RLE (41_rle.md R182) and LZ77 (46_lz77_decoder.md R335) at
the cursor, the Huffman header (43_huffman_decoder.md R241, R244), the Huffman payload (R252, R254). -/
def State.decodeFailed (s : State) : DecodeError → State
  | .endOfInput => s.raise .malformedPayload s.work.cursor s.work.out.length
  | .truncatedBlock => s.raise .malformedPayload s.work.cursor s.work.out.length
  | .truncatedToken => s.raise .malformedPayload s.work.cursor s.work.out.length
  | .truncatedCount => s.raise .malformedHeader 0 0
  | .truncatedEntry => s.raise .malformedHeader (2 + 5 * s.work.entry) 0
  | .endOfStream => s.raise .malformedPayload s.latch.len.toNat s.work.out.length
  | .missingChild depth => s.raise .malformedPayload (s.bitByte depth) s.work.out.length

/-- Where the engine finds its next instruction, if the running loop has one to decode: an RLE block or LZ77 token at
the cursor, a field of the Huffman header, a code word at the reader's place. -/
def State.source (s : State) : Option Source :=
  match s.work.phase with
  | .dispatch => none
  | .rleC => none
  | .rleD => if s.work.cursor < s.input.length then some (.rle (s.input.drop s.work.cursor)) else none
  | .hufCount => none
  | .hufMerge => none
  | .hufEncode => none
  | .hufHeader => some (.hufCount s.input)
  | .hufEntries =>
    if s.work.entry < s.work.count then some (.hufEntry (s.input.drop (headerEnd s.work.entry))) else none
  | .hufPayload =>
    if s.work.out.length < s.work.total then
      some (.hufCode s.work.nodes (rootOf s.work.active) (s.work.reader.remaining s.payload))
    else none
  | .lzC => none
  | .lzD => if s.work.cursor < s.input.length then some (.lz (s.input.drop s.work.cursor)) else none

/-- The engine's step when there is nothing to decode: the head of `execute`, an encoder's loop, the tree builder, or
the end of a decoder's loop. -/
def State.engineWork (s : State) : Answer :=
  match s.work.phase with
  | .dispatch => dispatchStep s
  | .rleC => rleCStep s
  | .rleD => .next (s.complete (.ok s.work.out))
  | .hufCount => hufCountStep s
  | .hufMerge => hufMergeStep s
  | .hufEncode => hufEncodeStep s
  | .hufHeader => .next (s.decodeFailed .truncatedCount)
  | .hufEntries => hufHeaderDone s
  | .hufPayload => .next (s.complete (.ok s.work.out))
  | .lzC => lzCStep s
  | .lzD => .next (s.complete (.ok s.work.out))

/-- The engine's turn. When it is not running nothing changes (60_exceptions.md R434). -/
def State.engineTurn (s : State) : Next :=
  if s.running then
    match s.source with
    | some src =>
      match decode src with
      | .ok i => .run i s
      | .error e => .answer (.next (s.decodeFailed e))
    | none => .answer s.engineWork
  else .answer (.next s)

/-! ## The host -/

/-- A host write of a register (10_state.md R34 to R42): CMD runs the command word, IN_LEN stores, the others ignore
it. -/
def State.hostWriteReg (s : State) (r : RegName) (v : Word) : Next :=
  match r with
  | .cmd => .run (decodeCommand v) s
  | .inLen => .answer (.next (s.writeInLen v))
  | .status => .answer (.next s)
  | .errCode => .answer (.next s)
  | .errPos => .answer (.next s)
  | .errCount => .answer (.next s)
  | .outLen => .answer (.next s)
  | .inCapR => .answer (.next s)
  | .outCapR => .answer (.next s)
  | .reserved => .answer (.next s)

/-- A host read puts its value on the bus; a byte is zero-extended. While BUSY, two reads of OUT need not agree, so the
free values move on (20_memory.md R90 item 4, log 5). -/
def State.hostRead (s : State) (sp : Space) (offset : Nat) : State :=
  match sp with
  | .reg => s.setBus (s.readReg (regAt offset))
  | .inBuf => s.setBus ((s.readIn offset).setWidth 32)
  | .outBuf =>
    if s.busy then (s.setBus ((s.readOut offset).setWidth 32)).freshOut
    else s.setBus ((s.readOut offset).setWidth 32)

/-- An admitted host write. While reset is asserted it is ignored (70_reset_and_hazards.md R450). A write to IN while
BUSY is a fault of the host (R460); a write to OUT is ignored (R46). -/
def State.hostWrite (s : State) (sp : Space) (offset : Nat) (v : Word) : Next :=
  if s.resetLine then .answer (.next s)
  else
    match sp with
    | .reg => s.hostWriteReg (regAt offset) v
    | .inBuf =>
      if s.busy then .answer (.fault .inWriteWhileBusy) else .answer (.next (s.writeIn offset (v.setWidth 8)))
    | .outBuf => .answer (.next s)

/-- A host access; one that is not admitted is a bus error (20_memory.md R84). -/
def State.hostAccess (s : State) (a : Access) : Next :=
  if admits s.params a then
    match a.op with
    | .read => .answer (.next (s.hostRead a.space a.offset))
    | .write v => s.hostWrite a.space a.offset v
  else .answer (.fault .busError)

/-- One input, already taken from the list. -/
def State.take (s : State) : Input → Next
  | .access a => s.hostAccess a
  | .bus address width op =>
    match locate s.params address with
    | some (sp, offset) => s.hostAccess ⟨sp, offset, width, op⟩
    | none => .answer (.fault .busError)
  | .turn => s.engineTurn
  | .resetAssert => .answer (.next s.assertReset)
  | .resetRelease => .answer (.next s.releaseReset)
  | .powerUp => .answer (.next s.powerUp)

/-- The step's choice: the next input, or the engine when no input is left (log 2). -/
def State.select (s : State) : Next :=
  match s.inputs with
  | [] => s.engineTurn
  | i :: rest => (s.setInputs rest).take i

/-! ## Placing an instruction -/

/-- The host write of a command word (30_encoding.md R130, `wr32 CMD, w`). -/
def cmdWrite (w : Word) : Input := .access ⟨.reg, 0x00, 32, .write w⟩

/-- The block in the middle of an operation, about to decode the bytes `container` from the cursor: the operation's
latch and phase are set, and IN holds the container. -/
def State.midOperation (s : State) (alg : BitVec 3) (phase : Phase) (container : List Byte) : State :=
  { s with
    inputs := []
    inMem := Memory.layout 0 container
    latch := ⟨alg, .decompress, BitVec.ofNat 32 container.length⟩
    status := statusBusy
    resetLine := false
    work := Work.init phase }

/-- Place a word of the opcode table where the step takes its next instruction (log 12). A command word is the host's
next access; a token is the whole input of a running decompress operation; a header entry is the only entry of a
container that declares one. -/
def State.placeWord (s : State) (nbits w : Nat) : State :=
  match tableSource nbits w with
  | none => s
  | some (.command v) => (s.setInputs (cmdWrite v :: s.inputs)).releaseReset
  | some (.rle bs) => s.midOperation 0 .rleD bs
  | some (.lz bs) =>
    match decodeLz bs with
    | .ok i => s.midOperation 2 .lzD (bs.take i.byteLength)
    | .error _ => s.midOperation 2 .lzD bs
  | some (.hufCount bs) => s.midOperation 1 .hufHeader bs
  | some (.hufEntry bs) =>
    let placed := s.midOperation 1 .hufEntries (0 :: 1 :: bs)
    placed.setWork { placed.work with count := 1, cursor := 2 }
  | some (.hufCode _ _ _) => s

end Sys2Proof.Machine
end

