-- ==== Sys2Proof/Machine/Step.lean ====
section
/-! DEFINITION. One step of the block. -/

namespace Sys2Proof.Machine

/-- One step: the decoded instruction runs, or the answer that needs none is given. -/
def step (s : State) : Host.Outcome State Fault Refusal :=
  match s.select with
  | .run i s' => exec i s'
  | .answer a => a

/-- `s` with a word of the opcode table placed so that the very next step runs it. -/
def State.withFetchWord (s : State) (nbits w : Nat) : State := s.placeWord nbits w

end Sys2Proof.Machine
end

