-- ==== Sys2Proof/Machine/Codec.lean ====
section
/-! DEFINITION. The codec functions as the spec's pseudocode gives them, each a whole function from the input sequence to
a result (47_dispatcher.md R362 to R365). The engine computes them a step at a time; the claims about operations are
stated against these. The decoders are written on the bytes and bits themselves, apart from the instruction decoder. -/

namespace Sys2Proof.Machine

/-! ## RLE -/

/-- The loop of `rle_compress` (R170) from position `i`; a position is passed in every round, so `|d|` rounds do. -/
def rleCompressFrom (d : List Byte) : Nat → Nat → List Byte → List Byte
  | 0, _, out => out
  | fuel + 1, i, out =>
    if i < d.length then
      rleCompressFrom d fuel (i + (rleBlock (d.drop i)).2) (out ++ (rleBlock (d.drop i)).1)
    else out

/-- `rle_compress(d)` (R170). -/
def rleCompress (d : List Byte) : List Byte := rleCompressFrom d d.length 0 []

/-- The loop of `rle_decompress` (R180). -/
def rleDecompressFrom (d : List Byte) : Nat → Nat → List Byte → Result
  | 0, _, out => .ok out
  | fuel + 1, i, out =>
    match d.drop i with
    | [] => .ok out
    | c :: rest =>
      let n := c.toNat % 128 + 1
      if 128 ≤ c.toNat then
        match rest with
        | [] => .err .malformedPayload i out.length
        | v :: _ => rleDecompressFrom d fuel (i + 2) (out ++ List.replicate n v)
      else if d.length < i + 1 + n then .err .malformedPayload i out.length
      else rleDecompressFrom d fuel (i + 1 + n) (out ++ rest.take n)

/-- `rle_decompress(d)` (R180). -/
def rleDecompress (d : List Byte) : Result := rleDecompressFrom d d.length 0 []

/-! ## Huffman -/

/-- The frequency table of an input (R202). -/
def freqTable (d : List Byte) : FreqTable := d.foldl FreqTable.bump FreqTable.zero

/-- The payload of an input under a code table (R211). -/
def encodePayload (codes : CodeTable) (d : List Byte) : List Byte :=
  (d.foldl (fun wr v => wr.writeBits (codes.at v)) Writer.empty).finish

/-- `huf_compress(d)` (R200). -/
def hufCompress (d : List Byte) : List Byte :=
  let t := freqTable d
  if t.symbols.length ≤ 1 then hufHeaderBytes t
  else
    let tree := buildTree t
    hufHeaderBytes t ++ encodePayload (codeTable tree.1 tree.2) d

/-- The byte at an index of a container. -/
def byteAt (c : List Byte) (i : Nat) : Byte := c.getD i 0

/-- The loop over the header entries of R240; the error is the position of the first bad entry. -/
def readEntries (c : List Byte) : Nat → Nat → List Byte → FreqTable → Except Nat FreqTable
  | 0, _, _, t => .ok t
  | left + 1, j, seen, t =>
    let v := byteAt c (2 + 5 * j)
    let f := be32 (byteAt c (3 + 5 * j)) (byteAt c (4 + 5 * j)) (byteAt c (5 + 5 * j)) (byteAt c (6 + 5 * j))
    if f = 0 ∨ v ∈ seen then .error (2 + 5 * j) else readEntries c left (j + 1) (v :: seen) (t.put v f)

/-- The bits of a byte sequence, MSB-first (20_memory.md R82). -/
def bitsOf (p : List Byte) : List Bool := p.flatMap (fun x => (List.range 8).map (fun k => x.getLsbD (7 - k)))

/-- The tree walk of R240, one bit a round, at node `x` with `read` bits of the payload read. `start` is the index of the
payload and `n` that of the end of the container. Exhausted bits are reported at `n` (R252), a missing child at the byte
that holds the bit (R254). -/
def walkPayload (nodes : List Node) (root total start n : Nat) : List Bool → Nat → Nat → List Byte → Result
  | [], _, _, out => if total ≤ out.length then .ok out else .err .malformedPayload n out.length
  | b :: bs, x, read, out =>
    if total ≤ out.length then .ok out
    else
      match child nodes x b with
      | none => .err .malformedPayload (start + read / 8) out.length
      | some y =>
        match leafSym nodes y with
        | some v => walkPayload nodes root total start n bs root (read + 1) (out ++ [v])
        | none => walkPayload nodes root total start n bs y (read + 1) out

/-- `huf_decompress(c)` (R240). -/
def hufDecompress (c : List Byte) : Result :=
  let n := c.length
  if n < 2 then .err .malformedHeader 0 0
  else
    let k := (be16 (byteAt c 0) (byteAt c 1)).toNat
    if k = 0 then (if 2 < n then .err .malformedHeader 2 0 else .ok [])
    else if 256 < k then .err .malformedHeader 0 0
    else if n < 2 + 5 * k then .err .malformedHeader (2 + 5 * ((n - 2) / 5)) 0
    else
      match readEntries c k 0 [] FreqTable.zero with
      | .error pos => .err .malformedHeader pos 0
      | .ok t =>
        if k = 1 then
          if 7 < n then .err .malformedHeader 7 0
          else .ok (List.replicate (t.at (byteAt c 2)).toNat (byteAt c 2))
        else
          let tree := buildTree t
          walkPayload tree.1 tree.2 t.total (2 + 5 * k) n (bitsOf (c.drop (2 + 5 * k))) tree.2 0 []

/-! ## LZ77 -/

/-- The loop of `lz_compress` (R310). -/
def lzCompressFrom (d : List Byte) : Nat → Nat → Dict → List Byte → List Byte
  | 0, _, _, out => out
  | fuel + 1, i, dict, out =>
    match d[i]? with
    | none => out
    | some v =>
      let t := lzToken d dict i v
      lzCompressFrom d fuel (i + t.2.1) t.2.2 (out ++ t.1)

/-- `lz_compress(d)` (R310). -/
def lzCompress (d : List Byte) : List Byte := lzCompressFrom d d.length 0 [] []

/-- The loop of `lz_decompress` (R330). -/
def lzDecompressFrom (d : List Byte) : Nat → Nat → List Byte → Result
  | 0, _, out => .ok out
  | fuel + 1, i, out =>
    match d.drop i with
    | [] => .ok out
    | b1 :: rest =>
      if b1.toNat < 128 then lzDecompressFrom d fuel (i + 1) (out ++ [b1])
      else
        match rest with
        | [] => .err .malformedPayload i out.length
        | b2 :: _ =>
          if b1.toNat = 128 ∧ 128 ≤ b2.toNat then lzDecompressFrom d fuel (i + 2) (out ++ [b2])
          else
            let len := b1.toNat / 16 % 8 + 3
            let off := b1.toNat % 16 * 256 + b2.toNat
            if off = 0 ∨ out.length < off then .err .invalidBackReference i out.length
            else lzDecompressFrom d fuel (i + 2) (copyBack off len out)

/-- `lz_decompress(d)` (R330). -/
def lzDecompress (d : List Byte) : Result := lzDecompressFrom d d.length 0 []

/-! ## execute -/

/-- `CODEC[ALG][MODE](d)` (R363), for ALG below 3. -/
def codec (alg : BitVec 3) (mode : Mode) (d : List Byte) : Result :=
  match mode with
  | .compress =>
    if alg = 0 then .ok (rleCompress d) else if alg = 1 then .ok (hufCompress d) else .ok (lzCompress d)
  | .decompress =>
    if alg = 0 then rleDecompress d else if alg = 1 then hufDecompress d else lzDecompress d

/-- `execute(ALG, MODE, L)` (R362) on the input `d = IN[0 .. L-1]`, with the capacity check of R366; `none` where the
operation goes to an attached DEFLATE unit (R380). -/
def execute (p : Params) (alg : BitVec 3) (mode : Mode) (len : Nat) (d : List Byte) : Option Result :=
  if 4 ≤ alg.toNat ∨ (alg = 3 ∧ p.deflateAttached = false) then some (.err .unsupportedAlgorithm 0 0)
  else if alg = 3 then none
  else if p.inCap < len then some (.err .inputLengthInvalid 0 len)
  else some (capCheck p.outCap (codec alg mode d))

end Sys2Proof.Machine
end

