-- ==== Sys2Proof/Safety.lean ====
section
/-! DEFINITION. The terms in which claims about the block are made: runs, what a step or an instruction leaves
unchanged, what the host sees when an operation has ended, and the invariants of the state. -/

namespace Sys2Proof.Machine

/-! ## Runs -/

/-- `k` steps, stopping at the first fault or refusal. -/
def steps : Nat → State → Answer
  | 0, s => .next s
  | k + 1, s =>
    match step s with
    | .next t => steps k t
    | .fault f => .fault f
    | .refused r => .refused r

/-- Some number of steps leads from `s` to `t`. -/
def Reaches (s t : State) : Prop := ∃ k, steps k s = .next t

/-- The block waits for a START: not BUSY, reset released (60_exceptions.md R434). -/
abbrev State.Idle (s : State) : Prop := s.busy = false ∧ s.resetLine = false

/-- The engine is the next to move: no input stands before it. -/
abbrev State.Undisturbed (s : State) : Prop := s.inputs = [] ∧ s.resetLine = false

/-- The bytes the next operation would read: `IN[0 .. IN_LEN - 1]` (47_dispatcher.md R361, R362). -/
def State.nextInput (s : State) : List Byte := (List.range s.inLen.toNat).map s.readIn

/-! ## What stays -/

/-- Nothing but the engine's working state differs: every register, the latch, the parameters, the reset input, the
inputs to come, and every byte the host can read from IN and OUT. -/
structure OnlyWorkChanged (s t : State) : Prop where
  params : t.params = s.params
  cmdAlg : t.cmdAlg = s.cmdAlg
  cmdMode : t.cmdMode = s.cmdMode
  inLen : t.inLen = s.inLen
  status : t.status = s.status
  errCode : t.errCode = s.errCode
  errPos : t.errPos = s.errPos
  errCount : t.errCount = s.errCount
  outLen : t.outLen = s.outLen
  inBytes : ∀ a, t.readIn a = s.readIn a
  outBytes : ∀ a, t.readOut a = s.readOut a
  latch : t.latch = s.latch
  resetLine : t.resetLine = s.resetLine
  inputs : t.inputs = s.inputs
  busData : t.busData = s.busData

/-- What the end of an operation leaves unchanged (60_exceptions.md R404, 10_state.md R45): everything but STATUS, the
error registers, OUT_LEN and OUT. -/
structure OnlyResultChanged (s t : State) : Prop where
  params : t.params = s.params
  cmdAlg : t.cmdAlg = s.cmdAlg
  cmdMode : t.cmdMode = s.cmdMode
  inLen : t.inLen = s.inLen
  inBytes : ∀ a, t.readIn a = s.readIn a
  latch : t.latch = s.latch
  work : t.work = s.work
  resetLine : t.resetLine = s.resetLine
  inputs : t.inputs = s.inputs
  busData : t.busData = s.busData

/-- What a whole operation leaves unchanged: the parameters, CMD, IN_LEN, IN and the host's side. -/
structure OperationFrame (s t : State) : Prop where
  params : t.params = s.params
  cmdAlg : t.cmdAlg = s.cmdAlg
  cmdMode : t.cmdMode = s.cmdMode
  inLen : t.inLen = s.inLen
  inBytes : ∀ a, t.readIn a = s.readIn a
  resetLine : t.resetLine = s.resetLine
  inputs : t.inputs = s.inputs
  busData : t.busData = s.busData

/-! ## The end of an operation -/

/-- Every byte of OUT is unspecified: no address has a defined value, and a read gives the free value (R46). -/
def State.OutUnspecified (s : State) : Prop :=
  ∀ a, Table.find a s.outMem = none ∧ s.readOut a = Config.outFree s.outEpoch a

/-- The registers and OUT after an error (47_dispatcher.md R371). -/
structure EndedWithError (t : State) (kind : ErrorKind) (pos count : Nat) : Prop where
  status : t.status = 0b100
  errCode : t.errCode = kind.code
  errPos : t.errPos.toNat = min pos (2 ^ 32 - 1)
  errCount : t.errCount.toNat = min count (2 ^ 32 - 1)
  outLen : t.outLen = 0
  out : t.OutUnspecified

/-- The registers and OUT after success (R370, 10_state.md R46): OUT holds the result and is unspecified beyond it. -/
structure EndedWithSuccess (t : State) (out : List Byte) : Prop where
  status : t.status = 0b010
  errCode : t.errCode = 0
  errPos : t.errPos = 0
  errCount : t.errCount = 0
  outLen : t.outLen.toNat = out.length
  inside : ∀ a (h : a < out.length), t.readOut a = out[a]
  beyond : ∀ a, out.length ≤ a → Table.find a t.outMem = none ∧ t.readOut a = Config.outFree t.outEpoch a

/-- The operation ended with this result. -/
def EndedWith (t : State) : Result → Prop
  | .ok out => EndedWithSuccess t out
  | .err kind pos count => EndedWithError t kind pos count

/-- From `s`, command `i` starts an operation that ends with `r`: `i` answers a next state `u`, the engine's turns lead
from `u` to a state that is no longer BUSY and holds `r`, and the operation's frame holds between the two. -/
def OperationGives (i : Instr) (s : State) (r : Result) : Prop :=
  ∃ u t, exec i s = .next u ∧ Reaches u t ∧ t.busy = false ∧ EndedWith t r ∧ OperationFrame u t

/-- From `s`, command `i` starts an operation whose codec result is `r`, and it ends as R366, R370 and R371 say: with that
result when it fits in OUT, with OutputOverflow at OUT_CAP and the length of the result as count when it does not, with
the codec's error when it is one. -/
def OperationEnds (i : Instr) (s : State) : Result → Prop
  | .ok out =>
    (out.length ≤ s.params.outCap → OperationGives i s (.ok out)) ∧
    (s.params.outCap < out.length → OperationGives i s (.err .outputOverflow s.params.outCap out.length))
  | .err kind pos count => OperationGives i s (.err kind pos count)

/-- The codec's `Ok(out)` when the engine's turn at `s` is the last of its loop (41_rle.md R170, R180,
42_huffman_encoder.md R200, 43_huffman_decoder.md R240, 45_lz77_encoder.md R310, 46_lz77_decoder.md R330). -/
def State.resultDue (s : State) : Option (List Byte) :=
  match s.work.phase with
  | .dispatch => none
  | .rleC => if s.input.length ≤ s.work.cursor then some s.work.out else none
  | .rleD => if s.input.length ≤ s.work.cursor then some s.work.out else none
  | .hufCount =>
    if s.input.length ≤ s.work.cursor ∧ s.work.freq.symbols.length ≤ 1 then some (hufHeaderBytes s.work.freq) else none
  | .hufMerge => none
  | .hufEncode =>
    if s.input.length ≤ s.work.cursor then some (s.work.out ++ s.work.writer.finish) else none
  | .hufHeader => if s.input = [0, 0] then some [] else none
  | .hufEntries =>
    if s.work.count ≤ s.work.entry ∧ s.work.count = 1 ∧ s.latch.len.toNat ≤ 7 then
      some (s.work.freq.symbols.flatMap (fun v => List.replicate (s.work.freq.at v).toNat v))
    else none
  | .hufPayload => if s.work.total ≤ s.work.out.length then some s.work.out else none
  | .lzC => if s.input.length ≤ s.work.cursor then some s.work.out else none
  | .lzD => if s.input.length ≤ s.work.cursor then some s.work.out else none

/-- The error that the engine's turn at `s` raises, with its position and count before saturation: the table of
60_exceptions.md R402, each row with the condition of the rule that raises it. -/
inductive ErrorDue (s : State) : ErrorKind → Nat → Nat → Prop where
  /-- R362, R380, R381 -/
  | unsupported : s.work.phase = .dispatch →
      (4 ≤ s.latch.alg.toNat ∨ (s.latch.alg = 3 ∧ s.params.deflateAttached = false)) →
      ErrorDue s .unsupportedAlgorithm 0 0
  /-- R406 -/
  | tooLong : s.work.phase = .dispatch → s.latch.alg.toNat < 3 → s.params.inCap < s.latch.len.toNat →
      ErrorDue s .inputLengthInvalid 0 s.latch.len.toNat
  /-- R241 -/
  | noCount : s.work.phase = .hufHeader → s.input.length < 2 → ErrorDue s .malformedHeader 0 0
  /-- R242 -/
  | trailingZero (rest : List Byte) : s.work.phase = .hufHeader → s.input = 0 :: 0 :: rest → rest ≠ [] →
      ErrorDue s .malformedHeader 2 0
  /-- R243 -/
  | tooMany (b1 b0 : Byte) (rest : List Byte) : s.work.phase = .hufHeader → s.input = b1 :: b0 :: rest →
      256 < b1.toNat * 256 + b0.toNat → ErrorDue s .malformedHeader 0 0
  /-- R244 -/
  | fewEntries (b1 b0 : Byte) (rest : List Byte) : s.work.phase = .hufHeader → s.input = b1 :: b0 :: rest →
      1 ≤ b1.toNat * 256 + b0.toNat → b1.toNat * 256 + b0.toNat ≤ 256 →
      s.input.length < 2 + 5 * (b1.toNat * 256 + b0.toNat) →
      ErrorDue s .malformedHeader (2 + 5 * ((s.input.length - 2) / 5)) 0
  /-- R244 at an entry that is not whole, which the check above excludes in every run -/
  | cutEntry : s.work.phase = .hufEntries → s.work.entry < s.work.count →
      (s.input.drop (2 + 5 * s.work.entry)).length < 5 → ErrorDue s .malformedHeader (2 + 5 * s.work.entry) 0
  /-- R245 (log 17 for a value that appeared before) -/
  | badEntry (v f3 f2 f1 f0 : Byte) (rest : List Byte) : s.work.phase = .hufEntries → s.work.entry < s.work.count →
      s.input.drop (2 + 5 * s.work.entry) = v :: f3 :: f2 :: f1 :: f0 :: rest →
      ((f3 = 0 ∧ f2 = 0 ∧ f1 = 0 ∧ f0 = 0) ∨ s.work.freq.at v ≠ 0) →
      ErrorDue s .malformedHeader (2 + 5 * s.work.entry) 0
  /-- R247 -/
  | trailingSingle : s.work.phase = .hufEntries → s.work.count ≤ s.work.entry → s.work.count = 1 →
      7 < s.latch.len.toNat → ErrorDue s .malformedHeader 7 0
  /-- R252 -/
  | bitsOut : s.work.phase = .hufPayload → s.work.out.length < s.work.total →
      decodeHufCode s.work.nodes (rootOf s.work.active) (s.work.reader.remaining s.payload) = .error .endOfStream →
      ErrorDue s .malformedPayload s.latch.len.toNat s.work.out.length
  /-- R254: no run comes here; the byte that holds bit number `depth` from the reader's place on -/
  | noChild (depth : Nat) : s.work.phase = .hufPayload → s.work.out.length < s.work.total →
      decodeHufCode s.work.nodes (rootOf s.work.active) (s.work.reader.remaining s.payload) =
        .error (.missingChild depth) →
      ErrorDue s .malformedPayload
        (2 + 5 * s.work.count + (8 * s.work.reader.rbyte + s.work.reader.rbit + depth) / 8) s.work.out.length
  /-- R182 -/
  | cutBlock (c : Byte) (rest : List Byte) : s.work.phase = .rleD → s.input.drop s.work.cursor = c :: rest →
      ((0x80 ≤ c.toNat ∧ rest = []) ∨ (c.toNat < 0x80 ∧ rest.length < c.toNat + 1)) →
      ErrorDue s .malformedPayload s.work.cursor s.work.out.length
  /-- R335 -/
  | cutToken (b1 : Byte) : s.work.phase = .lzD → s.input.drop s.work.cursor = [b1] → 0x80 ≤ b1.toNat →
      ErrorDue s .malformedPayload s.work.cursor s.work.out.length
  /-- R336 -/
  | badReference (b1 b2 : Byte) (rest : List Byte) : s.work.phase = .lzD →
      s.input.drop s.work.cursor = b1 :: b2 :: rest → 0x80 ≤ b1.toNat → ¬ (b1.toNat = 0x80 ∧ 0x80 ≤ b2.toNat) →
      (b1.toNat % 16 * 256 + b2.toNat = 0 ∨ s.work.out.length < b1.toNat % 16 * 256 + b2.toNat) →
      ErrorDue s .invalidBackReference s.work.cursor s.work.out.length
  /-- R366 -/
  | overflow (out : List Byte) : s.resultDue = some out → s.params.outCap < out.length →
      ErrorDue s .outputOverflow s.params.outCap out.length

/-- What the host can read of a finished operation is the same in two states (R364). -/
structure SameResult (s t : State) : Prop where
  status : s.status = t.status
  errCode : s.errCode = t.errCode
  errPos : s.errPos = t.errPos
  errCount : s.errCount = t.errCount
  outLen : s.outLen = t.outLen
  outDefined : s.outMem = t.outMem

/-! ## Reset values -/

/-- The value each register reads after reset (10_state.md R33, R60). -/
def resetValue (p : Params) : RegName → Word
  | .cmd => 0
  | .inLen => 0
  | .status => 0
  | .errCode => 0
  | .errPos => 0
  | .errCount => 0
  | .outLen => 0
  | .inCapR => BitVec.ofNat 32 p.inCap
  | .outCapR => BitVec.ofNat 32 p.outCap
  | .reserved => 0

/-- An input that does not touch the reset input or the power: a host access or an engine turn. -/
def Input.isAccessOrTurn : Input → Bool
  | .access _ => true
  | .bus _ _ _ => true
  | .turn => true
  | .resetAssert => false
  | .resetRelease => false
  | .powerUp => false

/-- The next input leaves the reset input and the power alone. -/
def State.NoResetNext (s : State) : Prop :=
  match s.inputs with
  | [] => True
  | i :: _ => i ≠ .resetAssert ∧ i ≠ .powerUp

/-- Neither window of the placement overlaps another (20_memory.md R87). -/
def windowsDisjoint (p : Params) : Prop :=
  (p.regBase + 256 ≤ p.inBase ∨ p.inBase + p.inCap ≤ p.regBase) ∧
  (p.regBase + 256 ≤ p.outBase ∨ p.outBase + p.outCap ≤ p.regBase) ∧
  (p.inBase + p.inCap ≤ p.outBase ∨ p.outBase + p.outCap ≤ p.inBase)

/-- The base address of a space. -/
def spaceBase (p : Params) : Space → Nat
  | .reg => p.regBase
  | .inBuf => p.inBase
  | .outBuf => p.outBase

/-- The size of a space (R80). -/
def spaceSize (p : Params) : Space → Nat
  | .reg => 256
  | .inBuf => p.inCap
  | .outBuf => p.outCap

/-- An access or turn that the block carries out: the access is admitted (R84). -/
def admittedInput (p : Params) : Input → Bool
  | .access a => admits p a
  | .bus address width op =>
    match locate p address with
    | some (sp, offset) => admits p ⟨sp, offset, width, op⟩
    | none => false
  | .turn => true
  | .resetAssert => false
  | .resetRelease => false
  | .powerUp => false

/-- An input that starts nothing and writes nothing: a host read, or an engine turn. -/
def Input.isReadOrTurn : Input → Bool
  | .access a => decide (a.op = .read)
  | .bus _ _ op => decide (op = .read)
  | .turn => true
  | .resetAssert => false
  | .resetRelease => false
  | .powerUp => false

/-! ## Encodings -/

/-- The container formats that are decoded from bytes. -/
inductive Format where
  | rle
  | lz
  | hufCount
  | hufEntry
deriving DecidableEq, Repr

/-- The bytes at a place where a format's decoder reads. -/
def Format.source : Format → List Byte → Source
  | .rle, bs => .rle bs
  | .lz, bs => .lz bs
  | .hufCount, bs => .hufCount bs
  | .hufEntry, bs => .hufEntry bs

/-- The byte format an instruction belongs to; none for a command word and a code word. -/
def formatOf : Instr → Option Format
  | .rleC => none
  | .rleD => none
  | .hufC => none
  | .hufD => none
  | .lzC => none
  | .lzD => none
  | .defC => none
  | .defD => none
  | .unsup _ _ => none
  | .cmdStore _ _ => none
  | .rleRun _ _ => some .rle
  | .rleLit _ _ => some .rle
  | .lzLit _ => some .lz
  | .lzEsc _ => some .lz
  | .lzMatch3s _ => some .lz
  | .lzMatch _ _ _ => some .lz
  | .hufHdrCount _ => some .hufCount
  | .hufHdrEntry _ _ => some .hufEntry
  | .hufCode _ => none

/-- A Huffman container with the given entries and payload (30_encoding.md R125). -/
def hufContainer (entries : List (Byte × Word)) (payload : List Byte) : List Byte :=
  put16 (BitVec.ofNat 16 entries.length) ++ entries.flatMap (fun e => e.1 :: put32 e.2) ++ payload

/-- A dictionary of positions below `i`, each in the bucket of its own key (44_lz77_match_finder.md R281, R286). -/
def DictOf (d : List Byte) (i : Nat) (dict : Dict) : Prop :=
  Table.risingFrom 0 dict = true ∧
    ∀ key p, p ∈ dict.bucket key → p < i ∧ lzKey d p = some key

/-- These nodes exist, and each precedes every later one in the order of 42_huffman_encoder.md R204. -/
def NodesRise (nodes : List Node) (xs : List Nat) : Prop :=
  xs.Pairwise (fun x y => ∃ m n, nodes[x]? = some m ∧ nodes[y]? = some n ∧ m.before n = true)

/-- The children of the internal nodes `k .. 2k - 2`, left before right, in the order in which the nodes were created: the
order in which `build_tree` takes nodes out of ACTIVE (R205). -/
def mergeOrder (nodes : List Node) (k : Nat) : List Nat :=
  (List.range (k - 1)).flatMap (fun j => (child nodes (k + j) false).toList ++ (child nodes (k + j) true).toList)

/-! ## Invariants -/

/-- The invariant of the host-visible state. -/
structure State.Inv (s : State) : Prop where
  /-- the capacities are legal (00_scope.md R8) -/
  params : s.params.Legal
  /-- IN is in canonical form and inside its capacity (R45) -/
  inWf : Memory.wf s.inMem = true
  inBelow : Memory.below s.params.inCap s.inMem = true
  /-- the defined bytes of OUT are exactly OUT[0 .. OUT_LEN - 1], inside its capacity (R40, R46) -/
  outWf : Memory.wf s.outMem = true
  outLayout : s.outMem = Memory.layout 0 (s.outMem.map Prod.snd)
  outLen : s.outMem.length = s.outLen.toNat
  outBelow : s.outMem.length ≤ s.params.outCap
  /-- at most one of BUSY, DONE and ERROR is 1, and the reserved bits are 0 (R36) -/
  status : s.status = 0 ∨ s.status = 1 ∨ s.status = 2 ∨ s.status = 4
  /-- ERR_CODE, ERR_POS and ERR_COUNT are 0 unless the last operation had an error (R37, R38, R39) -/
  noError : s.status ≠ 4 → s.errCode = 0 ∧ s.errPos = 0 ∧ s.errCount = 0
  /-- after an error the code is one of 1 to 6 (60_exceptions.md R400) -/
  anError : s.status = 4 → 1 ≤ s.errCode.toNat ∧ s.errCode.toNat ≤ 6
  /-- OUT_LEN is 0 unless the last operation succeeded (R40) -/
  noOutput : s.status ≠ 2 → s.outLen = 0
  /-- while reset is asserted STATUS reads 0 (70_reset_and_hazards.md R450) -/
  resetIdle : s.resetLine = true → s.status = 0
  /-- an operation past the checks of `execute` has a codec and an input that fits (47_dispatcher.md R362) -/
  checked : s.busy = true → s.work.phase ≠ .dispatch →
    s.latch.alg.toNat < 3 ∧ s.latch.len.toNat ≤ s.params.inCap

/-- The sum of the frequencies of the active nodes. -/
def activeSum (nodes : List Node) (active : List Nat) : Nat := (active.map (nodeFreq nodes)).sum

/-- The working storage stays inside the sizes the spec gives it (10_state.md R51, R52, R54, R55; 00_scope.md R15). -/
structure Work.Bounded (w : Work) : Prop where
  nodes : w.nodes.length ≤ 511
  active : w.active.length ≤ 256
  arena : w.nodes.length + w.active.length ≤ 512
  rooted : w.nodes ≠ [] → w.active ≠ []
  activeInside : ∀ x ∈ w.active, x < w.nodes.length
  activeSum : activeSum w.nodes w.active ≤ 256 * (2 ^ 32 - 1)
  freqs : ∀ n ∈ w.nodes, n.freq < 2 ^ 40
  nbits : w.writer.nbits < 8
  rbit : w.reader.rbit < 8
  dict : Table.risingFrom 0 w.dict = true

end Sys2Proof.Machine
end

