-- ==== Sys2Proof/Certificates/Slice0/Obligations.lean ====
section
/-! DEFINITION. The statements for the provers, each with the rule of spec/ it rests on. -/

open Sys2Proof Sys2Proof.Machine

/-! ## Encodings -/

/-- R112: the command words of the table, with bits 30:4 zero; UNSUP is every word with bits 31 and 2 set, CMD.STORE
every word with bit 31 clear. With them one word of each container row, written out from R116 to R125. -/
def Obligations.WrittenOutWordsDecode : Prop :=
  decode (.rle [0x81, 0x05]) = .ok (.rleRun 1 0x05) ∧
  decode (.rle [0x02, 0x01, 0x02, 0x03]) = .ok (.rleLit 2 [0x01, 0x02, 0x03]) ∧
  decode (.lz [0x41]) = .ok (.lzLit 0x41) ∧
  decode (.lz [0x80, 0xC8]) = .ok (.lzEsc 0x48) ∧
  decode (.lz [0x80, 0x01]) = .ok (.lzMatch3s 1) ∧
  decode (.lz [0xB0, 0x03]) = .ok (.lzMatch 3 0 0x03) ∧
  decode (.hufCount [0x01, 0x00]) = .ok (.hufHdrCount 256) ∧
  decode (.hufEntry [0x41, 0x00, 0x00, 0x01, 0x02]) = .ok (.hufHdrEntry 0x41 0x102) ∧
  decodeCommand 0x80000000#32 = .rleC ∧ decodeCommand 0x80000008#32 = .rleD ∧
  decodeCommand 0x80000001#32 = .hufC ∧ decodeCommand 0x80000009#32 = .hufD ∧
  decodeCommand 0x80000002#32 = .lzC ∧ decodeCommand 0x8000000A#32 = .lzD ∧
  decodeCommand 0x80000003#32 = .defC ∧ decodeCommand 0x8000000B#32 = .defD ∧
  (∀ w : Word, w.getLsbD 31 = true → w.getLsbD 2 = true →
    ∃ mode low, decodeCommand w = .unsup mode low ∧ (mode = .decompress ↔ w.getLsbD 3 = true) ∧
      reservedAlg low = w.extractLsb' 0 3) ∧
  (∀ w : Word, w.getLsbD 31 = false →
    ∃ mode, decodeCommand w = .cmdStore mode (w.extractLsb' 0 3) ∧ (mode = .decompress ↔ w.getLsbD 3 = true))

/-- R114: bits 30:4 of a CMD write select nothing, never cause an error, and read back as 0. -/
def Obligations.IgnoredCommandBitsSelectNothing : Prop :=
  (∀ w w' : Word, w.getLsbD 31 = w'.getLsbD 31 → w.extractLsb' 0 4 = w'.extractLsb' 0 4 →
    decodeCommand w = decodeCommand w') ∧
  (∀ (w : Word) (s : State), ∃ t, exec (decodeCommand w) s = .next t ∧
    (t.readReg .cmd).extractLsb' 4 28 = 0)

/-- R111, R112, R116 to R126: decoding what the encoder wrote gives the instruction back, with every operand at every
value it can have and whatever stands after it. -/
def Obligations.DecodeOfEncodeIsTheInstruction : Prop :=
  ∀ i : Instr, i.wf = true →
    (∀ w, encode i = .word w → decode (.command w) = .ok i) ∧
    (∀ bs, encode i = .bytes bs → bs.length = i.byteLength ∧
      ∃ f, formatOf i = some f ∧ ∀ rest, decode (f.source (bs ++ rest)) = .ok i) ∧
    (∀ p, encode i = .bits p → ∀ nodes root rest v, followPath nodes 0 root p = .leaf v →
      decode (.hufCode nodes root (p ++ rest)) = .ok i)

/-- R111, R118, R124, R125: what a decoder reads is well formed and encodes back to the very bytes that were read; a
command word encodes back with its ignored bits cleared. -/
def Obligations.EncodeOfDecodeIsTheBytes : Prop :=
  (∀ w : Word, encode (decodeCommand w) = .word (w &&& 0x8000000F#32) ∧ (decodeCommand w).wf = true) ∧
  (∀ (f : Format) (bs : List Byte) (i : Instr), decode (f.source bs) = .ok i →
    i.wf = true ∧ formatOf i = some f ∧ ∃ read rest, encode i = .bytes read ∧ bs = read ++ rest)

/-- R124, with R119, R120, R122, R123 for the values: the classification of an LZ77 token. -/
def Obligations.LzTokensAreClassified : Prop :=
  ∀ (b1 b2 : Byte) (tail : List Byte),
    (b1.toNat < 0x80 →
      ∃ v, decodeLz (b1 :: tail) = .ok (.lzLit v) ∧ literalByte v = b1 ∧ (Instr.lzLit v).byteLength = 1) ∧
    (b1.toNat = 0x80 → 0x80 ≤ b2.toNat →
      ∃ v, decodeLz (b1 :: b2 :: tail) = .ok (.lzEsc v) ∧ escapedByte v = b2 ∧ (Instr.lzEsc v).byteLength = 2) ∧
    (b1.toNat = 0x80 → b2.toNat < 0x80 →
      ∃ o, decodeLz (b1 :: b2 :: tail) = .ok (.lzMatch3s o) ∧ o.toNat = b2.toNat ∧
        (Instr.lzMatch3s o).byteLength = 2) ∧
    (0x80 < b1.toNat →
      ∃ l h o, decodeLz (b1 :: b2 :: tail) = .ok (.lzMatch l h o) ∧
        matchLen l = b1.toNat / 16 % 8 + 3 ∧ matchOff h o = b1.toNat % 16 * 256 + b2.toNat ∧
        (Instr.lzMatch l h o).byteLength = 2) ∧
    (0x80 ≤ b1.toNat → decodeLz [b1] = .error .truncatedToken)

/-- R118, with R116 and R117: every byte is a control byte, its block has the stated length, and a block is malformed
exactly when it extends past the end. -/
def Obligations.RleBlocksAreClassified : Prop :=
  ∀ (c : Byte) (rest : List Byte),
    (0x80 ≤ c.toNat →
      (rest = [] → decodeRle (c :: rest) = .error .truncatedBlock) ∧
      (∀ v tail, rest = v :: tail →
        ∃ l, decodeRle (c :: rest) = .ok (.rleRun l v) ∧ l.toNat = c.toNat % 128 ∧ (Instr.rleRun l v).byteLength = 2)) ∧
    (c.toNat < 0x80 →
      (rest.length < c.toNat + 1 → decodeRle (c :: rest) = .error .truncatedBlock) ∧
      (c.toNat + 1 ≤ rest.length →
        ∃ l, decodeRle (c :: rest) = .ok (.rleLit l (rest.take (c.toNat + 1))) ∧ l.toNat = c.toNat ∧
          (Instr.rleLit l (rest.take (c.toNat + 1))).byteLength = 2 + c.toNat))

/-! ## A step runs the decoded instruction -/

/-- 47_dispatcher.md R360, 10_state.md R32: a CMD write runs the word it carries; an engine turn runs the instruction
that its decoder reads at its place. -/
def Obligations.StepRunsTheDecodedInstruction : Prop :=
  (∀ (s : State) (w : Word) (rest : List Input), s.inputs = cmdWrite w :: rest → s.resetLine = false →
    step s = exec (decodeCommand w) (s.setInputs rest)) ∧
  (∀ (s : State) (src : Source) (i : Instr), s.running = true → s.source = some src → decode src = .ok i →
    (s.inputs = [] → step s = exec i s) ∧
    (∀ rest, s.inputs = .turn :: rest → step s = exec i (s.setInputs rest)))

/-! ## Starting an operation -/

/-- R360, at the host's write: START while idle, ignored while BUSY, and a write without START only stores. -/
def Obligations.CmdWriteStartsOrStores : Prop :=
  ∀ (s : State) (w : Word) (rest : List Input), s.inputs = cmdWrite w :: rest → s.resetLine = false →
    (s.busy = true → step s = .next (s.setInputs rest)) ∧
    (s.busy = false → w.getLsbD 31 = true →
      step s = .next ((s.setInputs rest).started (cmdModeField w) (w.extractLsb' 0 3))) ∧
    (s.busy = false → w.getLsbD 31 = false →
      step s = .next { s.setInputs rest with cmdAlg := w.extractLsb' 0 3, cmdMode := cmdModeField w })

/-- R361: the effects of START, and what it leaves alone; and the values it gave are the ones the registers read for as
long as the operation runs. -/
def Obligations.StartEffects : Prop :=
  (∀ (s : State) (w : Word), s.busy = false → w.getLsbD 31 = true →
    ∃ t, exec (decodeCommand w) s = .next t ∧
      t.latch.alg = w.extractLsb' 0 3 ∧ t.cmdAlg = w.extractLsb' 0 3 ∧
      (t.latch.mode = .decompress ↔ w.getLsbD 3 = true) ∧ t.cmdMode = t.latch.mode ∧
      t.latch.len = s.inLen ∧ t.status = 0b001#32 ∧
      t.errCode = 0 ∧ t.errPos = 0 ∧ t.errCount = 0 ∧ t.outLen = 0 ∧ t.OutUnspecified ∧
      t.params = s.params ∧ t.inLen = s.inLen ∧ (∀ a, t.readIn a = s.readIn a) ∧
      t.resetLine = s.resetLine ∧ t.inputs = s.inputs ∧ t.busData = s.busData) ∧
  (∀ s t : State, s.busy = true → s.NoResetNext → step s = .next t → t.busy = true →
    t.params = s.params ∧ ∀ r, t.readReg r = s.readReg r)

/-- R112, R361, R34: each command, by its constructor, starts an operation with its own ALG and MODE, and CMD.STORE
stores without starting, whenever the block is not BUSY; while it is BUSY every command word is ignored entirely. -/
def Obligations.EveryCommandCompletes : Prop :=
  ∀ s : State,
    (s.busy = false →
      exec .rleC s = .next (s.started .compress 0) ∧ exec .rleD s = .next (s.started .decompress 0) ∧
      exec .hufC s = .next (s.started .compress 1) ∧ exec .hufD s = .next (s.started .decompress 1) ∧
      exec .lzC s = .next (s.started .compress 2) ∧ exec .lzD s = .next (s.started .decompress 2) ∧
      exec .defC s = .next (s.started .compress 3) ∧ exec .defD s = .next (s.started .decompress 3) ∧
      (∀ mode low, exec (.unsup mode low) s = .next (s.started mode (reservedAlg low)) ∧
        4 ≤ (reservedAlg low).toNat) ∧
      (∀ mode alg, exec (.cmdStore mode alg) s = .next { s with cmdAlg := alg, cmdMode := mode })) ∧
    (s.busy = true → ∀ w : Word, exec (decodeCommand w) s = .next s)

/-! ## Host accesses -/

/-- R84: the accesses the block does not admit, and only they, are bus errors. That they are so while reset is asserted
too is the model's choice (log 8); that the host is then stuck is Fault.busError (log 7). -/
def Obligations.UnadmittedAccessIsABusError : Prop :=
  ∀ (s : State) (a : Access) (rest : List Input), s.inputs = .access a :: rest →
    let bad := (a.space = .reg ∧ (a.width ≠ 32 ∨ a.offset % 4 ≠ 0 ∨ 0xFF < a.offset)) ∨
      (a.space = .inBuf ∧ (a.width ≠ 8 ∨ s.params.inCap ≤ a.offset)) ∨
      (a.space = .outBuf ∧ (a.width ≠ 8 ∨ s.params.outCap ≤ a.offset))
    (bad → step s = .fault .busError) ∧ (¬ bad → step s ≠ .fault .busError)

/-- R33 to R42, R45, R46, R86: a read returns the register that stands at its offset, or the byte, and changes nothing in
the block. The model's choices
in it: a byte is zero-extended (log 27), a read of OUT while BUSY moves the free values on (log 5), and while reset is
asserted IN and OUT are read as when idle (log 21). -/
def Obligations.ReadsReturnTheValueAndChangeNothing : Prop :=
  ∀ (s : State) (sp : Space) (offset width : Nat) (rest : List Input),
    s.inputs = .access ⟨sp, offset, width, .read⟩ :: rest → admits s.params ⟨sp, offset, width, .read⟩ = true →
    ∃ t, step s = .next t ∧
      (sp = .reg → t.busData = s.readReg (regAt offset) ∧
        (offset = 0x00 → t.busData.toNat = (if s.cmdMode = .decompress then 8 else 0) + s.cmdAlg.toNat) ∧
        (offset = 0x04 → t.busData = s.inLen) ∧
        (offset = 0x08 → t.busData = s.status) ∧
        (offset = 0x0C → t.busData.toNat = s.errCode.toNat) ∧
        (offset = 0x10 → t.busData = s.errPos) ∧
        (offset = 0x14 → t.busData = s.errCount) ∧
        (offset = 0x18 → t.busData = s.outLen) ∧
        (offset = 0x1C → t.busData = BitVec.ofNat 32 s.params.inCap) ∧
        (offset = 0x20 → t.busData = BitVec.ofNat 32 s.params.outCap) ∧
        (0x24 ≤ offset → t.busData = 0)) ∧
      (sp = .inBuf → t.busData = (s.readIn offset).setWidth 32) ∧
      (sp = .outBuf → t.busData = (s.readOut offset).setWidth 32) ∧
      t.params = s.params ∧ (∀ r, t.readReg r = s.readReg r) ∧ t.inMem = s.inMem ∧ t.inEpoch = s.inEpoch ∧
      t.outMem = s.outMem ∧ (s.busy = false → t.outEpoch = s.outEpoch) ∧ t.latch = s.latch ∧ t.work = s.work ∧
      t.resetLine = s.resetLine ∧ t.inputs = rest

/-- R42: reserved register offsets read 0 and ignore writes; and (R36 to R41) so do the read-only registers ignore
writes. -/
def Obligations.ReservedAndReadOnlyRegisters : Prop :=
  ∀ (s : State) (offset : Nat) (v : Word) (rest : List Input), offset % 4 = 0 →
    (0x24 ≤ offset → offset ≤ 0xFC →
      (s.inputs = .access ⟨.reg, offset, 32, .read⟩ :: rest → ∃ t, step s = .next t ∧ t.busData = 0)) ∧
    (0x08 ≤ offset → offset ≤ 0xFC →
      (s.inputs = .access ⟨.reg, offset, 32, .write v⟩ :: rest → step s = .next (s.setInputs rest)))

/-- R35, R45, R46, R460: the host's writes other than CMD. IN_LEN stores any value, and ignores the write while BUSY; a
byte of IN is read back and no other byte changes, and while BUSY the write is a fault; a write to OUT is ignored. -/
def Obligations.HostWritesStore : Prop :=
  ∀ (s : State) (offset : Nat) (v : Word) (rest : List Input), s.resetLine = false →
    (s.inputs = .access ⟨.reg, 0x04, 32, .write v⟩ :: rest →
      (s.busy = false → step s = .next { s.setInputs rest with inLen := v }) ∧
      (s.busy = true → step s = .next (s.setInputs rest))) ∧
    (s.inputs = .access ⟨.inBuf, offset, 8, .write v⟩ :: rest → offset < s.params.inCap →
      (s.busy = true → step s = .fault .inWriteWhileBusy) ∧
      (s.busy = false → ∃ t, step s = .next t ∧ t.readIn offset = v.setWidth 8 ∧
        (∀ a, a ≠ offset → t.readIn a = s.readIn a) ∧ (∀ a, t.readOut a = s.readOut a) ∧
        (∀ r, t.readReg r = s.readReg r) ∧ t.params = s.params ∧ t.latch = s.latch ∧ t.work = s.work ∧
        t.resetLine = s.resetLine ∧ t.inputs = rest ∧ t.busData = s.busData)) ∧
    (s.inputs = .access ⟨.outBuf, offset, 8, .write v⟩ :: rest → offset < s.params.outCap →
      step s = .next (s.setInputs rest))

/-- R87: with windows that do not overlap, an access by physical address is the access to the space at that offset. -/
def Obligations.PhysicalAddressReachesItsSpace : Prop :=
  ∀ (s : State) (sp : Space) (offset width : Nat) (op : Transfer) (rest : List Input),
    windowsDisjoint s.params → offset < spaceSize s.params sp →
    step (s.setInputs (.bus (spaceBase s.params sp + offset) width op :: rest)) =
      step (s.setInputs (.access ⟨sp, offset, width, op⟩ :: rest))

/-- R56, R90 item 2, R93: while BUSY, no step but reset changes the latch or the input of the operation. R460 item 1
carries a host write to IN out; the model makes that write a fault, as R460 asks (log 9), so it is no step here. -/
def Obligations.RunningOperationInputIsFixed : Prop :=
  ∀ s t : State, s.busy = true → s.NoResetNext → step s = .next t →
    t.latch = s.latch ∧ t.input = s.input ∧ (∀ a, t.readIn a = s.readIn a)

/-- R90, R368: polling does not disturb an operation: with any host reads among the turns, the engine is where the
turns alone bring it, and the results are the same. -/
def Obligations.ReadsDoNotDisturbTheEngine : Prop :=
  ∀ (s t : State) (xs : List Input), s.inputs = xs → (∀ x ∈ xs, x.isReadOrTurn = true) →
    steps xs.length s = .next t →
    ∃ u, steps (xs.count .turn) (s.setInputs []) = .next u ∧ t.work = u.work ∧ t.latch = u.latch ∧ SameResult t u

/-- R372: the result registers and OUT keep their values until the next START or reset. That an unspecified byte of OUT,
too, reads the same while the block is idle is the model's choice (log 5). -/
def Obligations.ResultsAreKeptUntilStartOrReset : Prop :=
  ∀ s t : State, s.busy = false → s.NoResetNext → step s = .next t → t.busy = false →
    t.status = s.status ∧ t.outLen = s.outLen ∧ t.errCode = s.errCode ∧ t.errPos = s.errPos ∧
    t.errCount = s.errCount ∧ ∀ a, t.readOut a = s.readOut a

/-- R8, R41: the parameters, and so IN_CAP_R and OUT_CAP_R, are changed by no step, reset included. -/
def Obligations.ParametersNeverChange : Prop :=
  ∀ s t : State, step s = .next t →
    t.params = s.params ∧ t.readReg .inCapR = s.readReg .inCapR ∧ t.readReg .outCapR = s.readReg .outCapR

/-! ## Reset -/

/-- R60, R33, R452: the registers after reset, for every choice of the parameters, with every byte of IN and OUT
unspecified; and a power-up at any time leaves the same. -/
def Obligations.RegistersAfterResetAndPowerUp : Prop :=
  (∀ p : Params,
    (∀ r, (State.afterReset p).readReg r = resetValue p r) ∧ (State.afterReset p).Idle ∧
    (∀ a, Table.find a (State.afterReset p).inMem = none) ∧ (State.afterReset p).OutUnspecified) ∧
  (∀ (s : State) (rest : List Input), s.inputs = .powerUp :: rest →
    ∃ t, step s = .next t ∧ (∀ r, t.readReg r = resetValue s.params r) ∧ t.running = false ∧ t.OutUnspecified ∧
      ∀ a, Table.find a t.inMem = none ∧ t.readIn a = Config.inFree (s.inEpoch + 1) a)

/-- R451: reset during an operation abandons it. -/
def Obligations.ResetAbandonsTheOperation : Prop :=
  ∀ (s : State) (rest : List Input), s.busy = true → s.inputs = .resetAssert :: rest →
    ∃ t, step s = .next t ∧ t.status = 0 ∧ t.errCode = 0 ∧ t.errPos = 0 ∧ t.errCount = 0 ∧ t.outLen = 0 ∧
      t.OutUnspecified ∧ (∀ a, t.readIn a = s.readIn a) ∧ t.params = s.params ∧ t.running = false

/-- R450: asserting reset sets every register; while it is asserted, host writes are ignored, reads return the reset
values and the engine is idle; releasing it leaves the block idle with STATUS = 0. -/
def Obligations.ResetHoldsWhileAsserted : Prop :=
  ∀ (s : State) (xs : List Input), (∀ x ∈ xs, admittedInput s.params x = true) →
    s.inputs = .resetAssert :: (xs ++ [.resetRelease]) →
    (∀ k ≤ xs.length, ∃ u, steps (k + 1) s = .next u ∧ u.resetLine = true ∧ u.running = false ∧
      (∀ r, u.readReg r = resetValue s.params r) ∧ ∀ a, u.readIn a = s.readIn a) ∧
    (∃ t, steps (xs.length + 2) s = .next t ∧ t.Idle ∧ t.status = 0 ∧
      (∀ r, t.readReg r = resetValue s.params r) ∧ ∀ a, t.readIn a = s.readIn a)

/-! ## Invariants -/

/-- R36 to R40, R45, R46, R400, R450: every step keeps the invariant of the host-visible state. -/
def Obligations.StepKeepsTheInvariant : Prop :=
  ∀ s t : State, s.Inv → step s = .next t → t.Inv

/-- The invariant and the storage bounds hold right after reset, for all legal parameters. -/
def Obligations.ResetMeetsTheInvariant : Prop :=
  State.reset.Inv ∧ State.reset.work.Bounded ∧
    ∀ p : Params, p.Legal → (State.afterReset p).Inv ∧ (State.afterReset p).work.Bounded

/-- R51, R52, R54, R55, R15: every step keeps the engine's storage inside the sizes the spec gives it: at most 511 nodes,
256 active nodes, node frequencies below 2^40, the bit counters below 8, the dictionary's keys rising. -/
def Obligations.StepKeepsStorageBounds : Prop :=
  ∀ s t : State, s.work.Bounded → step s = .next t → t.work.Bounded

/-! ## Dispatch and errors -/

/-- R362, R406, R410 items 1 and 2, R363: the engine's first step after START. The refusal of an operation that an
attached DEFLATE unit would carry out, at this step, is the model's (log 10), and so are the initial values of the
working state (log 6). -/
def Obligations.DispatchChecksInOrder : Prop :=
  ∀ s : State, s.running = true → s.inputs = [] → s.work.phase = .dispatch →
    (4 ≤ s.latch.alg.toNat ∨ (s.latch.alg = 3 ∧ s.params.deflateAttached = false) →
      ∃ t, step s = .next t ∧ EndedWithError t .unsupportedAlgorithm 0 0 ∧ OnlyResultChanged s t) ∧
    (s.latch.alg = 3 → s.params.deflateAttached = true → step s = .refused .externalDeflate) ∧
    (s.latch.alg.toNat < 3 → s.params.inCap < s.latch.len.toNat →
      ∃ t, step s = .next t ∧ EndedWithError t .inputLengthInvalid 0 s.latch.len.toNat ∧ OnlyResultChanged s t) ∧
    (s.latch.alg.toNat < 3 → s.latch.len.toNat ≤ s.params.inCap →
      ∃ t, step s = .next t ∧ t.work = Work.init (codecPhase s.latch.alg s.latch.mode) ∧ OnlyWorkChanged s t)

/-- R380, R381, R406: the operations that end before a codec runs. UNSUP ends with UnsupportedAlgorithm whatever IN and
IN_LEN hold; so do DEF.C and DEF.D without a DEFLATE unit, and with one the operation starts and the engine's first step is
refused, which is the model's choice (log 10); an IN_LEN above IN_CAP ends every codec command with InputLengthInvalid. -/
def Obligations.OperationsThatEndBeforeTheCodec : Prop :=
  ∀ s : State, s.Idle → s.inputs = [] →
    (∀ mode low, OperationGives (.unsup mode low) s (.err .unsupportedAlgorithm 0 0)) ∧
    (∀ i ∈ [Instr.defC, Instr.defD],
      (s.params.deflateAttached = false → OperationGives i s (.err .unsupportedAlgorithm 0 0)) ∧
      (s.params.deflateAttached = true → ∃ u, exec i s = .next u ∧ step u = .refused .externalDeflate)) ∧
    (∀ i ∈ [Instr.rleC, Instr.rleD, Instr.hufC, Instr.hufD, Instr.lzC, Instr.lzD],
      s.params.inCap < s.inLen.toNat → OperationGives i s (.err .inputLengthInvalid 0 s.inLen.toNat))

/-- R402, R404, R366, R370: an engine's step ends the operation with an error exactly when one is due, and then the
registers describe that one, with its own position and count, OUT_LEN is 0, no byte of OUT is defined, and nothing else
changes; a result that is due and fits ends it with success. What is due is written out from the rules in `ErrorDue` and
`State.resultDue`; the two conditions of R245 rest on log 17. -/
def Obligations.ErrorsArePrecise : Prop :=
  ∀ s : State, s.running = true → s.inputs = [] →
    (∀ t, step s = .next t → t.status = 0b100#32 →
      ∃ kind pos count, ErrorDue s kind pos count ∧ EndedWithError t kind pos count ∧ OnlyResultChanged s t) ∧
    (∀ kind pos count, ErrorDue s kind pos count →
      ∃ t, step s = .next t ∧ EndedWithError t kind pos count ∧ OnlyResultChanged s t) ∧
    (∀ out, s.resultDue = some out → out.length ≤ s.params.outCap → s.params.outCap ≤ 2 ^ 32 - 1 →
      ∃ t, step s = .next t ∧ EndedWithSuccess t out ∧ OnlyResultChanged s t)

/-! ## Tokens -/

/-- R181, R183, R331, R332: the meanings of the tokens that output bytes of their own, RLE.RUN, RLE.LIT, LZ.LIT and
LZ.ESC, and their frame: only the output and the cursor change. -/
def Obligations.BlockAndLiteralMeanings : Prop :=
  ∀ s : State,
    (∀ (len : BitVec 7) (value : Byte), ∃ t, exec (.rleRun len value) s = .next t ∧ OnlyWorkChanged s t ∧
      t.work = { s.work with
        out := s.work.out ++ List.replicate (len.toNat + 1) value, cursor := s.work.cursor + 2 }) ∧
    (∀ (len : BitVec 7) (raw : List Byte), ∃ t, exec (.rleLit len raw) s = .next t ∧ OnlyWorkChanged s t ∧
      t.work = { s.work with out := s.work.out ++ raw, cursor := s.work.cursor + (len.toNat + 2) }) ∧
    (∀ v : BitVec 7, ∃ t b, exec (.lzLit v) s = .next t ∧ OnlyWorkChanged s t ∧ b.toNat = v.toNat ∧
      t.work = { s.work with out := s.work.out ++ [b], cursor := s.work.cursor + 1 }) ∧
    (∀ v : BitVec 7, ∃ t b, exec (.lzEsc v) s = .next t ∧ OnlyWorkChanged s t ∧ b.toNat = 0x80 + v.toNat ∧
      t.work = { s.work with out := s.work.out ++ [b], cursor := s.work.cursor + 2 })

/-- R181, R182, R183 at the engine's turn: the block that begins with control byte `c` at the cursor. -/
def Obligations.RleDecoderTurn : Prop :=
  ∀ (s : State) (c : Byte) (rest : List Byte), s.running = true → s.inputs = [] → s.work.phase = .rleD →
    s.input.drop s.work.cursor = c :: rest →
    (∀ v tail, c.msb = true → rest = v :: tail → ∃ t, step s = .next t ∧ OnlyWorkChanged s t ∧
      t.work = { s.work with
        out := s.work.out ++ List.replicate (c.toNat % 128 + 1) v, cursor := s.work.cursor + 2 }) ∧
    (c.msb = false → c.toNat + 1 ≤ rest.length → ∃ t, step s = .next t ∧ OnlyWorkChanged s t ∧
      t.work = { s.work with
        out := s.work.out ++ rest.take (c.toNat + 1), cursor := s.work.cursor + 1 + (c.toNat + 1) }) ∧
    ((c.msb = true ∧ rest = []) ∨ (c.msb = false ∧ rest.length < c.toNat + 1) →
      ∃ t, step s = .next t ∧ EndedWithError t .malformedPayload s.work.cursor s.work.out.length ∧
        OnlyResultChanged s t)

/-- R333, R334, R336: the meanings of the two match tokens: the check of the back-reference, the copy byte by byte
(each copied byte is the one `off` places before it), and the frame. -/
def Obligations.LzMatchMeanings : Prop :=
  ∀ (s : State) (i : Instr) (len off : Nat),
    ((∃ o, i = .lzMatch3s o ∧ len = 3 ∧ off = o.toNat) ∨
      (∃ l h o, i = .lzMatch l h o ∧ len = l.toNat + 3 ∧ off = h.toNat * 256 + o.toNat)) →
    (1 ≤ off → off ≤ s.work.out.length →
      ∃ t, exec i s = .next t ∧ OnlyWorkChanged s t ∧
        t.work = { s.work with out := t.work.out, cursor := s.work.cursor + 2 } ∧
        t.work.out.length = s.work.out.length + len ∧ t.work.out.take s.work.out.length = s.work.out ∧
        ∀ j < len, t.work.out[s.work.out.length + j]? = t.work.out[s.work.out.length + j - off]?) ∧
    (off = 0 ∨ s.work.out.length < off →
      ∃ t, exec i s = .next t ∧ EndedWithError t .invalidBackReference s.work.cursor s.work.out.length ∧
        OnlyResultChanged s t)

/-- R331 to R336 at the engine's turn: the token that begins with `b1` at the cursor. -/
def Obligations.LzDecoderTurn : Prop :=
  ∀ (s : State) (b1 : Byte) (rest : List Byte), s.running = true → s.inputs = [] → s.work.phase = .lzD →
    s.input.drop s.work.cursor = b1 :: rest →
    (b1.toNat < 0x80 → ∃ t, step s = .next t ∧ OnlyWorkChanged s t ∧
      t.work = { s.work with out := s.work.out ++ [b1], cursor := s.work.cursor + 1 }) ∧
    (0x80 ≤ b1.toNat → rest = [] → ∃ t, step s = .next t ∧
      EndedWithError t .malformedPayload s.work.cursor s.work.out.length ∧ OnlyResultChanged s t) ∧
    (∀ b2 tail, rest = b2 :: tail →
      (b1.toNat = 0x80 → 0x80 ≤ b2.toNat → ∃ t, step s = .next t ∧ OnlyWorkChanged s t ∧
        t.work = { s.work with out := s.work.out ++ [b2], cursor := s.work.cursor + 2 }) ∧
      (0x80 ≤ b1.toNat → ¬ (b1.toNat = 0x80 ∧ 0x80 ≤ b2.toNat) →
        let len := b1.toNat / 16 % 8 + 3
        let off := b1.toNat % 16 * 256 + b2.toNat
        (off = 0 ∨ s.work.out.length < off → ∃ t, step s = .next t ∧
          EndedWithError t .invalidBackReference s.work.cursor s.work.out.length ∧ OnlyResultChanged s t) ∧
        (1 ≤ off → off ≤ s.work.out.length → ∃ t, step s = .next t ∧ OnlyWorkChanged s t ∧
          t.work.cursor = s.work.cursor + 2 ∧ t.work.out = copyBack off len s.work.out)))

/-- R242, R243, R244: HUF.HDR.COUNT, for a container of `n` bytes, in the order of R240; and R241, the engine's turn
when the container is too short to hold it. -/
def Obligations.HuffmanCountMeaning : Prop :=
  (∀ (s : State) (count : BitVec 16),
    let n := s.latch.len.toNat
    let k := count.toNat
    2 ≤ n →
    (k = 0 → n = 2 → ∃ t, exec (.hufHdrCount count) s = .next t ∧ EndedWithSuccess t [] ∧ OnlyResultChanged s t) ∧
    (k = 0 → 2 < n → ∃ t, exec (.hufHdrCount count) s = .next t ∧ EndedWithError t .malformedHeader 2 0 ∧
      OnlyResultChanged s t) ∧
    (256 < k → ∃ t, exec (.hufHdrCount count) s = .next t ∧ EndedWithError t .malformedHeader 0 0 ∧
      OnlyResultChanged s t) ∧
    (1 ≤ k → k ≤ 256 → n < 2 + 5 * k → ∃ t, exec (.hufHdrCount count) s = .next t ∧
      EndedWithError t .malformedHeader (2 + 5 * ((n - 2) / 5)) 0 ∧ OnlyResultChanged s t) ∧
    (1 ≤ k → k ≤ 256 → 2 + 5 * k ≤ n → ∃ t, exec (.hufHdrCount count) s = .next t ∧ OnlyWorkChanged s t ∧
      t.work = { s.work with
        count := k, entry := 0, cursor := 2, freq := t.work.freq, phase := .hufEntries } ∧
      ∀ v, t.work.freq.at v = 0)) ∧
  (∀ s : State, s.running = true → s.inputs = [] → s.work.phase = .hufHeader → s.latch.len.toNat < 2 →
    ∃ t, step s = .next t ∧ EndedWithError t .malformedHeader 0 0 ∧ OnlyResultChanged s t)

/-- R245, R246: HUF.HDR.ENTRY, entry number `j`. -/
def Obligations.HuffmanEntryMeaning : Prop :=
  ∀ (s : State) (value : Byte) (freq : Word),
    (freq = 0 ∨ s.work.freq.at value ≠ 0 → ∃ t, exec (.hufHdrEntry value freq) s = .next t ∧
      EndedWithError t .malformedHeader (2 + 5 * s.work.entry) 0 ∧ OnlyResultChanged s t) ∧
    (freq ≠ 0 → s.work.freq.at value = 0 → ∃ t, exec (.hufHdrEntry value freq) s = .next t ∧ OnlyWorkChanged s t ∧
      t.work = { s.work with
        freq := t.work.freq, entry := s.work.entry + 1, cursor := s.work.cursor + 5 } ∧
      t.work.freq.at value = freq ∧ ∀ v, v ≠ value → t.work.freq.at v = s.work.freq.at v)

/-- R251, R252: HUF.CODE. A path to a leaf outputs the leaf's byte and reads as many bits as it has; when the bits run
out before a leaf, the engine's turn ends the operation with MalformedPayload at `n`. -/
def Obligations.HuffmanCodeMeaning : Prop :=
  (∀ (s : State) (path : List Bool) (v : Byte),
    followPath s.work.nodes 0 (rootOf s.work.active) path = .leaf v →
    path.length ≤ (s.work.reader.remaining s.payload).length → s.work.reader.rbit < 8 →
    ∃ t, exec (.hufCode path) s = .next t ∧ OnlyWorkChanged s t ∧
      t.work = { s.work with out := s.work.out ++ [v], reader := t.work.reader } ∧
      8 * t.work.reader.rbyte + t.work.reader.rbit =
        8 * s.work.reader.rbyte + s.work.reader.rbit + path.length) ∧
  (∀ s : State, s.running = true → s.inputs = [] → s.work.phase = .hufPayload →
    s.work.out.length < s.work.total →
    decodeHufCode s.work.nodes (rootOf s.work.active) (s.work.reader.remaining s.payload) = .error .endOfStream →
    ∃ t, step s = .next t ∧ EndedWithError t .malformedPayload s.latch.len.toNat s.work.out.length ∧
      OnlyResultChanged s t)

/-! ## Whole operations -/

/-- R170, R362, R366, R370, R371: RLE.C from START to completion. -/
def Obligations.RleCompressOperation : Prop :=
  ∀ s : State, s.Idle → s.inputs = [] → s.params.Legal → s.inLen.toNat ≤ s.params.inCap →
    OperationEnds .rleC s (.ok (rleCompress s.nextInput))

/-- R180, R362, R366, R370, R371: RLE.D from START to completion. -/
def Obligations.RleDecompressOperation : Prop :=
  ∀ s : State, s.Idle → s.inputs = [] → s.params.Legal → s.inLen.toNat ≤ s.params.inCap →
    OperationEnds .rleD s (rleDecompress s.nextInput)

/-- R200, R362, R366, R370, R371: HUF.C from START to completion. -/
def Obligations.HuffmanCompressOperation : Prop :=
  ∀ s : State, s.Idle → s.inputs = [] → s.params.Legal → s.inLen.toNat ≤ s.params.inCap →
    OperationEnds .hufC s (.ok (hufCompress s.nextInput))

/-- R240, R362, R366, R370, R371: HUF.D from START to completion. -/
def Obligations.HuffmanDecompressOperation : Prop :=
  ∀ s : State, s.Idle → s.inputs = [] → s.params.Legal → s.inLen.toNat ≤ s.params.inCap →
    OperationEnds .hufD s (hufDecompress s.nextInput)

/-- R310, R362, R366, R370, R371: LZ.C from START to completion. -/
def Obligations.LzCompressOperation : Prop :=
  ∀ s : State, s.Idle → s.inputs = [] → s.params.Legal → s.inLen.toNat ≤ s.params.inCap →
    OperationEnds .lzC s (.ok (lzCompress s.nextInput))

/-- R330, R362, R366, R370, R371: LZ.D from START to completion. -/
def Obligations.LzDecompressOperation : Prop :=
  ∀ s : State, s.Idle → s.inputs = [] → s.params.Legal → s.inLen.toNat ≤ s.params.inCap →
    OperationEnds .lzD s (lzDecompress s.nextInput)

/-- R365: every operation that is not forwarded to DEFLATE ends, after a number of engine turns bounded by a function of
L. The function is the model's (log 3). -/
def Obligations.EveryOperationEnds : Prop :=
  ∀ s : State, s.running = true → s.inputs = [] → s.work.phase = .dispatch →
    (s.latch.alg = 3 → s.params.deflateAttached = false) →
    ∃ k t, k ≤ 8 * s.latch.len.toNat + 600 ∧ steps k s = .next t ∧ t.busy = false ∧ (t.done = true ∨ t.error = true)

/-- R364, R57: two blocks with the same parameters, IN_LEN and input bytes, and anything else different, show the same
results after every number of turns of the same operation, turns counted in the model's own size (log 3); one that is
forwarded to DEFLATE is refused in both (log 10). -/
def Obligations.ResultDependsOnInputAlone : Prop :=
  ∀ (s₁ s₂ : State) (mode : Mode) (alg : BitVec 3), s₁.Undisturbed → s₂.Undisturbed →
    s₁.params = s₂.params → s₁.inLen = s₂.inLen → s₁.nextInput = s₂.nextInput →
    ((alg = 3 → s₁.params.deflateAttached = false) →
      ∀ k, ∃ t₁ t₂, steps k (s₁.started mode alg) = .next t₁ ∧ steps k (s₂.started mode alg) = .next t₂ ∧
        SameResult t₁ t₂) ∧
    (alg = 3 → s₁.params.deflateAttached = true →
      step (s₁.started mode alg) = .refused .externalDeflate ∧ step (s₂.started mode alg) = .refused .externalDeflate)

/-! ## The codecs -/

/-- R170, R180: decompressing what `rle_compress` wrote gives the input back. -/
def Obligations.RleRoundTrip : Prop := ∀ d : List Byte, rleDecompress (rleCompress d) = .ok d

/-- R255: the Huffman round trip. -/
def Obligations.HuffmanRoundTrip : Prop :=
  ∀ d : List Byte, d.length ≤ 2 ^ 32 - 1 → hufDecompress (hufCompress d) = .ok d

/-- R317: the LZ77 round trip. -/
def Obligations.LzRoundTrip : Prop := ∀ d : List Byte, lzDecompress (lzCompress d) = .ok d

/-- R177 as the spec writes it. It is false: 01 02 02 03 has four bytes and encodes to the six bytes of vector RC5. The
bound counts one literal block per 128 bytes, but a short literal block may stand between runs (log 28). -/
def Obligations.RleOutputBoundAsWritten : Prop :=
  ∀ d : List Byte, (rleCompress d).length ≤ d.length + (d.length + 127) / 128

/-- R170 to R174: the bound that holds, one extra byte for each three bytes begun, and the length of R177 for inputs with
no two equal adjacent bytes. -/
def Obligations.RleOutputBound : Prop :=
  ∀ d : List Byte, (rleCompress d).length ≤ d.length + (d.length + 2) / 3 ∧
    ((∀ j, j + 1 < d.length → d[j]? ≠ d[j + 1]?) → (rleCompress d).length = d.length + (d.length + 127) / 128)

/-- R316: the output bound of LZ77 compression, and inputs that reach it. -/
def Obligations.LzOutputBound : Prop :=
  ∀ d : List Byte, (lzCompress d).length ≤ 2 * d.length ∧
    ((∀ b ∈ d, 0x80 ≤ b.toNat) →
      (∀ i j, i < j → j + 3 ≤ d.length → (d.drop i).take 3 ≠ (d.drop j).take 3) →
      (lzCompress d).length = 2 * d.length)

/-- R171 to R174, R176: a block of the RLE encoder covers 1 to 128 bytes. It is a run block exactly when the first two
bytes are equal, over the run and no less of it than 128 bytes; otherwise it is a literal block, over bytes none of which
begins a repeat, that ends after 128 bytes, at the end of the input, or before a repeat. -/
def Obligations.RleEncoderBlocks : Prop :=
  ∀ l : List Byte, l ≠ [] →
    let block := rleBlock l
    let n := block.2
    1 ≤ n ∧ n ≤ 128 ∧ n ≤ l.length ∧
    ∀ rest, ∃ i, decodeRle (block.1 ++ rest) = .ok i ∧ i.byteLength = block.1.length ∧
      (l[0]? = l[1]? → 2 ≤ n ∧ ∃ len v, i = .rleRun len v ∧ len.toNat + 1 = n ∧ l.take n = List.replicate n v ∧
        (n = 128 ∨ l[n]? ≠ some v)) ∧
      (l[0]? ≠ l[1]? → (∃ len, i = .rleLit len (l.take n)) ∧ (∀ j < n, l[j]? ≠ l[j + 1]?) ∧
        (n = 128 ∨ n = l.length ∨ ∃ v, l[n]? = some v ∧ l[n + 1]? = some v))

/-- R311, R312, R313: a token of the LZ77 encoder decodes to the match that the match finder gave exactly when that
has length 3 or more and is not of length 3 at an offset of 128 to 255, and otherwise to the literal at the position.
R282, R283, R284, R314: afterwards a bucket holds exactly what it held, less the positions that the lookup pruned, and the
consumed positions of its key; and buckets in rising order stay so. -/
def Obligations.LzEncoderTokens : Prop :=
  ∀ (d : List Byte) (dict : Dict) (i : Nat) (v : Byte), DictOf d i dict → d[i]? = some v →
    let m := findMatch d dict i
    let tok := lzToken d dict i v
    DictOf d (i + tok.2.1) tok.2.2 ∧
    (∀ key p, p ∈ tok.2.2.bucket key ↔
      (p ∈ dict.bucket key ∧ (i + 3 ≤ d.length → i ≤ p + 4096)) ∨
        (i ≤ p ∧ p < i + tok.2.1 ∧ lzKey d p = some key)) ∧
    ((∀ key, (dict.bucket key).Pairwise (· < ·)) → ∀ key, (tok.2.2.bucket key).Pairwise (· < ·)) ∧
    ∀ rest, ∃ j, decodeLz (tok.1 ++ rest) = .ok j ∧ j.byteLength = tok.1.length ∧
      (3 ≤ m.1 ∧ ¬ (m.1 = 3 ∧ 128 ≤ m.2 ∧ m.2 ≤ 255) →
        tok.2.1 = m.1 ∧
        ((∃ o, j = .lzMatch3s o ∧ m.1 = 3 ∧ o.toNat = m.2) ∨
          (∃ l h o, j = .lzMatch l h o ∧ matchLen l = m.1 ∧ matchOff h o = m.2))) ∧
      (¬ (3 ≤ m.1 ∧ ¬ (m.1 = 3 ∧ 128 ≤ m.2 ∧ m.2 ≤ 255)) →
        tok.2.1 = 1 ∧
        (v.toNat < 0x80 → ∃ x, j = .lzLit x ∧ literalByte x = v) ∧
        (0x80 ≤ v.toNat → ∃ x, j = .lzEsc x ∧ escapedByte x = v))

/-- R281: the key of a position is its three bytes. R287: a match extends over equal bytes, up to 10 and the end of the
input. R286, R288: with fewer than three bytes left the result is (0, 0); otherwise the match found is one of the candidates
in range, of these the longest, and of the longest the nearest, and with no candidate in range it is (0, 0). -/
def Obligations.MatchFinderTakesTheBest : Prop :=
  ∀ (d : List Byte) (dict : Dict) (i : Nat),
    (d.length < i + 3 → findMatch d dict i = (0, 0) ∧ lzKey d i = none) ∧
    (∀ a b c, d[i]? = some a → d[i + 1]? = some b → d[i + 2]? = some c →
      lzKey d i = some (a.toNat * 65536 + b.toNat * 256 + c.toNat)) ∧
    (∀ p < i,
      let len := matchLength 10 (d.drop p) (d.drop i)
      len ≤ 10 ∧ (∀ k < len, i + k < d.length ∧ d[p + k]? = d[i + k]?) ∧
        (len = 10 ∨ d.length ≤ i + len ∨ d[p + len]? ≠ d[i + len]?)) ∧
    (∀ key, Table.risingFrom 0 dict = true → (dict.bucket key).Pairwise (· < ·) → lzKey d i = some key →
      (∀ p ∈ dict.bucket key, p < i → i - p ≤ 4095 →
        let len := matchLength 10 (d.drop p) (d.drop i)
        len ≤ (findMatch d dict i).1 ∧ (len = (findMatch d dict i).1 → (findMatch d dict i).2 ≤ i - p)) ∧
      (findMatch d dict i = (0, 0) ∨
        ∃ p ∈ dict.bucket key, p < i ∧ i - p ≤ 4095 ∧
          findMatch d dict i = (matchLength 10 (d.drop p) (d.drop i), i - p)))

/-- R283: a lookup at `i` removes the positions more than WINDOW back from every bucket; that has no effect on the match,
which is the one that a scan of the bucket with nothing pruned finds; and neither has pruning at an earlier position. -/
def Obligations.PruningChangesNoMatch : Prop :=
  ∀ (d : List Byte) (dict : Dict) (i j : Nat), Table.risingFrom 0 dict = true → j ≤ i →
    (3 ≤ d.length - i → ∀ key p,
      p ∈ (lookupDict d dict i).bucket key ↔ p ∈ dict.bucket key ∧ ¬ (p + 4096 < i)) ∧
    (∀ key, lzKey d i = some key → findMatch d dict i = scanBucket d i (dict.bucket key).reverse (0, 0)) ∧
    findMatch d (dict.prune j) i = findMatch d dict i

/-- R204: the order of nodes, item by item, and that it is strict and total over the nodes of a tree. -/
def Obligations.NodeOrderIsStrictAndTotal : Prop :=
  (∀ x y : Node, x.before y = true ↔
    x.freq < y.freq ∨
    (x.freq = y.freq ∧ (∃ a, x.kind = .leaf a) ∧ (∃ l r, y.kind = .internal l r)) ∨
    (x.freq = y.freq ∧ ∃ a b, x.kind = .leaf a ∧ y.kind = .leaf b ∧ a.toNat < b.toNat) ∨
    (x.freq = y.freq ∧ (∃ l r, x.kind = .internal l r) ∧ (∃ l r, y.kind = .internal l r) ∧ x.seq < y.seq)) ∧
  (∀ x y z : Node, x.before y = true → y.before z = true → x.before z = true) ∧
  (∀ (t : FreqTable) (x y : Node), x ∈ (buildTree t).1 → y ∈ (buildTree t).1 → x ≠ y →
    (x.before y = true ∧ y.before x = false) ∨ (x.before y = false ∧ y.before x = true))

/-- R206, with the root of R205 and the code words of R209: the invariants of every tree. R203, R204, R205: the leaves
stand first, in rising order, and the children of the internal nodes, in the order of creation and left before right,
rise too: the two least nodes are merged, and the least is the left child. -/
def Obligations.TreeInvariants : Prop :=
  ∀ t : FreqTable, 2 ≤ t.symbols.length →
    let k := t.symbols.length
    let nodes := (buildTree t).1
    let root := (buildTree t).2
    nodes.length = 2 * k - 1 ∧ root = 2 * k - 2 ∧
    (∀ (x : Nat) (n : Node), nodes[x]? = some n → n.seq = x) ∧
    (∀ x < k, ∃ v ∈ t.symbols, leafSym nodes x = some v) ∧ NodesRise nodes (List.range k) ∧
    (mergeOrder nodes k).length = 2 * (k - 1) ∧ NodesRise nodes (mergeOrder nodes k) ∧
    (∀ x y v, leafSym nodes x = some v → leafSym nodes y = some v → x = y) ∧
    (∀ x, x < nodes.length →
      (∃ v, leafSym nodes x = some v ∧ nodeFreq nodes x = (t.at v).toNat) ∨
      (∃ l r, child nodes x false = some l ∧ child nodes x true = some r ∧ l < x ∧ r < x ∧
        nodeFreq nodes x = nodeFreq nodes l + nodeFreq nodes r)) ∧
    (∀ y, y < nodes.length → y ≠ root →
      ∃ x b, child nodes x b = some y ∧ ∀ x' b', child nodes x' b' = some y → x' = x ∧ b' = b) ∧
    (∀ x, nodeFreq nodes x < 2 ^ 40) ∧
    (∀ v ∈ t.symbols, 1 ≤ ((codeTable nodes root).at v).length ∧ ((codeTable nodes root).at v).length ≤ k - 1 ∧
      k - 1 ≤ 255 ∧ followPath nodes 0 root ((codeTable nodes root).at v) = .leaf v)

/-- R246, R208: the entries of a Huffman header may come in any order. -/
def Obligations.HeaderOrderDoesNotMatter : Prop :=
  ∀ (es es' : List (Byte × Word)) (payload : List Byte), es.Perm es' → (es.map Prod.fst).Nodup →
    (∀ e ∈ es, e.2 ≠ 0) → hufDecompress (hufContainer es payload) = hufDecompress (hufContainer es' payload)

/-- R202, R210, R211, R212: the output of Huffman compression. The frequencies are the numbers of occurrences; the header
is the number of distinct bytes and each of them, ascending, with its frequency, big-endian; the payload is the code words
of the input bytes in order; and the length. -/
def Obligations.HuffmanOutputLength : Prop :=
  ∀ d : List Byte, d.length ≤ 2 ^ 32 - 1 →
    let t := freqTable d
    let k := t.symbols.length
    let codes := codeTable (buildTree t).1 (buildTree t).2
    let bits := (t.symbols.map (fun v => (t.at v).toNat * (codes.at v).length)).sum
    (∀ v, (t.at v).toNat = d.count v) ∧
    t.symbols.Pairwise (fun a b => a.toNat < b.toNat) ∧ (∀ v, v ∈ t.symbols ↔ v ∈ d) ∧
    (hufCompress d).take (2 + 5 * k) = [BitVec.ofNat 8 (k / 256), BitVec.ofNat 8 k] ++
      t.symbols.flatMap (fun v =>
        let f := d.count v
        [v, BitVec.ofNat 8 (f / 2 ^ 24), BitVec.ofNat 8 (f / 2 ^ 16), BitVec.ofNat 8 (f / 2 ^ 8), BitVec.ofNat 8 f]) ∧
    (2 ≤ k → (hufCompress d).drop (2 + 5 * k) = (Writer.empty.writeBits (d.flatMap codes.at)).finish) ∧
    (k ≤ 1 → (hufCompress d).length = 2 + 5 * k) ∧
    (2 ≤ k → (hufCompress d).length = 2 + 5 * k + (bits + 7) / 8 ∧ 2 ≤ bits)

/-- R207, R248: one distinct byte: the container is the header alone, and it decodes to the copies. -/
def Obligations.SingleByteContainer : Prop :=
  ∀ (v : Byte) (n : Nat), 1 ≤ n → n ≤ 2 ^ 32 - 1 →
    hufCompress (List.replicate n v) = [0x00, 0x01, v] ++ put32 (BitVec.ofNat 32 n) ∧
    hufDecompress ([0x00, 0x01, v] ++ put32 (BitVec.ofNat 32 n)) = .ok (List.replicate n v)

/-- R152, R153: the bits written, the bytes that `finish()` returns, and the zero bits that pad the last of them. -/
def Obligations.BitWriterLayout : Prop :=
  ∀ bits : List Bool,
    let bytes := (Writer.empty.writeBits bits).finish
    bytes.length = (bits.length + 7) / 8 ∧
    (∀ i (h : i < bits.length), (bytes.getD (i / 8) 0).getLsbD (7 - i % 8) = bits[i]) ∧
    ∀ i, bits.length ≤ i → i < 8 * bytes.length → (bytes[i / 8]?).map (fun b => b.getLsbD (7 - i % 8)) = some false

/-- R154, R156: a reader over P bytes returns their 8P bits, MSB-first, and then EOS. -/
def Obligations.BitReaderOrder : Prop :=
  ∀ p : List Byte,
    Reader.start.remaining p = bitsOf p ∧ (bitsOf p).length = 8 * p.length ∧
    (∀ k ≤ 8 * p.length, 8 * (Reader.skip p k Reader.start).rbyte + (Reader.skip p k Reader.start).rbit = k) ∧
    (∀ k, 8 * p.length ≤ k → (Reader.skip p k Reader.start).readBit p = none)
end

