-- ==== Sys2Proof/Laws/State.lean ====
section
/-! SUPPORT. What each field is after each update of the state: one lemma per field per update, true by `rfl`. -/

namespace Sys2Proof.Machine

variable (s : State)

/-! ### setWork -/

@[simp] theorem State.setWork_params (w : Work) : (s.setWork w).params = s.params := rfl
@[simp] theorem State.setWork_cmdAlg (w : Work) : (s.setWork w).cmdAlg = s.cmdAlg := rfl
@[simp] theorem State.setWork_cmdMode (w : Work) : (s.setWork w).cmdMode = s.cmdMode := rfl
@[simp] theorem State.setWork_inLen (w : Work) : (s.setWork w).inLen = s.inLen := rfl
@[simp] theorem State.setWork_status (w : Work) : (s.setWork w).status = s.status := rfl
@[simp] theorem State.setWork_errCode (w : Work) : (s.setWork w).errCode = s.errCode := rfl
@[simp] theorem State.setWork_errPos (w : Work) : (s.setWork w).errPos = s.errPos := rfl
@[simp] theorem State.setWork_errCount (w : Work) : (s.setWork w).errCount = s.errCount := rfl
@[simp] theorem State.setWork_outLen (w : Work) : (s.setWork w).outLen = s.outLen := rfl
@[simp] theorem State.setWork_inMem (w : Work) : (s.setWork w).inMem = s.inMem := rfl
@[simp] theorem State.setWork_outMem (w : Work) : (s.setWork w).outMem = s.outMem := rfl
@[simp] theorem State.setWork_latch (w : Work) : (s.setWork w).latch = s.latch := rfl
@[simp] theorem State.setWork_work (w : Work) : (s.setWork w).work = w := rfl
@[simp] theorem State.setWork_resetLine (w : Work) : (s.setWork w).resetLine = s.resetLine := rfl
@[simp] theorem State.setWork_inputs (w : Work) : (s.setWork w).inputs = s.inputs := rfl
@[simp] theorem State.setWork_busData (w : Work) : (s.setWork w).busData = s.busData := rfl
@[simp] theorem State.setWork_inEpoch (w : Work) : (s.setWork w).inEpoch = s.inEpoch := rfl
@[simp] theorem State.setWork_outEpoch (w : Work) : (s.setWork w).outEpoch = s.outEpoch := rfl

/-! ### setInputs -/

@[simp] theorem State.setInputs_params (l : List Input) : (s.setInputs l).params = s.params := rfl
@[simp] theorem State.setInputs_cmdAlg (l : List Input) : (s.setInputs l).cmdAlg = s.cmdAlg := rfl
@[simp] theorem State.setInputs_cmdMode (l : List Input) : (s.setInputs l).cmdMode = s.cmdMode := rfl
@[simp] theorem State.setInputs_inLen (l : List Input) : (s.setInputs l).inLen = s.inLen := rfl
@[simp] theorem State.setInputs_status (l : List Input) : (s.setInputs l).status = s.status := rfl
@[simp] theorem State.setInputs_errCode (l : List Input) : (s.setInputs l).errCode = s.errCode := rfl
@[simp] theorem State.setInputs_errPos (l : List Input) : (s.setInputs l).errPos = s.errPos := rfl
@[simp] theorem State.setInputs_errCount (l : List Input) : (s.setInputs l).errCount = s.errCount := rfl
@[simp] theorem State.setInputs_outLen (l : List Input) : (s.setInputs l).outLen = s.outLen := rfl
@[simp] theorem State.setInputs_inMem (l : List Input) : (s.setInputs l).inMem = s.inMem := rfl
@[simp] theorem State.setInputs_outMem (l : List Input) : (s.setInputs l).outMem = s.outMem := rfl
@[simp] theorem State.setInputs_latch (l : List Input) : (s.setInputs l).latch = s.latch := rfl
@[simp] theorem State.setInputs_work (l : List Input) : (s.setInputs l).work = s.work := rfl
@[simp] theorem State.setInputs_resetLine (l : List Input) : (s.setInputs l).resetLine = s.resetLine := rfl
@[simp] theorem State.setInputs_inputs (l : List Input) : (s.setInputs l).inputs = l := rfl
@[simp] theorem State.setInputs_busData (l : List Input) : (s.setInputs l).busData = s.busData := rfl
@[simp] theorem State.setInputs_inEpoch (l : List Input) : (s.setInputs l).inEpoch = s.inEpoch := rfl
@[simp] theorem State.setInputs_outEpoch (l : List Input) : (s.setInputs l).outEpoch = s.outEpoch := rfl

/-! ### setBus -/

@[simp] theorem State.setBus_params (v : Word) : (s.setBus v).params = s.params := rfl
@[simp] theorem State.setBus_cmdAlg (v : Word) : (s.setBus v).cmdAlg = s.cmdAlg := rfl
@[simp] theorem State.setBus_cmdMode (v : Word) : (s.setBus v).cmdMode = s.cmdMode := rfl
@[simp] theorem State.setBus_inLen (v : Word) : (s.setBus v).inLen = s.inLen := rfl
@[simp] theorem State.setBus_status (v : Word) : (s.setBus v).status = s.status := rfl
@[simp] theorem State.setBus_errCode (v : Word) : (s.setBus v).errCode = s.errCode := rfl
@[simp] theorem State.setBus_errPos (v : Word) : (s.setBus v).errPos = s.errPos := rfl
@[simp] theorem State.setBus_errCount (v : Word) : (s.setBus v).errCount = s.errCount := rfl
@[simp] theorem State.setBus_outLen (v : Word) : (s.setBus v).outLen = s.outLen := rfl
@[simp] theorem State.setBus_inMem (v : Word) : (s.setBus v).inMem = s.inMem := rfl
@[simp] theorem State.setBus_outMem (v : Word) : (s.setBus v).outMem = s.outMem := rfl
@[simp] theorem State.setBus_latch (v : Word) : (s.setBus v).latch = s.latch := rfl
@[simp] theorem State.setBus_work (v : Word) : (s.setBus v).work = s.work := rfl
@[simp] theorem State.setBus_resetLine (v : Word) : (s.setBus v).resetLine = s.resetLine := rfl
@[simp] theorem State.setBus_inputs (v : Word) : (s.setBus v).inputs = s.inputs := rfl
@[simp] theorem State.setBus_busData (v : Word) : (s.setBus v).busData = v := rfl
@[simp] theorem State.setBus_inEpoch (v : Word) : (s.setBus v).inEpoch = s.inEpoch := rfl
@[simp] theorem State.setBus_outEpoch (v : Word) : (s.setBus v).outEpoch = s.outEpoch := rfl

/-! ### writeIn -/

@[simp] theorem State.writeIn_params (a : Nat) (b : Byte) : (s.writeIn a b).params = s.params := rfl
@[simp] theorem State.writeIn_cmdAlg (a : Nat) (b : Byte) : (s.writeIn a b).cmdAlg = s.cmdAlg := rfl
@[simp] theorem State.writeIn_cmdMode (a : Nat) (b : Byte) : (s.writeIn a b).cmdMode = s.cmdMode := rfl
@[simp] theorem State.writeIn_inLen (a : Nat) (b : Byte) : (s.writeIn a b).inLen = s.inLen := rfl
@[simp] theorem State.writeIn_status (a : Nat) (b : Byte) : (s.writeIn a b).status = s.status := rfl
@[simp] theorem State.writeIn_errCode (a : Nat) (b : Byte) : (s.writeIn a b).errCode = s.errCode := rfl
@[simp] theorem State.writeIn_errPos (a : Nat) (b : Byte) : (s.writeIn a b).errPos = s.errPos := rfl
@[simp] theorem State.writeIn_errCount (a : Nat) (b : Byte) : (s.writeIn a b).errCount = s.errCount := rfl
@[simp] theorem State.writeIn_outLen (a : Nat) (b : Byte) : (s.writeIn a b).outLen = s.outLen := rfl
@[simp] theorem State.writeIn_inMem (a : Nat) (b : Byte) : (s.writeIn a b).inMem = Table.put a b s.inMem := rfl
@[simp] theorem State.writeIn_outMem (a : Nat) (b : Byte) : (s.writeIn a b).outMem = s.outMem := rfl
@[simp] theorem State.writeIn_latch (a : Nat) (b : Byte) : (s.writeIn a b).latch = s.latch := rfl
@[simp] theorem State.writeIn_work (a : Nat) (b : Byte) : (s.writeIn a b).work = s.work := rfl
@[simp] theorem State.writeIn_resetLine (a : Nat) (b : Byte) : (s.writeIn a b).resetLine = s.resetLine := rfl
@[simp] theorem State.writeIn_inputs (a : Nat) (b : Byte) : (s.writeIn a b).inputs = s.inputs := rfl
@[simp] theorem State.writeIn_busData (a : Nat) (b : Byte) : (s.writeIn a b).busData = s.busData := rfl
@[simp] theorem State.writeIn_inEpoch (a : Nat) (b : Byte) : (s.writeIn a b).inEpoch = s.inEpoch := rfl
@[simp] theorem State.writeIn_outEpoch (a : Nat) (b : Byte) : (s.writeIn a b).outEpoch = s.outEpoch := rfl

/-! ### freshOut -/

@[simp] theorem State.freshOut_params : s.freshOut.params = s.params := rfl
@[simp] theorem State.freshOut_cmdAlg : s.freshOut.cmdAlg = s.cmdAlg := rfl
@[simp] theorem State.freshOut_cmdMode : s.freshOut.cmdMode = s.cmdMode := rfl
@[simp] theorem State.freshOut_inLen : s.freshOut.inLen = s.inLen := rfl
@[simp] theorem State.freshOut_status : s.freshOut.status = s.status := rfl
@[simp] theorem State.freshOut_errCode : s.freshOut.errCode = s.errCode := rfl
@[simp] theorem State.freshOut_errPos : s.freshOut.errPos = s.errPos := rfl
@[simp] theorem State.freshOut_errCount : s.freshOut.errCount = s.errCount := rfl
@[simp] theorem State.freshOut_outLen : s.freshOut.outLen = s.outLen := rfl
@[simp] theorem State.freshOut_inMem : s.freshOut.inMem = s.inMem := rfl
@[simp] theorem State.freshOut_outMem : s.freshOut.outMem = s.outMem := rfl
@[simp] theorem State.freshOut_latch : s.freshOut.latch = s.latch := rfl
@[simp] theorem State.freshOut_work : s.freshOut.work = s.work := rfl
@[simp] theorem State.freshOut_resetLine : s.freshOut.resetLine = s.resetLine := rfl
@[simp] theorem State.freshOut_inputs : s.freshOut.inputs = s.inputs := rfl
@[simp] theorem State.freshOut_busData : s.freshOut.busData = s.busData := rfl
@[simp] theorem State.freshOut_inEpoch : s.freshOut.inEpoch = s.inEpoch := rfl
@[simp] theorem State.freshOut_outEpoch : s.freshOut.outEpoch = s.outEpoch + 1 := rfl

/-! ### emit -/

@[simp] theorem State.emit_params (bytes : List Byte) (used : Nat) : (s.emit bytes used).params = s.params := rfl
@[simp] theorem State.emit_cmdAlg (bytes : List Byte) (used : Nat) : (s.emit bytes used).cmdAlg = s.cmdAlg := rfl
@[simp] theorem State.emit_cmdMode (bytes : List Byte) (used : Nat) : (s.emit bytes used).cmdMode = s.cmdMode := rfl
@[simp] theorem State.emit_inLen (bytes : List Byte) (used : Nat) : (s.emit bytes used).inLen = s.inLen := rfl
@[simp] theorem State.emit_status (bytes : List Byte) (used : Nat) : (s.emit bytes used).status = s.status := rfl
@[simp] theorem State.emit_errCode (bytes : List Byte) (used : Nat) : (s.emit bytes used).errCode = s.errCode := rfl
@[simp] theorem State.emit_errPos (bytes : List Byte) (used : Nat) : (s.emit bytes used).errPos = s.errPos := rfl
@[simp] theorem State.emit_errCount (bytes : List Byte) (used : Nat) : (s.emit bytes used).errCount = s.errCount := rfl
@[simp] theorem State.emit_outLen (bytes : List Byte) (used : Nat) : (s.emit bytes used).outLen = s.outLen := rfl
@[simp] theorem State.emit_inMem (bytes : List Byte) (used : Nat) : (s.emit bytes used).inMem = s.inMem := rfl
@[simp] theorem State.emit_outMem (bytes : List Byte) (used : Nat) : (s.emit bytes used).outMem = s.outMem := rfl
@[simp] theorem State.emit_latch (bytes : List Byte) (used : Nat) : (s.emit bytes used).latch = s.latch := rfl
@[simp] theorem State.emit_work (bytes : List Byte) (used : Nat) : (s.emit bytes used).work = s.work.emit bytes used := rfl
@[simp] theorem State.emit_resetLine (bytes : List Byte) (used : Nat) : (s.emit bytes used).resetLine = s.resetLine := rfl
@[simp] theorem State.emit_inputs (bytes : List Byte) (used : Nat) : (s.emit bytes used).inputs = s.inputs := rfl
@[simp] theorem State.emit_busData (bytes : List Byte) (used : Nat) : (s.emit bytes used).busData = s.busData := rfl
@[simp] theorem State.emit_inEpoch (bytes : List Byte) (used : Nat) : (s.emit bytes used).inEpoch = s.inEpoch := rfl
@[simp] theorem State.emit_outEpoch (bytes : List Byte) (used : Nat) : (s.emit bytes used).outEpoch = s.outEpoch := rfl

/-! ### started -/

@[simp] theorem State.started_params (mode : Mode) (alg : BitVec 3) : (s.started mode alg).params = s.params := rfl
@[simp] theorem State.started_cmdAlg (mode : Mode) (alg : BitVec 3) : (s.started mode alg).cmdAlg = alg := rfl
@[simp] theorem State.started_cmdMode (mode : Mode) (alg : BitVec 3) : (s.started mode alg).cmdMode = mode := rfl
@[simp] theorem State.started_inLen (mode : Mode) (alg : BitVec 3) : (s.started mode alg).inLen = s.inLen := rfl
@[simp] theorem State.started_status (mode : Mode) (alg : BitVec 3) : (s.started mode alg).status = statusBusy := rfl
@[simp] theorem State.started_errCode (mode : Mode) (alg : BitVec 3) : (s.started mode alg).errCode = 0 := rfl
@[simp] theorem State.started_errPos (mode : Mode) (alg : BitVec 3) : (s.started mode alg).errPos = 0 := rfl
@[simp] theorem State.started_errCount (mode : Mode) (alg : BitVec 3) : (s.started mode alg).errCount = 0 := rfl
@[simp] theorem State.started_outLen (mode : Mode) (alg : BitVec 3) : (s.started mode alg).outLen = 0 := rfl
@[simp] theorem State.started_inMem (mode : Mode) (alg : BitVec 3) : (s.started mode alg).inMem = s.inMem := rfl
@[simp] theorem State.started_outMem (mode : Mode) (alg : BitVec 3) : (s.started mode alg).outMem = [] := rfl
@[simp] theorem State.started_latch (mode : Mode) (alg : BitVec 3) : (s.started mode alg).latch = ⟨alg, mode, s.inLen⟩ := rfl
@[simp] theorem State.started_work (mode : Mode) (alg : BitVec 3) : (s.started mode alg).work = { s.work with phase := .dispatch } := rfl
@[simp] theorem State.started_resetLine (mode : Mode) (alg : BitVec 3) : (s.started mode alg).resetLine = s.resetLine := rfl
@[simp] theorem State.started_inputs (mode : Mode) (alg : BitVec 3) : (s.started mode alg).inputs = s.inputs := rfl
@[simp] theorem State.started_busData (mode : Mode) (alg : BitVec 3) : (s.started mode alg).busData = s.busData := rfl
@[simp] theorem State.started_inEpoch (mode : Mode) (alg : BitVec 3) : (s.started mode alg).inEpoch = s.inEpoch := rfl
@[simp] theorem State.started_outEpoch (mode : Mode) (alg : BitVec 3) : (s.started mode alg).outEpoch = s.outEpoch + 1 := rfl

/-! ### completeOk -/

@[simp] theorem State.completeOk_params (out : List Byte) : (s.completeOk out).params = s.params := rfl
@[simp] theorem State.completeOk_cmdAlg (out : List Byte) : (s.completeOk out).cmdAlg = s.cmdAlg := rfl
@[simp] theorem State.completeOk_cmdMode (out : List Byte) : (s.completeOk out).cmdMode = s.cmdMode := rfl
@[simp] theorem State.completeOk_inLen (out : List Byte) : (s.completeOk out).inLen = s.inLen := rfl
@[simp] theorem State.completeOk_status (out : List Byte) : (s.completeOk out).status = statusDone := rfl
@[simp] theorem State.completeOk_errCode (out : List Byte) : (s.completeOk out).errCode = 0 := rfl
@[simp] theorem State.completeOk_errPos (out : List Byte) : (s.completeOk out).errPos = 0 := rfl
@[simp] theorem State.completeOk_errCount (out : List Byte) : (s.completeOk out).errCount = 0 := rfl
@[simp] theorem State.completeOk_outLen (out : List Byte) : (s.completeOk out).outLen = BitVec.ofNat 32 out.length := rfl
@[simp] theorem State.completeOk_inMem (out : List Byte) : (s.completeOk out).inMem = s.inMem := rfl
@[simp] theorem State.completeOk_outMem (out : List Byte) : (s.completeOk out).outMem = Memory.layout 0 out := rfl
@[simp] theorem State.completeOk_latch (out : List Byte) : (s.completeOk out).latch = s.latch := rfl
@[simp] theorem State.completeOk_work (out : List Byte) : (s.completeOk out).work = s.work := rfl
@[simp] theorem State.completeOk_resetLine (out : List Byte) : (s.completeOk out).resetLine = s.resetLine := rfl
@[simp] theorem State.completeOk_inputs (out : List Byte) : (s.completeOk out).inputs = s.inputs := rfl
@[simp] theorem State.completeOk_busData (out : List Byte) : (s.completeOk out).busData = s.busData := rfl
@[simp] theorem State.completeOk_inEpoch (out : List Byte) : (s.completeOk out).inEpoch = s.inEpoch := rfl
@[simp] theorem State.completeOk_outEpoch (out : List Byte) : (s.completeOk out).outEpoch = s.outEpoch + 1 := rfl

/-! ### takeError -/

@[simp] theorem State.takeError_params (kind : ErrorKind) (pos count : Nat) : (s.takeError kind pos count).params = s.params := rfl
@[simp] theorem State.takeError_cmdAlg (kind : ErrorKind) (pos count : Nat) : (s.takeError kind pos count).cmdAlg = s.cmdAlg := rfl
@[simp] theorem State.takeError_cmdMode (kind : ErrorKind) (pos count : Nat) : (s.takeError kind pos count).cmdMode = s.cmdMode := rfl
@[simp] theorem State.takeError_inLen (kind : ErrorKind) (pos count : Nat) : (s.takeError kind pos count).inLen = s.inLen := rfl
@[simp] theorem State.takeError_status (kind : ErrorKind) (pos count : Nat) : (s.takeError kind pos count).status = statusError := rfl
@[simp] theorem State.takeError_errCode (kind : ErrorKind) (pos count : Nat) : (s.takeError kind pos count).errCode = kind.code := rfl
@[simp] theorem State.takeError_errPos (kind : ErrorKind) (pos count : Nat) : (s.takeError kind pos count).errPos = saturate32 pos := rfl
@[simp] theorem State.takeError_errCount (kind : ErrorKind) (pos count : Nat) : (s.takeError kind pos count).errCount = saturate32 count := rfl
@[simp] theorem State.takeError_outLen (kind : ErrorKind) (pos count : Nat) : (s.takeError kind pos count).outLen = 0 := rfl
@[simp] theorem State.takeError_inMem (kind : ErrorKind) (pos count : Nat) : (s.takeError kind pos count).inMem = s.inMem := rfl
@[simp] theorem State.takeError_outMem (kind : ErrorKind) (pos count : Nat) : (s.takeError kind pos count).outMem = [] := rfl
@[simp] theorem State.takeError_latch (kind : ErrorKind) (pos count : Nat) : (s.takeError kind pos count).latch = s.latch := rfl
@[simp] theorem State.takeError_work (kind : ErrorKind) (pos count : Nat) : (s.takeError kind pos count).work = s.work := rfl
@[simp] theorem State.takeError_resetLine (kind : ErrorKind) (pos count : Nat) : (s.takeError kind pos count).resetLine = s.resetLine := rfl
@[simp] theorem State.takeError_inputs (kind : ErrorKind) (pos count : Nat) : (s.takeError kind pos count).inputs = s.inputs := rfl
@[simp] theorem State.takeError_busData (kind : ErrorKind) (pos count : Nat) : (s.takeError kind pos count).busData = s.busData := rfl
@[simp] theorem State.takeError_inEpoch (kind : ErrorKind) (pos count : Nat) : (s.takeError kind pos count).inEpoch = s.inEpoch := rfl
@[simp] theorem State.takeError_outEpoch (kind : ErrorKind) (pos count : Nat) : (s.takeError kind pos count).outEpoch = s.outEpoch + 1 := rfl

/-! ### assertReset -/

@[simp] theorem State.assertReset_params : s.assertReset.params = s.params := rfl
@[simp] theorem State.assertReset_cmdAlg : s.assertReset.cmdAlg = 0 := rfl
@[simp] theorem State.assertReset_cmdMode : s.assertReset.cmdMode = .compress := rfl
@[simp] theorem State.assertReset_inLen : s.assertReset.inLen = 0 := rfl
@[simp] theorem State.assertReset_status : s.assertReset.status = statusIdle := rfl
@[simp] theorem State.assertReset_errCode : s.assertReset.errCode = 0 := rfl
@[simp] theorem State.assertReset_errPos : s.assertReset.errPos = 0 := rfl
@[simp] theorem State.assertReset_errCount : s.assertReset.errCount = 0 := rfl
@[simp] theorem State.assertReset_outLen : s.assertReset.outLen = 0 := rfl
@[simp] theorem State.assertReset_inMem : s.assertReset.inMem = s.inMem := rfl
@[simp] theorem State.assertReset_outMem : s.assertReset.outMem = [] := rfl
@[simp] theorem State.assertReset_latch : s.assertReset.latch = s.latch := rfl
@[simp] theorem State.assertReset_work : s.assertReset.work = s.work := rfl
@[simp] theorem State.assertReset_resetLine : s.assertReset.resetLine = true := rfl
@[simp] theorem State.assertReset_inputs : s.assertReset.inputs = s.inputs := rfl
@[simp] theorem State.assertReset_busData : s.assertReset.busData = s.busData := rfl
@[simp] theorem State.assertReset_inEpoch : s.assertReset.inEpoch = s.inEpoch := rfl
@[simp] theorem State.assertReset_outEpoch : s.assertReset.outEpoch = s.outEpoch + 1 := rfl

/-! ### releaseReset -/

@[simp] theorem State.releaseReset_params : s.releaseReset.params = s.params := rfl
@[simp] theorem State.releaseReset_cmdAlg : s.releaseReset.cmdAlg = s.cmdAlg := rfl
@[simp] theorem State.releaseReset_cmdMode : s.releaseReset.cmdMode = s.cmdMode := rfl
@[simp] theorem State.releaseReset_inLen : s.releaseReset.inLen = s.inLen := rfl
@[simp] theorem State.releaseReset_status : s.releaseReset.status = s.status := rfl
@[simp] theorem State.releaseReset_errCode : s.releaseReset.errCode = s.errCode := rfl
@[simp] theorem State.releaseReset_errPos : s.releaseReset.errPos = s.errPos := rfl
@[simp] theorem State.releaseReset_errCount : s.releaseReset.errCount = s.errCount := rfl
@[simp] theorem State.releaseReset_outLen : s.releaseReset.outLen = s.outLen := rfl
@[simp] theorem State.releaseReset_inMem : s.releaseReset.inMem = s.inMem := rfl
@[simp] theorem State.releaseReset_outMem : s.releaseReset.outMem = s.outMem := rfl
@[simp] theorem State.releaseReset_latch : s.releaseReset.latch = s.latch := rfl
@[simp] theorem State.releaseReset_work : s.releaseReset.work = s.work := rfl
@[simp] theorem State.releaseReset_resetLine : s.releaseReset.resetLine = false := rfl
@[simp] theorem State.releaseReset_inputs : s.releaseReset.inputs = s.inputs := rfl
@[simp] theorem State.releaseReset_busData : s.releaseReset.busData = s.busData := rfl
@[simp] theorem State.releaseReset_inEpoch : s.releaseReset.inEpoch = s.inEpoch := rfl
@[simp] theorem State.releaseReset_outEpoch : s.releaseReset.outEpoch = s.outEpoch := rfl

/-! ### powerUp -/

@[simp] theorem State.powerUp_params : s.powerUp.params = s.params := rfl
@[simp] theorem State.powerUp_cmdAlg : s.powerUp.cmdAlg = 0 := rfl
@[simp] theorem State.powerUp_cmdMode : s.powerUp.cmdMode = .compress := rfl
@[simp] theorem State.powerUp_inLen : s.powerUp.inLen = 0 := rfl
@[simp] theorem State.powerUp_status : s.powerUp.status = statusIdle := rfl
@[simp] theorem State.powerUp_errCode : s.powerUp.errCode = 0 := rfl
@[simp] theorem State.powerUp_errPos : s.powerUp.errPos = 0 := rfl
@[simp] theorem State.powerUp_errCount : s.powerUp.errCount = 0 := rfl
@[simp] theorem State.powerUp_outLen : s.powerUp.outLen = 0 := rfl
@[simp] theorem State.powerUp_inMem : s.powerUp.inMem = [] := rfl
@[simp] theorem State.powerUp_outMem : s.powerUp.outMem = [] := rfl
@[simp] theorem State.powerUp_latch : s.powerUp.latch = s.latch := rfl
@[simp] theorem State.powerUp_work : s.powerUp.work = s.work := rfl
@[simp] theorem State.powerUp_resetLine : s.powerUp.resetLine = false := rfl
@[simp] theorem State.powerUp_inputs : s.powerUp.inputs = s.inputs := rfl
@[simp] theorem State.powerUp_busData : s.powerUp.busData = s.busData := rfl
@[simp] theorem State.powerUp_inEpoch : s.powerUp.inEpoch = s.inEpoch + 1 := rfl
@[simp] theorem State.powerUp_outEpoch : s.powerUp.outEpoch = s.outEpoch + 1 := rfl

/-! ### working state -/

@[simp] theorem Work.emit_out (w : Work) (bytes : List Byte) (used : Nat) : (w.emit bytes used).out = w.out ++ bytes := rfl
@[simp] theorem Work.emit_cursor (w : Work) (bytes : List Byte) (used : Nat) : (w.emit bytes used).cursor = w.cursor + used := rfl
@[simp] theorem Work.emit_phase (w : Work) (bytes : List Byte) (used : Nat) : (w.emit bytes used).phase = w.phase := rfl
@[simp] theorem Work.emit_dict (w : Work) (bytes : List Byte) (used : Nat) : (w.emit bytes used).dict = w.dict := rfl
@[simp] theorem Work.init_phase (p : Phase) : (Work.init p).phase = p := rfl
@[simp] theorem Work.init_cursor (p : Phase) : (Work.init p).cursor = 0 := rfl
@[simp] theorem Work.init_out (p : Phase) : (Work.init p).out = [] := rfl
@[simp] theorem Work.init_freq (p : Phase) : (Work.init p).freq = FreqTable.zero := rfl
@[simp] theorem Work.init_dict (p : Phase) : (Work.init p).dict = [] := rfl
@[simp] theorem Work.placeLeaves_phase (w : Work) : w.placeLeaves.phase = .hufMerge := rfl
@[simp] theorem Work.placeLeaves_freq (w : Work) : w.placeLeaves.freq = w.freq := rfl
@[simp] theorem Work.placeLeaves_nodes (w : Work) : w.placeLeaves.nodes = leaves w.freq := rfl
@[simp] theorem Work.placeLeaves_active (w : Work) :
    w.placeLeaves.active = List.range (leaves w.freq).length := rfl

end Sys2Proof.Machine
end

