-- ==== Sys2Proof/Laws/Memory.lean ====
section
/-! SUPPORT. The laws of keyed lists, of the two buffers and of the dictionary: a read after a write, the canonical form
kept by every operation. -/

namespace Sys2Proof.Machine

section Table

variable {β : Type}

/-- A write is read back. -/
@[simp] theorem Table.find_put_self (k : Nat) (v : β) (m : List (Nat × β)) : Table.find k (Table.put k v m) = some v := by
  induction m with
  | nil => simp [Table.put, Table.find]
  | cons e rest ih =>
    obtain ⟨j, u⟩ := e
    simp only [Table.put]
    split
    · simp [Table.find]
    · split
      · simp [Table.find]
      · rename_i h1 h2
        rw [Table.find, if_neg (fun h => h2 h.symm), ih]

/-- A write leaves every other key alone. -/
theorem Table.find_put_other {k k' : Nat} (v : β) (m : List (Nat × β)) (h : k' ≠ k) :
    Table.find k' (Table.put k v m) = Table.find k' m := by
  induction m with
  | nil => simp [Table.put, Table.find, Ne.symm h]
  | cons e rest ih =>
    obtain ⟨j, u⟩ := e
    simp only [Table.put]
    split
    · simp [Table.find, Ne.symm h]
    · split
      · rename_i _ h2
        subst h2
        simp [Table.find, Ne.symm h]
      · simp only [Table.find, ih]

theorem Table.risingFrom_mono {m : List (Nat × β)} {lo lo' : Nat} (h : lo' ≤ lo) (hm : Table.risingFrom lo m = true) :
    Table.risingFrom lo' m = true := by
  cases m with
  | nil => rfl
  | cons e rest =>
    simp only [Table.risingFrom, Bool.and_eq_true, decide_eq_true_eq] at hm ⊢
    exact ⟨by omega, hm.2⟩

/-- A write keeps the keys strictly rising. -/
theorem Table.risingFrom_put {m : List (Nat × β)} {lo k : Nat} (v : β) (hk : lo ≤ k)
    (hm : Table.risingFrom lo m = true) : Table.risingFrom lo (Table.put k v m) = true := by
  induction m generalizing lo with
  | nil => simp [Table.put, Table.risingFrom, hk]
  | cons e rest ih =>
    obtain ⟨j, u⟩ := e
    simp only [Table.risingFrom, Bool.and_eq_true, decide_eq_true_eq] at hm
    simp only [Table.put]
    split
    · rename_i h
      simp only [Table.risingFrom, Bool.and_eq_true, decide_eq_true_eq]
      exact ⟨hk, by omega, hm.2⟩
    · split
      · rename_i _ h
        subst h
        simp only [Table.risingFrom, Bool.and_eq_true, decide_eq_true_eq]
        exact ⟨hk, hm.2⟩
      · rename_i h1 h2
        simp only [Table.risingFrom, Bool.and_eq_true, decide_eq_true_eq]
        exact ⟨hm.1, ih (by omega) hm.2⟩

/-- Taking entries out keeps the keys strictly rising. -/
theorem Table.risingFrom_filter {m : List (Nat × β)} {lo : Nat} (p : Nat × β → Bool)
    (hm : Table.risingFrom lo m = true) : Table.risingFrom lo (m.filter p) = true := by
  induction m generalizing lo with
  | nil => rfl
  | cons e rest ih =>
    obtain ⟨j, u⟩ := e
    simp only [Table.risingFrom, Bool.and_eq_true, decide_eq_true_eq] at hm
    rw [List.filter_cons]
    split
    · simp only [Table.risingFrom, Bool.and_eq_true, decide_eq_true_eq]
      exact ⟨hm.1, ih hm.2⟩
    · exact Table.risingFrom_mono (by omega) (ih hm.2)

/-- Changing the values alone keeps the keys strictly rising. -/
theorem Table.risingFrom_map {m : List (Nat × β)} {lo : Nat} (f : Nat × β → β)
    (hm : Table.risingFrom lo m = true) : Table.risingFrom lo (m.map (fun e => (e.1, f e))) = true := by
  induction m generalizing lo with
  | nil => rfl
  | cons e rest ih =>
    obtain ⟨j, u⟩ := e
    simp only [Table.risingFrom, Bool.and_eq_true, decide_eq_true_eq] at hm
    simp only [List.map_cons, Table.risingFrom, Bool.and_eq_true, decide_eq_true_eq]
    exact ⟨hm.1, ih hm.2⟩

/-- A key below every listed one is not listed. -/
theorem Table.find_below {m : List (Nat × β)} {lo k : Nat} (hk : k < lo) (hm : Table.risingFrom lo m = true) :
    Table.find k m = none := by
  induction m generalizing lo with
  | nil => rfl
  | cons e rest ih =>
    obtain ⟨j, u⟩ := e
    simp only [Table.risingFrom, Bool.and_eq_true, decide_eq_true_eq] at hm
    rw [Table.find, if_neg (by omega)]
    exact ih (by omega) hm.2

end Table

/-! ## Buffers -/

theorem Memory.layout_rising (a : Nat) (bs : List Byte) : Table.risingFrom a (Memory.layout a bs) = true := by
  induction bs generalizing a with
  | nil => rfl
  | cons b bs ih => simpa [Memory.layout, Table.risingFrom] using ih (a + 1)

/-- A laid out sequence is in canonical form. -/
theorem Memory.layout_wf (a : Nat) (bs : List Byte) : Memory.wf (Memory.layout a bs) = true :=
  Table.risingFrom_mono (Nat.zero_le a) (Memory.layout_rising a bs)

@[simp] theorem Memory.layout_length (a : Nat) (bs : List Byte) : (Memory.layout a bs).length = bs.length := by
  induction bs generalizing a with
  | nil => rfl
  | cons b bs ih => simp [Memory.layout, ih]

@[simp] theorem Memory.layout_bytes (a : Nat) (bs : List Byte) : (Memory.layout a bs).map Prod.snd = bs := by
  induction bs generalizing a with
  | nil => rfl
  | cons b bs ih => simp [Memory.layout, ih]

/-- What a laid out sequence holds at each address. -/
theorem Memory.find_layout (a k : Nat) (bs : List Byte) : Table.find (a + k) (Memory.layout a bs) = bs[k]? := by
  induction bs generalizing a k with
  | nil => simp [Memory.layout, Table.find]
  | cons b bs ih =>
    cases k with
    | zero => simp [Memory.layout, Table.find]
    | succ k =>
      rw [Memory.layout, Table.find, if_neg (by omega), show a + (k + 1) = (a + 1) + k by omega, ih]
      simp

/-- A write of IN keeps the canonical form. -/
theorem Memory.put_wf (a : Nat) (b : Byte) (m : Memory) (h : Memory.wf m = true) : Memory.wf (Table.put a b m) = true :=
  Table.risingFrom_put b (Nat.zero_le a) h

theorem Memory.put_below {cap a : Nat} (b : Byte) {m : Memory} (ha : a < cap) (h : Memory.below cap m = true) :
    Memory.below cap (Table.put a b m) = true := by
  induction m with
  | nil => simpa [Table.put, Memory.below] using ha
  | cons e rest ih =>
    obtain ⟨j, u⟩ := e
    simp only [Memory.below, List.all_cons, Bool.and_eq_true, decide_eq_true_eq] at h ih
    simp only [Table.put, Memory.below]
    split
    · simp only [List.all_cons, Bool.and_eq_true, decide_eq_true_eq]
      exact ⟨ha, h.1, h.2⟩
    · split
      · simp only [List.all_cons, Bool.and_eq_true, decide_eq_true_eq]
        exact ⟨ha, h.2⟩
      · simp only [List.all_cons, Bool.and_eq_true, decide_eq_true_eq]
        exact ⟨h.1, ih h.2⟩

/-- A byte written to IN is read back, and every other byte is as before. -/
theorem State.readIn_writeIn (s : State) (a a' : Nat) (b : Byte) :
    (s.writeIn a b).readIn a' = if a' = a then b else s.readIn a' := by
  by_cases h : a' = a
  · subst h
    simp [State.readIn]
  · rw [if_neg h]
    simp [State.readIn, Table.find_put_other _ _ h]

/-! ## Dictionary -/

/-- Registering a position keeps the dictionary's canonical form. -/
theorem Dict.register_rising (d : List Byte) {dict : Dict} (q : Nat) (h : Table.risingFrom 0 dict = true) :
    Table.risingFrom 0 (Dict.register d dict q) = true := by
  unfold Dict.register
  split
  · exact Table.risingFrom_put _ (Nat.zero_le _) h
  · exact h

theorem Dict.registerRange_rising (d : List Byte) {dict : Dict} (q len : Nat) (h : Table.risingFrom 0 dict = true) :
    Table.risingFrom 0 (Dict.registerRange d dict q len) = true := by
  unfold Dict.registerRange
  induction List.range len generalizing dict with
  | nil => exact h
  | cons k ks ih => exact ih (Dict.register_rising d (q + k) h)

/-- Pruning keeps the dictionary's canonical form. -/
theorem Dict.prune_rising {dict : Dict} (i : Nat) (h : Table.risingFrom 0 dict = true) :
    Table.risingFrom 0 (dict.prune i) = true :=
  Table.risingFrom_filter _ (Table.risingFrom_map _ h)

end Sys2Proof.Machine
end

