-- ==== Sys2Proof/Laws/Ops.lean ====
section
/-! SUPPORT. One lemma per shared operation: everything it can do. -/

namespace Sys2Proof.Machine

theorem saturate32_toNat (n : Nat) : (saturate32 n).toNat = min n (2 ^ 32 - 1) := by
  simp only [saturate32, BitVec.toNat_ofNat]
  omega

/-- START is taken exactly when the block is not BUSY (R360). -/
theorem State.startCommand_cases (s : State) (mode : Mode) (alg : BitVec 3) :
    (s.busy = true ∧ s.startCommand mode alg = s) ∨ (s.busy = false ∧ s.startCommand mode alg = s.started mode alg) := by
  unfold State.startCommand
  cases h : s.busy <;> simp

/-- CMD.STORE is taken exactly when the block is not BUSY (R34). -/
theorem State.storeCommand_cases (s : State) (mode : Mode) (alg : BitVec 3) :
    (s.busy = true ∧ s.storeCommand mode alg = s) ∨
    (s.busy = false ∧ s.storeCommand mode alg = { s with cmdAlg := alg, cmdMode := mode }) := by
  unfold State.storeCommand
  cases h : s.busy <;> simp

/-- An operation ends with success, with the codec's error, or with OutputOverflow (R366, R370, R371). -/
theorem State.complete_cases (s : State) (r : Result) :
    (∃ out, r = .ok out ∧ out.length ≤ s.params.outCap ∧ s.complete r = s.completeOk out) ∨
    (∃ out, r = .ok out ∧ s.params.outCap < out.length ∧
      s.complete r = s.takeError .outputOverflow s.params.outCap (min out.length (2 ^ 32 - 1))) ∨
    (∃ kind pos count, r = .err kind pos count ∧ s.complete r = s.takeError kind pos count) := by
  cases r with
  | ok out =>
    by_cases h : s.params.outCap < out.length
    · exact .inr (.inl ⟨out, rfl, h, by simp [State.complete, capCheck, h]⟩)
    · exact .inl ⟨out, rfl, by omega, by simp [State.complete, capCheck, h]⟩
  | err kind pos count => exact .inr (.inr ⟨kind, pos, count, rfl, rfl⟩)

/-- Raising an error is taking it. -/
@[simp] theorem State.raise_eq (s : State) (kind : ErrorKind) (pos count : Nat) :
    s.raise kind pos count = s.takeError kind pos count := rfl

/-- A match token either takes InvalidBackReference or copies (R336). -/
theorem lzBackRef_cases (len off : Nat) (s : State) :
    ((off = 0 ∨ s.work.out.length < off) ∧
      lzBackRef len off s = .next (s.takeError .invalidBackReference s.work.cursor s.work.out.length)) ∨
    (1 ≤ off ∧ off ≤ s.work.out.length ∧
      lzBackRef len off s = .next (s.setWork
        { s.work with out := copyBack off len s.work.out, cursor := s.work.cursor + 2 })) := by
  unfold lzBackRef
  by_cases h : off = 0 ∨ s.work.out.length < off
  · exact .inl ⟨h, by simp [h]⟩
  · exact .inr ⟨by omega, by omega, by rw [if_neg h]⟩

/-- The head of `execute` has four outcomes (R362). -/
theorem dispatchStep_cases (s : State) :
    dispatchStep s = .next (s.takeError .unsupportedAlgorithm 0 0) ∨
    (s.latch.alg = 3 ∧ s.params.deflateAttached = true ∧ dispatchStep s = .refused .externalDeflate) ∨
    (s.latch.alg.toNat < 3 ∧ s.params.inCap < s.latch.len.toNat ∧
      dispatchStep s = .next (s.takeError .inputLengthInvalid 0 s.latch.len.toNat)) ∨
    (s.latch.alg.toNat < 3 ∧ s.latch.len.toNat ≤ s.params.inCap ∧
      dispatchStep s = .next (s.setWork (Work.init (codecPhase s.latch.alg s.latch.mode)))) := by
  unfold dispatchStep
  by_cases h1 : 4 ≤ s.latch.alg.toNat ∨ (s.latch.alg = 3 ∧ s.params.deflateAttached = false)
  · exact .inl (by rw [if_pos h1]; rfl)
  · rw [if_neg h1]
    by_cases h2 : s.latch.alg = 3
    · refine .inr (.inl ⟨h2, ?_, by rw [if_pos h2]⟩)
      cases hd : s.params.deflateAttached
      · exact absurd (.inr ⟨h2, hd⟩) h1
      · rfl
    · have h3 : s.latch.alg.toNat ≠ 3 := fun h => h2 (BitVec.eq_of_toNat_eq h)
      have h4 : s.latch.alg.toNat < 3 := by omega
      rw [if_neg h2]
      by_cases h5 : s.params.inCap < s.latch.len.toNat
      · exact .inr (.inr (.inl ⟨h4, h5, by rw [if_pos h5]; rfl⟩))
      · exact .inr (.inr (.inr ⟨h4, by omega, by rw [if_neg h5]⟩))

/-- A step runs what `select` chose. -/
theorem step_of_run {s s' : State} {i : Instr} (h : s.select = .run i s') : step s = exec i s' := by
  simp [step, h]

theorem step_of_answer {s : State} {a : Answer} (h : s.select = .answer a) : step s = a := by
  simp [step, h]

/-- The engine's turn in all its cases. -/
theorem State.engineTurn_cases (s : State) :
    (s.running = false ∧ s.engineTurn = .answer (.next s)) ∨
    (s.running = true ∧ s.source = none ∧ s.engineTurn = .answer s.engineWork) ∨
    (∃ src i, s.running = true ∧ s.source = some src ∧ decode src = .ok i ∧ s.engineTurn = .run i s) ∨
    (∃ src e, s.running = true ∧ s.source = some src ∧ decode src = .error e ∧
      s.engineTurn = .answer (.next (s.decodeFailed e))) := by
  unfold State.engineTurn
  cases hr : s.running with
  | false => exact .inl ⟨rfl, by simp⟩
  | true =>
    cases hs : s.source with
    | none => exact .inr (.inl ⟨rfl, rfl, by simp⟩)
    | some src =>
      cases hd : decode src with
      | ok i => exact .inr (.inr (.inl ⟨src, i, rfl, rfl, hd, by simp [hd]⟩))
      | error e => exact .inr (.inr (.inr ⟨src, e, rfl, rfl, hd, by simp [hd]⟩))

/-- An error found while decoding is taken: only the result fields change. -/
theorem State.decodeFailed_takes (s : State) (e : DecodeError) :
    ∃ kind pos count, s.decodeFailed e = s.takeError kind pos count := by
  cases e <;> exact ⟨_, _, _, rfl⟩

end Sys2Proof.Machine
end

