-- ==== Sys2Proof/Laws/PerInstr.lean ====
section
/-! SUPPORT. A statement made for every instruction: how long its encoding is. -/

namespace Sys2Proof.Laws

/-- The number of bytes of an encoding of container bytes; a command word and a code word have none. -/
def imageBytes : Image → Nat
  | .word _ => 0
  | .bytes bs => bs.length
  | .bits _ => 0

/-- The encoding of a well-formed instruction has the length the spec gives it (30_encoding.md R110, R118, R124). -/
def EncodedLength.Statement (i : Instr) : Prop := i.wf = true → imageBytes (encode i) = i.byteLength

theorem EncodedLength.rleC : EncodedLength.Statement .rleC := fun _ => rfl
theorem EncodedLength.rleD : EncodedLength.Statement .rleD := fun _ => rfl
theorem EncodedLength.hufC : EncodedLength.Statement .hufC := fun _ => rfl
theorem EncodedLength.hufD : EncodedLength.Statement .hufD := fun _ => rfl
theorem EncodedLength.lzC : EncodedLength.Statement .lzC := fun _ => rfl
theorem EncodedLength.lzD : EncodedLength.Statement .lzD := fun _ => rfl
theorem EncodedLength.defC : EncodedLength.Statement .defC := fun _ => rfl
theorem EncodedLength.defD : EncodedLength.Statement .defD := fun _ => rfl
theorem EncodedLength.unsup (mode : Mode) (algLow : BitVec 2) : EncodedLength.Statement (.unsup mode algLow) := fun _ => rfl
theorem EncodedLength.cmdStore (mode : Mode) (alg : BitVec 3) : EncodedLength.Statement (.cmdStore mode alg) := fun _ => rfl
theorem EncodedLength.rleRun (len : BitVec 7) (value : Byte) : EncodedLength.Statement (.rleRun len value) := fun _ => rfl
theorem EncodedLength.rleLit (len : BitVec 7) (raw : List Byte) : EncodedLength.Statement (.rleLit len raw) := by
  intro h
  simp only [Instr.wf, beq_iff_eq] at h
  simp [encode, imageBytes, Instr.byteLength, h]
theorem EncodedLength.lzLit (value : BitVec 7) : EncodedLength.Statement (.lzLit value) := fun _ => rfl
theorem EncodedLength.lzEsc (value : BitVec 7) : EncodedLength.Statement (.lzEsc value) := fun _ => rfl
theorem EncodedLength.lzMatch3s (offset : BitVec 7) : EncodedLength.Statement (.lzMatch3s offset) := fun _ => rfl
theorem EncodedLength.lzMatch (len : BitVec 3) (offHi : BitVec 4) (offLo : Byte) :
    EncodedLength.Statement (.lzMatch len offHi offLo) := fun _ => rfl
theorem EncodedLength.hufHdrCount (count : BitVec 16) : EncodedLength.Statement (.hufHdrCount count) := fun _ => rfl
theorem EncodedLength.hufHdrEntry (value : Byte) (freq : Word) : EncodedLength.Statement (.hufHdrEntry value freq) :=
  fun _ => rfl
theorem EncodedLength.hufCode (path : List Bool) : EncodedLength.Statement (.hufCode path) := fun _ => rfl

end Sys2Proof.Laws
end

