-- ==== Sys2Proof/Tests/Slice0.lean ====
section
/-! SUPPORT. Tests: ill-formed terms refused, a written-out word for every constructor, one-step tests whose expected
results are the vectors of 95_test_vectors.md, small codec vectors, and a witness for every statement with hypotheses. -/

namespace Sys2Proof.Tests

open Sys2Proof Sys2Proof.Machine

/-! ## Helpers -/

/-- A field of the next state, when there is one. -/
def after {α : Type} (f : State → α) : Answer → Option α
  | .next t => some (f t)
  | .fault _ => none
  | .refused _ => none

/-- The block idle after reset, its next input given. -/
def idle (xs : List Input) : State := State.reset.setInputs xs

/-- The block in the middle of a decompress operation over a container. -/
def mid (alg : BitVec 3) (phase : Phase) (container : List Byte) : State := State.reset.midOperation alg phase container

/-- The same, with some output already there and the cursor moved. -/
def midAt (alg : BitVec 3) (phase : Phase) (container out : List Byte) (cursor : Nat) : State :=
  (mid alg phase container).setWork { (mid alg phase container).work with out := out, cursor := cursor }

/-- BUSY, right after the START of a command. -/
def busyStart (mode : Mode) (alg : BitVec 3) (len : Word) : State :=
  ({ State.reset with inLen := len }).started mode alg

/-- The tree of A1 B1: A is 0, B is 1 (vector H4). -/
def abNodes : List Node := [⟨.leaf 0x41, 1, 0⟩, ⟨.leaf 0x42, 1, 1⟩, ⟨.internal 0 1, 2, 2⟩]

/-- The container of vectors HD13 to HD19: the header of A1 B1 and a payload. -/
def abContainer (payload : List Byte) : List Byte :=
  [0x00, 0x02, 0x41, 0x00, 0x00, 0x00, 0x01, 0x42, 0x00, 0x00, 0x00, 0x01] ++ payload

/-- The payload walk of that container, its header read. -/
def abWalk (payload : List Byte) : State :=
  (mid 1 .hufPayload (abContainer payload)).setWork
    { (mid 1 .hufPayload (abContainer payload)).work with nodes := abNodes, active := [2], count := 2, total := 2 }

/-- A running RLE decoder with nothing left to read and `n` bytes output, and room for `cap`. -/
def atEnd (cap n : Nat) : State :=
  let s := midAt 0 .rleD [] (List.replicate n 5) 0
  { s with params := { vectorParams with outCap := cap } }

/-- What the host sees of an error: STATUS, ERR_CODE, ERR_POS, ERR_COUNT, OUT_LEN. -/
def errorRegs (t : State) : List Nat := [t.status.toNat, t.errCode.toNat, t.errPos.toNat, t.errCount.toNat, t.outLen.toNat]

/-! ## WellFormed refuses -/

theorem smoke_literal_block_too_short : (Instr.rleLit 2 [0x01, 0x02]).wf = false := by decide
theorem smoke_literal_block_too_long : (Instr.rleLit 0 [0x01, 0x02]).wf = false := by decide
theorem smoke_match_with_escape_byte : (Instr.lzMatch 0 0 0x05).wf = false := by decide
theorem smoke_code_word_empty : (Instr.hufCode []).wf = false := by decide
set_option maxRecDepth 4000 in
theorem smoke_code_word_too_long : (Instr.hufCode (List.replicate 256 true)).wf = false := by decide
set_option maxRecDepth 4000 in
theorem smoke_accepts_the_longest_code_word : (Instr.hufCode (List.replicate 255 true)).wf = true := by decide

/-! ## Decoding: words written out from 30_encoding.md -/

/-- R112 with R114: bits 30:4 arbitrary. -/
theorem test_decode_commands :
    [0x80000000#32, 0x80000008#32, 0x80000001#32, 0x80000009#32, 0x80000002#32, 0x8000000A#32, 0x80000003#32,
      0x8000000B#32, 0x80000004#32, 0x8000000F#32, 0x0000000B#32, 0xFFFFFFF2#32, 0x7FFFFFF2#32].map decodeCommand =
    [.rleC, .rleD, .hufC, .hufD, .lzC, .lzD, .defC, .defD, .unsup .compress 0, .unsup .decompress 3,
      .cmdStore .decompress 3, .lzC, .cmdStore .compress 2] := by decide

/-- R116, R117: `1 0000001 00000101`; `0 0000010` and three bytes. -/
theorem test_decode_rle :
    decode (.rle [0b10000001, 0b00000101, 0xEE]) = .ok (.rleRun 1 5) ∧
    decode (.rle [0b00000010, 0x01, 0x02, 0x03, 0xEE]) = .ok (.rleLit 2 [0x01, 0x02, 0x03]) ∧
    decode (.rle [0b10000001]) = .error .truncatedBlock ∧
    decode (.rle [0b00000010, 0x01, 0x02]) = .error .truncatedBlock ∧
    decode (.rle []) = .error .endOfInput := by decide

/-- R119 to R123: `0 1000001`; `10000000 1 1001000`; `10000000 0 0000001`; `1 010 0011 00000100`. -/
theorem test_decode_lz :
    decode (.lz [0b01000001]) = .ok (.lzLit 0x41) ∧
    decode (.lz [0b10000000, 0b11001000]) = .ok (.lzEsc 0x48) ∧
    decode (.lz [0b10000000, 0b00000001]) = .ok (.lzMatch3s 1) ∧
    decode (.lz [0b10100011, 0b00000100]) = .ok (.lzMatch 2 3 4) ∧
    decode (.lz [0b10100011]) = .error .truncatedToken ∧
    decode (.lz []) = .error .endOfInput := by decide

/-- R125: big-endian fields. -/
theorem test_decode_huffman_header :
    decode (.hufCount [0x01, 0x02]) = .ok (.hufHdrCount 0x0102) ∧
    decode (.hufEntry [0x41, 0x01, 0x02, 0x03, 0x04]) = .ok (.hufHdrEntry 0x41 0x01020304) ∧
    decode (.hufCount [0x01]) = .error .truncatedCount ∧
    decode (.hufEntry [0x41, 0x01, 0x02, 0x03]) = .error .truncatedEntry := by decide

/-- R126: bit 0 is the left edge; the walk stops at the leaf. -/
theorem test_decode_code_word :
    decode (.hufCode abNodes 2 [false, true, true]) = .ok (.hufCode [false]) ∧
    decode (.hufCode abNodes 2 [true]) = .ok (.hufCode [true]) ∧
    decode (.hufCode abNodes 2 []) = .error .endOfStream ∧
    decode (.hufCode abNodes 0 [true]) = .error (.missingChild 0) := by decide

/-- R112, R116, R121, R125: encodings written out. -/
theorem test_encode :
    encode .lzD = .word 0x8000000A ∧ encode (.unsup .decompress 2) = .word 0x8000000E ∧
    encode (.rleRun 127 0x41) = .bytes [0xFF, 0x41] ∧ encode (.lzMatch 3 0 3) = .bytes [0xB0, 0x03] ∧
    encode (.lzMatch3s 4) = .bytes [0x80, 0x04] ∧
    encode (.hufHdrEntry 0x41 5) = .bytes [0x41, 0, 0, 0, 5] := by decide

theorem test_decode_table_words :
    decodeTableWord 32 0x80000001 = some .hufC ∧ decodeTableWord 8 0x41 = some (.lzLit 0x41) ∧
    decodeTableWord 16 0x8080 = some (.lzEsc 0) ∧ decodeTableWord 16 0x8000 = some (.lzMatch3s 0) ∧
    decodeTableWord 16 0x8FFF = some (.lzMatch 0 15 0xFF) ∧ decodeTableWord 16 0x0002 = some (.hufHdrCount 2) ∧
    decodeTableWord 40 0x4100000005 = some (.hufHdrEntry 0x41 5) ∧
    decodeTableWord 24 0x020101 = some (.rleLit 1 [0x01, 0x02]) ∧ decodeTableWord 12 0 = none := by decide

/-! ## One step of each instruction -/

/-- R361: LZ.C through a CMD write with bits 30:4 set (vector X11). -/
theorem test_step_start :
    after (fun t => (t.status.toNat, t.readReg .cmd, t.latch)) (step (idle [cmdWrite 0xFFFFFFF2])) =
      some (1, 2, ⟨2, .compress, 0⟩) := by decide

/-- R360: vector X10. -/
theorem test_step_store :
    after (fun t => (t.status.toNat, t.readReg .cmd)) (step (idle [cmdWrite 0x7FFFFFF2])) = some (0, 2) := by decide

theorem test_exec_starts :
    [Instr.rleC, .rleD, .hufC, .hufD, .lzC, .lzD, .defC, .defD, .unsup .decompress 3].map
      (fun i => after (fun t => (t.busy, (t.readReg .cmd).toNat)) (exec i State.reset)) =
    [some (true, 0), some (true, 8), some (true, 1), some (true, 9), some (true, 2), some (true, 10), some (true, 3),
      some (true, 11), some (true, 15)] := by decide

/-- Vector RD2. -/
theorem test_step_rle_run :
    after (fun t => (t.work.out, t.work.cursor)) (step (mid 0 .rleD [0x81, 0x05])) = some ([5, 5], 2) := by decide

/-- Vector RD8, the second block: truncated at 2 with one byte output. -/
theorem test_step_rle_truncated :
    after errorRegs (step (midAt 0 .rleD [0x00, 0x41, 0x82] [0x41] 2)) = some [4, 3, 2, 1, 0] := by decide

/-- Vector RC4 decoded: one literal block. -/
theorem test_step_rle_lit :
    after (fun t => (t.work.out, t.work.cursor)) (step (mid 0 .rleD [0x02, 0x01, 0x02, 0x03])) =
      some ([1, 2, 3], 4) := by decide

theorem test_step_lz_lit :
    after (fun t => (t.work.out, t.work.cursor)) (step (mid 2 .lzD [0x41])) = some ([0x41], 1) := by decide

/-- Vector LD3. -/
theorem test_step_lz_esc :
    after (fun t => (t.work.out, t.work.cursor)) (step (mid 2 .lzD [0x80, 0xC8])) = some ([0xC8], 2) := by decide

/-- Vector LD4, the second token. -/
theorem test_step_lz_match3s :
    after (fun t => t.work.out) (step (midAt 2 .lzD [0x41, 0x80, 0x01] [0x41] 1)) = some [0x41, 0x41, 0x41, 0x41] := by
  decide

/-- Vector LD10. -/
theorem test_step_lz_match3s_no_output :
    after errorRegs (step (mid 2 .lzD [0x80, 0x41])) = some [4, 4, 0, 0, 0] := by decide

/-- Vector LD5, the third token: an overlapping copy. -/
theorem test_step_lz_match :
    after (fun t => t.work.out) (step (midAt 2 .lzD [0x41, 0x42, 0x90, 0x02] [0x41, 0x42] 2)) =
      some [0x41, 0x42, 0x41, 0x42, 0x41, 0x42] := by decide

/-- Vector LD16: offset 256 with three bytes output. -/
theorem test_step_lz_match_too_far :
    after errorRegs (step (midAt 2 .lzD [0x41, 0x42, 0x43, 0x81, 0x00] [0x41, 0x42, 0x43] 3)) = some [4, 4, 3, 3, 0] := by
  decide

/-- Vector HD8: two entries declared, the second incomplete. -/
theorem test_step_huf_count_truncated :
    after errorRegs (step (mid 1 .hufHeader [0x00, 0x02, 0x41, 0, 0, 0, 1, 0x42])) = some [4, 2, 7, 0, 0] := by decide

/-- Vector HD3: the empty container. -/
theorem test_step_huf_count_empty :
    after errorRegs (step (mid 1 .hufHeader [0x00, 0x00])) = some [2, 0, 0, 0, 0] := by decide

/-- R246, big-endian frequency. -/
theorem test_step_huf_entry :
    after (fun t => ((t.work.freq.at 0x41).toNat, t.work.entry)) (step (State.reset.withFetchWord 40 0x4100010002)) =
      some (0x10002, 1) := by decide

/-- Vector HD9: frequency 0. -/
theorem test_step_huf_entry_zero :
    after errorRegs (step (State.reset.withFetchWord 40 0x4100000000)) = some [4, 2, 2, 0, 0] := by decide

/-- Vector HD14, the first code word. -/
theorem test_step_huf_code :
    after (fun t => (t.work.out, t.work.reader)) (step (abWalk [0x40])) = some ([0x41], ⟨0, 1⟩) := by decide

/-- Vector HD13: no payload. -/
theorem test_step_huf_code_out_of_bits :
    after errorRegs (step (abWalk [])) = some [4, 3, 12, 0, 0] := by decide

/-! ## Small vectors of section 2, on the codec functions and shared operations -/

/-- RC5, RC12. -/
theorem test_rle_compress :
    rleCompress [1, 2, 2, 3] = [0x00, 1, 0x81, 2, 0x00, 3] ∧
    rleCompress [1, 1, 1, 2, 3, 4, 4, 5] = [0x82, 1, 0x01, 2, 3, 0x81, 4, 0x00, 5] := by decide

/-- LC4, LC12. -/
theorem test_lz_compress :
    lzCompress [0x41, 0x42, 0x43, 0x41, 0x42, 0x43, 0x41, 0x42, 0x43] = [0x41, 0x42, 0x43, 0xB0, 0x03] ∧
    lzCompress (List.replicate 5 0xC8) = [0x80, 0xC8, 0x90, 0x01] := by decide

/-- R366 at the boundary: two bytes fit into a capacity of two, three do not. -/
theorem test_capacity_boundary :
    after (fun t => (t.status.toNat, t.outLen.toNat, t.readOut 1)) (step (atEnd 2 2)) = some (2, 2, 5) ∧
    after errorRegs (step (atEnd 2 3)) = some [4, 5, 2, 3, 0] := by decide

/-- B1, B2, B4. -/
theorem test_writer :
    (Writer.empty.writeBits [false, true, true, false, true, true, true, false]).finish = [0x6E] ∧
    (Writer.empty.writeBits [true]).finish = [0x80] ∧
    (Writer.empty.writeBits (List.replicate 9 true)).finish = [0xFF, 0x80] := by decide

/-- B6. -/
theorem test_reader :
    Reader.start.remaining [0xA5] = [true, false, true, false, false, true, false, true] := by decide

/-- The total order at work (R204, R205): leaves A1 B1 C2 D2 as in vector H12, the node AB (2) after the leaves of 2. -/
theorem test_merge_order :
    (mergeLeast [⟨.leaf 0x41, 1, 0⟩, ⟨.leaf 0x42, 1, 1⟩, ⟨.leaf 0x43, 2, 2⟩, ⟨.leaf 0x44, 2, 3⟩] [0, 1, 2, 3]).2 =
      [2, 3, 4] := by decide

/-- M1. -/
theorem test_find_match :
    findMatch [0x41, 0x42, 0x43, 0x41, 0x42, 0x43, 0x41, 0x42, 0x43]
      (Dict.registerRange [0x41, 0x42, 0x43, 0x41, 0x42, 0x43, 0x41, 0x42, 0x43] [] 0 3) 3 = (6, 3) := by decide

/-- H12: leaves A1 B1 C2 D2; A and B are merged to node 4, then C and D, each time the lesser on the left (R205). -/
theorem test_merge_children :
    mergeOrder (mergeAll 4 [⟨.leaf 0x41, 1, 0⟩, ⟨.leaf 0x42, 1, 1⟩, ⟨.leaf 0x43, 2, 2⟩, ⟨.leaf 0x44, 2, 3⟩]
      [0, 1, 2, 3]).1 4 = [0, 1, 2, 3, 4, 5] := by decide

/-- The pruning bound (R283): a position exactly WINDOW back stays, the next older one goes. -/
theorem test_prune :
    Dict.prune [(0x414243, [0, 1])] 4097 = [(0x414243, [1])] ∧ Dict.prune [(0x414243, [0])] 4097 = [] := by decide

/-! ## Witnesses: for every statement with hypotheses, values that meet them, clause by clause -/

/-- A run of two answers: the next state, as a term. -/
def next (a : Answer) (s : State) : State :=
  match a with
  | .next t => t
  | .fault _ => s
  | .refused _ => s

/-- A host read of STATUS. -/
def readStatus : Input := .access ⟨.reg, 0x08, 32, .read⟩

theorem witness_WrittenOutWordsDecode :
    ((0x80000004#32).getLsbD 31 = true ∧ (0x80000004#32).getLsbD 2 = true) ∧ (0x7FFFFFFF#32).getLsbD 31 = false := by
  decide

theorem witness_IgnoredCommandBitsSelectNothing :
    (0x80000000#32).getLsbD 31 = (0xFFFFFFF0#32).getLsbD 31 ∧
    (0x80000000#32).extractLsb' 0 4 = (0xFFFFFFF0#32).extractLsb' 0 4 := by decide

theorem witness_DecodeOfEncodeIsTheInstruction :
    (Instr.lzD.wf = true ∧ encode .lzD = .word 0x8000000A) ∧
    ((Instr.lzMatch 0 1 0).wf = true ∧ encode (.lzMatch 0 1 0) = .bytes [0x81, 0x00]) ∧
    ((Instr.hufCode [true]).wf = true ∧ encode (.hufCode [true]) = .bits [true] ∧
      followPath abNodes 0 2 [true] = .leaf 0x42) := by decide

theorem witness_EncodeOfDecodeIsTheBytes :
    decode (Format.rle.source [0x00, 0x41, 0x82]) = .ok (.rleLit 0 [0x41]) ∧
    decode (Format.lz.source [0x81, 0x00]) = .ok (.lzMatch 0 1 0) ∧
    decode (Format.hufCount.source [0x00, 0x00]) = .ok (.hufHdrCount 0) ∧
    decode (Format.hufEntry.source [0x41, 0, 0, 0, 1]) = .ok (.hufHdrEntry 0x41 1) := by decide

theorem witness_LzTokensAreClassified :
    (0x7F#8).toNat < 0x80 ∧ ((0x80#8).toNat = 0x80 ∧ 0x80 ≤ (0x80#8).toNat) ∧
    ((0x80#8).toNat = 0x80 ∧ (0x7F#8).toNat < 0x80) ∧ 0x80 < (0x81#8).toNat := by decide

theorem witness_RleBlocksAreClassified :
    (0x80 ≤ (0x80#8).toNat ∧ ([] : List Byte) = [] ∧ [0x41#8] = 0x41#8 :: []) ∧
    ((0x00#8).toNat < 0x80 ∧ ([] : List Byte).length < (0x00#8).toNat + 1 ∧ (0x00#8).toNat + 1 ≤ [0x41#8].length) := by
  decide

theorem witness_StepRunsTheDecodedInstruction :
    ((idle [cmdWrite 0x80000000]).inputs = [cmdWrite 0x80000000] ∧ (idle [cmdWrite 0x80000000]).resetLine = false) ∧
    ((mid 0 .rleD [0x81, 0x05]).running = true ∧ (mid 0 .rleD [0x81, 0x05]).source = some (.rle [0x81, 0x05]) ∧
      decode (.rle [0x81, 0x05]) = .ok (.rleRun 1 5) ∧ (mid 0 .rleD [0x81, 0x05]).inputs = [] ∧
      ((mid 0 .rleD [0x81, 0x05]).setInputs [.turn]).inputs = [.turn]) := by decide

theorem witness_CmdWriteStartsOrStores :
    ((busyStart .compress 0 0).setInputs [cmdWrite 0x80000000]).busy = true ∧
    ((busyStart .compress 0 0).setInputs [cmdWrite 0x80000000]).resetLine = false ∧
    ((idle [cmdWrite 0x80000000]).busy = false ∧ (0x80000000#32).getLsbD 31 = true) ∧
    ((idle [cmdWrite 0x7FFFFFFF]).busy = false ∧ (0x7FFFFFFF#32).getLsbD 31 = false) := by decide

theorem witness_StartEffects :
    (State.reset.busy = false ∧ (0x80000000#32).getLsbD 31 = true) ∧
    ∃ t, (mid 0 .rleD [0x81, 0x05]).busy = true ∧ (mid 0 .rleD [0x81, 0x05]).NoResetNext ∧
      step (mid 0 .rleD [0x81, 0x05]) = .next t ∧ t.busy = true :=
  ⟨by decide, _, rfl, trivial, rfl, rfl⟩

theorem witness_EveryCommandCompletes : State.reset.busy = false ∧ (busyStart .compress 0 0).busy = true := by decide

theorem witness_UnadmittedAccessIsABusError :
    step (idle [.access ⟨.reg, 0x100, 32, .read⟩]) = .fault .busError ∧
    step (idle [.access ⟨.reg, 0x02, 32, .read⟩]) = .fault .busError ∧
    step (idle [.access ⟨.inBuf, 4096, 8, .read⟩]) = .fault .busError ∧
    step (idle [.access ⟨.outBuf, 4096, 8, .read⟩]) = .fault .busError ∧
    step (idle [.access ⟨.outBuf, 0, 32, .read⟩]) = .fault .busError ∧
    (admits vectorParams ⟨.reg, 0xFC, 32, .read⟩ = true ∧ admits vectorParams ⟨.inBuf, 4095, 8, .read⟩ = true ∧
      admits vectorParams ⟨.outBuf, 4095, 8, .read⟩ = true) := by
  refine ⟨rfl, rfl, rfl, rfl, rfl, ?_⟩
  decide

theorem witness_ReadsReturnTheValueAndChangeNothing :
    admits State.reset.params ⟨.reg, 0xFC, 32, .read⟩ = true ∧ admits State.reset.params ⟨.inBuf, 4095, 8, .read⟩ = true ∧
    admits State.reset.params ⟨.outBuf, 4095, 8, .read⟩ = true ∧
    after (fun t => t.busData.toNat) (step (idle [.access ⟨.reg, 0x1C, 32, .read⟩])) = some 4096 := by decide

/-- One register after another by its offset (R33), all with different contents. -/
theorem test_register_offsets :
    ([0x00, 0x04, 0x08, 0x0C, 0x10, 0x14, 0x18, 0x1C, 0x20, 0x24].map (fun offset =>
      after (fun t => t.busData.toNat) (step
        { State.reset with
          params := { vectorParams with inCap := 17, outCap := 18 }
          cmdAlg := 2, cmdMode := .decompress, inLen := 11, status := 4, errCode := 3, errPos := 12, errCount := 13,
          outLen := 14, inputs := [.access ⟨.reg, offset, 32, .read⟩] }))) =
    [some 10, some 11, some 4, some 3, some 12, some 13, some 14, some 17, some 18, some 0] := by decide

theorem witness_ReservedAndReadOnlyRegisters :
    (0x24 % 4 = 0 ∧ 0x24 ≤ 0x24 ∧ 0x24 ≤ 0xFC) ∧ (0xFC % 4 = 0 ∧ 0x24 ≤ 0xFC) ∧ (0x08 % 4 = 0 ∧ 0x08 ≤ 0xFC) ∧
    (idle [.access ⟨.reg, 0x24, 32, .write 1⟩]).inputs = [.access ⟨.reg, 0x24, 32, .write 1⟩] := by decide

theorem witness_HostWritesStore :
    ((idle [.access ⟨.reg, 0x04, 32, .write 5⟩]).resetLine = false ∧
      (idle [.access ⟨.reg, 0x04, 32, .write 5⟩]).busy = false ∧ (busyStart .compress 0 0).busy = true ∧
      (busyStart .compress 0 0).resetLine = false) ∧
    4095 < State.reset.params.inCap ∧ 4095 < State.reset.params.outCap ∧
    after (fun t => t.readIn 4095) (step (idle [.access ⟨.inBuf, 4095, 8, .write 0x141⟩])) = some 0x41 := by decide

theorem witness_PhysicalAddressReachesItsSpace :
    windowsDisjoint State.reset.params ∧ 255 < spaceSize State.reset.params .reg ∧
    4095 < spaceSize State.reset.params .inBuf ∧ 4095 < spaceSize State.reset.params .outBuf := by
  unfold windowsDisjoint
  decide

theorem witness_RunningOperationInputIsFixed :
    (mid 0 .rleD [0x81, 0x05]).busy = true ∧ (mid 0 .rleD [0x81, 0x05]).NoResetNext ∧
    step (mid 0 .rleD [0x81, 0x05]) = .next (next (step (mid 0 .rleD [0x81, 0x05])) State.reset) :=
  ⟨rfl, trivial, rfl⟩

theorem witness_ReadsDoNotDisturbTheEngine :
    (∀ x ∈ [readStatus, .turn, readStatus], x.isReadOrTurn = true) ∧
    ∃ t, steps 3 ((mid 0 .rleD [0x81, 0x05]).setInputs [readStatus, .turn, readStatus]) = .next t :=
  ⟨by decide, _, rfl⟩

theorem witness_ResultsAreKeptUntilStartOrReset :
    ∃ t, (idle [readStatus]).busy = false ∧ (idle [readStatus]).NoResetNext ∧ step (idle [readStatus]) = .next t ∧
      t.busy = false :=
  ⟨_, rfl, ⟨by decide, by decide⟩, rfl, rfl⟩

theorem witness_ParametersNeverChange : ∃ t, step (idle [.resetAssert]) = .next t := ⟨_, rfl⟩

theorem witness_RegistersAfterResetAndPowerUp : (idle [.powerUp]).inputs = [.powerUp] := by decide

theorem witness_ResetAbandonsTheOperation :
    ((mid 0 .rleD [0x81, 0x05]).setInputs [.resetAssert]).busy = true := by decide

theorem witness_ResetHoldsWhileAsserted :
    ∀ x ∈ [cmdWrite 0x80000000, .turn, readStatus, .access ⟨.inBuf, 4095, 8, .write 1⟩],
      admittedInput State.reset.params x = true := by decide

theorem witness_StepKeepsTheInvariant :
    (mid 0 .rleD [0x81, 0x05]).Inv ∧ ∃ t, step (mid 0 .rleD [0x81, 0x05]) = .next t :=
  ⟨by constructor <;> decide, _, rfl⟩

theorem witness_StepKeepsStorageBounds : (abWalk [0x40]).work.Bounded ∧ ∃ t, step (abWalk [0x40]) = .next t :=
  ⟨by constructor <;> decide, _, rfl⟩

theorem witness_DispatchChecksInOrder :
    ((busyStart .compress 4 0).running = true ∧ (busyStart .compress 4 0).inputs = [] ∧
      (busyStart .compress 4 0).work.phase = .dispatch ∧ 4 ≤ (busyStart .compress 4 0).latch.alg.toNat) ∧
    ((busyStart .compress 3 0).latch.alg = 3 ∧ (busyStart .compress 3 0).params.deflateAttached = false) ∧
    (({ State.reset with params := { vectorParams with deflateAttached := true } }).started .compress 3).params.deflateAttached
      = true ∧
    ((busyStart .compress 2 4097).latch.alg.toNat < 3 ∧
      (busyStart .compress 2 4097).params.inCap < (busyStart .compress 2 4097).latch.len.toNat) ∧
    (busyStart .compress 2 4096).latch.len.toNat ≤ (busyStart .compress 2 4096).params.inCap := by decide

theorem witness_OperationsThatEndBeforeTheCodec :
    (State.reset.Idle ∧ State.reset.inputs = [] ∧ State.reset.params.deflateAttached = false) ∧
    (({ State.reset with params := { vectorParams with deflateAttached := true } }).Idle ∧
      ({ State.reset with params := { vectorParams with deflateAttached := true } }).params.deflateAttached = true) ∧
    ({ State.reset with inLen := 4097 }).params.inCap < ({ State.reset with inLen := 4097 }).inLen.toNat := by decide

theorem witness_ErrorsArePrecise :
    (∃ t, (mid 2 .lzD [0x80, 0x41]).running = true ∧ (mid 2 .lzD [0x80, 0x41]).inputs = [] ∧
      step (mid 2 .lzD [0x80, 0x41]) = .next t ∧ t.status = 0b100#32) ∧
    ErrorDue (mid 2 .lzD [0x80, 0x41]) .invalidBackReference 0 0 ∧
    ErrorDue (midAt 0 .rleD [0x00, 0x41, 0x82] [0x41] 2) .malformedPayload 2 1 ∧
    ErrorDue (mid 1 .hufHeader [0x00, 0x02, 0x41, 0, 0, 0, 1, 0x42]) .malformedHeader 7 0 ∧
    ErrorDue (abWalk []) .malformedPayload 12 0 ∧
    ((atEnd 2 3).running = true ∧ (atEnd 2 3).inputs = [] ∧ ErrorDue (atEnd 2 3) .outputOverflow 2 3) ∧
    ((atEnd 2 2).resultDue = some [5, 5] ∧ ([5, 5] : List Byte).length ≤ (atEnd 2 2).params.outCap ∧
      (atEnd 2 2).params.outCap ≤ 2 ^ 32 - 1) := by
  refine ⟨⟨_, rfl, rfl, rfl, rfl⟩, ?_, ?_, ?_, ?_, ⟨rfl, rfl, ?_⟩, by decide⟩
  · exact .badReference 0x80 0x41 [] rfl (by decide) (by decide) (by decide) (by decide)
  · exact .cutBlock 0x82 [] rfl (by decide) (by decide)
  · exact .fewEntries 0x00 0x02 [0x41, 0, 0, 0, 1, 0x42] rfl (by decide) (by decide) (by decide) (by decide)
  · exact .bitsOut rfl (by decide) (by decide)
  · exact .overflow [5, 5, 5] (by decide) (by decide)

theorem witness_RleDecoderTurn :
    ((mid 0 .rleD [0x80, 0x05]).running = true ∧ (mid 0 .rleD [0x80, 0x05]).inputs = [] ∧
      (mid 0 .rleD [0x80, 0x05]).work.phase = .rleD ∧
      (mid 0 .rleD [0x80, 0x05]).input.drop (mid 0 .rleD [0x80, 0x05]).work.cursor = [0x80, 0x05] ∧
      (0x80#8).msb = true) ∧
    ((mid 0 .rleD [0x00, 0x41]).input.drop 0 = [0x00, 0x41] ∧ (0x00#8).msb = false ∧
      (0x00#8).toNat + 1 ≤ [0x41#8].length) ∧
    (mid 0 .rleD [0x80]).input.drop 0 = [0x80] ∧
    ((mid 0 .rleD [0x00]).input.drop 0 = [0x00] ∧ ([] : List Byte).length < (0x00#8).toNat + 1) := by decide

theorem witness_LzMatchMeanings :
    (1 ≤ (1#7).toNat ∧ (1#7).toNat ≤ (midAt 2 .lzD [0x41, 0x80, 0x01] [0x41] 1).work.out.length) ∧
    (0#7).toNat = 0 ∧ (mid 2 .lzD [0x80, 0x01]).work.out.length < (1#7).toNat ∧
    ((0#4).toNat * 256 + (2#8).toNat ≤ (midAt 2 .lzD [] [0x41, 0x42] 2).work.out.length ∧
      (midAt 2 .lzD [] [0x41, 0x42] 2).work.out.length < (0#4).toNat * 256 + (3#8).toNat) := by decide

theorem witness_LzDecoderTurn :
    ((mid 2 .lzD [0x7F]).running = true ∧ (mid 2 .lzD [0x7F]).inputs = [] ∧ (mid 2 .lzD [0x7F]).work.phase = .lzD ∧
      (mid 2 .lzD [0x7F]).input.drop (mid 2 .lzD [0x7F]).work.cursor = [0x7F] ∧ (0x7F#8).toNat < 0x80) ∧
    ((mid 2 .lzD [0x80]).input.drop 0 = [0x80] ∧ 0x80 ≤ (0x80#8).toNat) ∧
    ((mid 2 .lzD [0x80, 0x80]).input.drop 0 = [0x80, 0x80] ∧ 0x80 ≤ (0x80#8).toNat) ∧
    ((midAt 2 .lzD [0x41, 0x80, 0x01] [0x41] 1).input.drop 1 = [0x80, 0x01] ∧
      ¬ ((0x80#8).toNat = 0x80 ∧ 0x80 ≤ (0x01#8).toNat) ∧ 1 ≤ (0x80#8).toNat % 16 * 256 + (0x01#8).toNat ∧
      (0x80#8).toNat % 16 * 256 + (0x01#8).toNat ≤ (midAt 2 .lzD [0x41, 0x80, 0x01] [0x41] 1).work.out.length) ∧
    (mid 2 .lzD [0x80, 0x01]).work.out.length < (0x80#8).toNat % 16 * 256 + (0x01#8).toNat ∧
    (0x80#8).toNat % 16 * 256 + (0x00#8).toNat = 0 := by decide

theorem witness_HuffmanCountMeaning :
    ((0#16).toNat = 0 ∧ (mid 1 .hufHeader [0, 0]).latch.len.toNat = 2) ∧
    ((0#16).toNat = 0 ∧ 2 < (mid 1 .hufHeader [0, 0, 0]).latch.len.toNat) ∧
    (256 < (257#16).toNat ∧ 2 ≤ (mid 1 .hufHeader [1, 1]).latch.len.toNat) ∧
    (1 ≤ (1#16).toNat ∧ (1#16).toNat ≤ 256 ∧ (mid 1 .hufHeader [0, 1, 0x41, 0, 0, 0]).latch.len.toNat < 2 + 5 * (1#16).toNat) ∧
    (2 + 5 * (1#16).toNat ≤ (mid 1 .hufHeader [0, 1, 0x41, 0, 0, 0, 1]).latch.len.toNat) ∧
    ((256#16).toNat ≤ 256 ∧ 2 + 5 * (256#16).toNat ≤ (busyStart .decompress 1 1282).latch.len.toNat) ∧
    ((mid 1 .hufHeader [1]).running = true ∧ (mid 1 .hufHeader [1]).inputs = [] ∧
      (mid 1 .hufHeader [1]).work.phase = .hufHeader ∧ (mid 1 .hufHeader [1]).latch.len.toNat < 2) := by decide

theorem witness_HuffmanEntryMeaning :
    (0#32) = 0 ∧ ((State.reset.work.freq.put 0x41 1).at 0x41 ≠ 0) ∧ (1#32) ≠ 0 ∧ State.reset.work.freq.at 0xFF = 0 := by
  decide

theorem witness_HuffmanCodeMeaning :
    (followPath (abWalk [0x40]).work.nodes 0 (rootOf (abWalk [0x40]).work.active) [true] = .leaf 0x42 ∧
      [true].length ≤ ((abWalk [0x40]).work.reader.remaining (abWalk [0x40]).payload).length ∧
      (abWalk [0x40]).work.reader.rbit < 8) ∧
    ((abWalk []).running = true ∧ (abWalk []).inputs = [] ∧ (abWalk []).work.phase = .hufPayload ∧
      (abWalk []).work.out.length < (abWalk []).work.total ∧
      decodeHufCode (abWalk []).work.nodes (rootOf (abWalk []).work.active)
        ((abWalk []).work.reader.remaining (abWalk []).payload) = .error .endOfStream) := by decide

/-- The block idle with an input in IN and room for `cap` bytes of output. -/
def ready (cap : Nat) (input : List Byte) : State :=
  { State.reset with
    params := { vectorParams with outCap := cap }
    inMem := Memory.layout 0 input
    inLen := BitVec.ofNat 32 input.length }

/-- The hypotheses of the six statements of whole operations. -/
abbrev ReadyToRun (s : State) : Prop :=
  s.Idle ∧ s.inputs = [] ∧ s.params.Legal ∧ s.inLen.toNat ≤ s.params.inCap

/-- The longest input that fits IN. -/
theorem witness_codec_operations : ReadyToRun { State.reset with inLen := 4096 } := by decide

theorem witness_RleCompressOperation :
    ReadyToRun (ready 2 [5, 5]) ∧ ReadyToRun (ready 1 [5, 5]) ∧
    rleCompress (ready 2 [5, 5]).nextInput = [0x81, 5] ∧ rleCompress (ready 1 [5, 5]).nextInput = [0x81, 5] := by decide

theorem witness_RleDecompressOperation :
    ReadyToRun (ready 2 [0x81, 5]) ∧ ReadyToRun (ready 1 [0x81, 5]) ∧
    rleDecompress (ready 2 [0x81, 5]).nextInput = .ok [5, 5] ∧
    rleDecompress (ready 1 [0x81, 5]).nextInput = .ok [5, 5] ∧
    rleDecompress (ready 1 [0x81]).nextInput = .err .malformedPayload 0 0 := by decide

set_option maxRecDepth 20000 in
theorem witness_HuffmanCompressOperation :
    ReadyToRun (ready 7 [5, 5]) ∧ ReadyToRun (ready 6 [5, 5]) ∧
    hufCompress (ready 7 [5, 5]).nextInput = [0, 1, 5, 0, 0, 0, 2] ∧
    (hufCompress (ready 6 [5, 5]).nextInput).length = 7 := by decide

set_option maxRecDepth 20000 in
theorem witness_HuffmanDecompressOperation :
    ReadyToRun (ready 2 [0, 1, 5, 0, 0, 0, 2]) ∧ ReadyToRun (ready 1 [0, 1, 5, 0, 0, 0, 2]) ∧
    hufDecompress (ready 2 [0, 1, 5, 0, 0, 0, 2]).nextInput = .ok [5, 5] ∧
    hufDecompress (ready 1 [0, 1, 5, 0, 0, 0, 2]).nextInput = .ok [5, 5] ∧
    hufDecompress (ready 1 [0]).nextInput = .err .malformedHeader 0 0 := by decide

theorem witness_LzCompressOperation :
    ReadyToRun (ready 2 [0x41, 0x42]) ∧ ReadyToRun (ready 1 [0x41, 0x42]) ∧
    lzCompress (ready 2 [0x41, 0x42]).nextInput = [0x41, 0x42] ∧
    lzCompress (ready 1 [0x41, 0x42]).nextInput = [0x41, 0x42] := by decide

theorem witness_LzDecompressOperation :
    ReadyToRun (ready 2 [0x41, 0x42]) ∧ ReadyToRun (ready 1 [0x41, 0x42]) ∧
    lzDecompress (ready 2 [0x41, 0x42]).nextInput = .ok [0x41, 0x42] ∧
    lzDecompress (ready 1 [0x41, 0x42]).nextInput = .ok [0x41, 0x42] ∧
    lzDecompress (ready 1 [0x80, 0]).nextInput = .err .invalidBackReference 0 0 := by decide

theorem witness_EveryOperationEnds :
    (busyStart .decompress 3 0).running = true ∧ (busyStart .decompress 3 0).inputs = [] ∧
    (busyStart .decompress 3 0).work.phase = .dispatch ∧ (busyStart .decompress 3 0).params.deflateAttached = false := by
  decide

/-- Two states that differ in IN beyond IN_LEN, in the working state and in the registers of an earlier operation. -/
theorem witness_ResultDependsOnInputAlone :
    State.reset.Undisturbed ∧ (State.reset.takeError .malformedHeader 7 0).Undisturbed ∧
    ((State.reset.takeError .malformedHeader 7 0).writeIn 9 0x41).Undisturbed ∧
    State.reset.params = ((State.reset.takeError .malformedHeader 7 0).writeIn 9 0x41).params ∧
    State.reset.inLen = ((State.reset.takeError .malformedHeader 7 0).writeIn 9 0x41).inLen ∧
    State.reset.nextInput = ((State.reset.takeError .malformedHeader 7 0).writeIn 9 0x41).nextInput ∧
    State.reset.params.deflateAttached = false ∧
    ({ State.reset with params := { vectorParams with deflateAttached := true } }).params.deflateAttached = true := by
  decide

theorem witness_HuffmanRoundTrip : ([0x41, 0x42] : List Byte).length ≤ 2 ^ 32 - 1 := by decide

set_option maxRecDepth 20000 in
theorem witness_HuffmanOutputLength :
    (freqTable []).symbols.length ≤ 1 ∧ 2 ≤ (freqTable [0x41, 0x42]).symbols.length := by decide

theorem witness_RleOutputBound : ∀ j, j + 1 < ([1, 2, 3] : List Byte).length → ([1, 2, 3] : List Byte)[j]? ≠ ([1, 2, 3] : List Byte)[j + 1]? := by
  intro j h
  have : j = 0 ∨ j = 1 := by simp at h; omega
  rcases this with rfl | rfl <;> decide

theorem witness_LzOutputBound :
    (∀ b ∈ ([0x80, 0x81, 0x82, 0x83] : List Byte), 0x80 ≤ b.toNat) ∧
    ∀ i j, i < j → j + 3 ≤ ([0x80, 0x81, 0x82, 0x83] : List Byte).length →
      (([0x80, 0x81, 0x82, 0x83] : List Byte).drop i).take 3 ≠ (([0x80, 0x81, 0x82, 0x83] : List Byte).drop j).take 3 := by
  refine ⟨by decide, ?_⟩
  intro i j hij hj
  have : i = 0 ∧ j = 1 := by simp at hj; omega
  obtain ⟨rfl, rfl⟩ := this
  decide

theorem witness_RleEncoderBlocks :
    ([0x41] : List Byte) ≠ [] ∧ ([0x41, 0x41] : List Byte)[0]? = ([0x41, 0x41] : List Byte)[1]? ∧
    ([0x41] : List Byte)[0]? ≠ ([0x41] : List Byte)[1]? := by decide

theorem witness_LzEncoderTokens :
    (DictOf [0x41] 0 [] ∧ ([0x41] : List Byte)[0]? = some 0x41 ∧ ¬ 3 ≤ (findMatch [0x41] [] 0).1) ∧
    (DictOf (List.replicate 4 0x41) 1 [(0x414141, [0])] ∧ (List.replicate 4 (0x41 : Byte))[1]? = some 0x41 ∧
      findMatch (List.replicate 4 0x41) [(0x414141, [0])] 1 = (3, 1)) := by
  refine ⟨⟨⟨rfl, ?_⟩, rfl, by decide⟩, ⟨rfl, ?_⟩, rfl, by decide⟩
  · intro key p h
    simp [Dict.bucket, Table.find] at h
  · intro key p h
    by_cases hk : 0x414141 = key
    · subst hk
      simp [Dict.bucket, Table.find] at h
      subst h
      decide
    · simp [Dict.bucket, Table.find, hk] at h

theorem witness_MatchFinderTakesTheBest :
    Table.risingFrom 0 ([(0x414141, [0, 1])] : Dict) = true ∧
    (Dict.bucket [(0x414141, [0, 1])] 0x414141).Pairwise (· < ·) ∧
    lzKey (List.replicate 6 0x41) 2 = some 0x414141 ∧ 0 ∈ Dict.bucket [(0x414141, [0, 1])] 0x414141 ∧
    0 < 2 ∧ 2 - 0 ≤ 4095 ∧ (List.replicate 6 (0x41 : Byte))[2]? = some 0x41 ∧
    (List.replicate 6 (0x41 : Byte))[4]? = some 0x41 ∧ ([0x41, 0x41] : List Byte).length < 0 + 3 := by decide

theorem witness_PruningChangesNoMatch :
    Table.risingFrom 0 ([(0x414141, [0, 1])] : Dict) = true ∧ 0 ≤ 0 ∧
    3 ≤ ([0x41, 0x41, 0x41] : List Byte).length - 0 ∧ lzKey [0x41, 0x41, 0x41] 0 = some 0x414141 := by decide

theorem witness_NodeOrderIsStrictAndTotal :
    (Node.mk (.leaf 1) 1 0).before ⟨.leaf 2, 1, 0⟩ = true ∧ (Node.mk (.leaf 2) 1 0).before ⟨.internal 0 1, 1, 2⟩ = true ∧
    (Node.mk (.leaf 0x41) 1 0) ∈ (buildTree (freqTable [0x41, 0x42])).1 ∧
    (Node.mk (.leaf 0x42) 1 1) ∈ (buildTree (freqTable [0x41, 0x42])).1 ∧
    (Node.mk (.leaf 0x41) 1 0) ≠ ⟨.leaf 0x42, 1, 1⟩ := by decide

set_option maxRecDepth 20000 in
theorem witness_TreeInvariants : 2 ≤ (freqTable [0x41, 0x42]).symbols.length := by decide

theorem witness_HeaderOrderDoesNotMatter :
    ([(0x41#8, 1#32), (0x42#8, 1#32)]).Perm [(0x42#8, 1#32), (0x41#8, 1#32)] ∧
    (([(0x41#8, 1#32), (0x42#8, 1#32)]).map Prod.fst).Nodup ∧
    ∀ e ∈ [(0x41#8, 1#32), (0x42#8, 1#32)], e.2 ≠ 0 := by
  refine ⟨List.Perm.swap _ _ _, by decide, ?_⟩
  intro e he
  simp at he
  rcases he with rfl | rfl <;> decide

theorem witness_SingleByteContainer : 1 ≤ 1 ∧ 1 ≤ 2 ^ 32 - 1 ∧ 2 ^ 32 - 1 ≤ 2 ^ 32 - 1 := by decide

theorem witness_BitWriterLayout :
    0 < [true].length ∧ [true].length ≤ 7 ∧ 7 < 8 * (Writer.empty.writeBits [true]).finish.length := by decide

end Sys2Proof.Tests
end

section
/-! PROOFS. What one step can do, said once: every next state comes from the state it took up by one of the effects
below. Every invariant of a step is derived from that. -/

namespace Sys2Proof.Machine

/-! ## The effects of a step -/

/-- The storage that 10_state.md R51, R52, R54 and R55 bound is the same: NODES, ACTIVE, the BitStream writer and reader,
and DICT. -/
structure Work.SameStorage (w w' : Work) : Prop where
  nodes : w'.nodes = w.nodes
  active : w'.active = w.active
  writer : w'.writer = w.writer
  reader : w'.reader = w.reader
  dict : w'.dict = w.dict

/-- What one turn of a running codec can do to the bounded storage. -/
inductive Work.StorageMove (w : Work) : Work → Prop
  | keep : w.StorageMove w
  /-- R203: the leaves are placed -/
  | placeLeaves : w.StorageMove w.placeLeaves
  /-- R205: one round of merging -/
  | merge : 1 < w.active.length →
      w.StorageMove { w with nodes := (mergeLeast w.nodes w.active).1, active := (mergeLeast w.nodes w.active).2 }
  /-- R151: the writer is initialised -/
  | startWriter : w.StorageMove { w with writer := Writer.empty }
  /-- R155: the reader is initialised -/
  | startReader : w.StorageMove { w with reader := Reader.start }
  /-- R211: one code word is written -/
  | writeBits (bits : List Bool) : w.StorageMove { w with writer := w.writer.writeBits bits }
  /-- R251: one code word is read -/
  | skipBits (p : List Byte) (k : Nat) : w.StorageMove { w with reader := Reader.skip p k w.reader }
  /-- R310: one token is emitted and its positions are registered -/
  | lzToken (d : List Byte) (v : Byte) : w.StorageMove { w with dict := (lzToken d w.dict w.cursor v).2.2 }

/-- Everything a step can do to the state it takes up, which is the state before with the inputs still to come. -/
inductive State.Effect (s : State) : State → Prop
  | nothing : s.Effect s
  | read (v : Word) : s.Effect (s.setBus v)
  /-- a read of OUT while BUSY -/
  | readFresh (v : Word) : s.busy = true → s.Effect (s.setBus v).freshOut
  | writeIn (a : Nat) (v : Byte) : s.busy = false → a < s.params.inCap → s.Effect (s.writeIn a v)
  | writeInLen (v : Word) : s.busy = false → s.Effect { s with inLen := v }
  | storeCommand (mode : Mode) (alg : BitVec 3) : s.busy = false → s.Effect { s with cmdAlg := alg, cmdMode := mode }
  | start (mode : Mode) (alg : BitVec 3) : s.busy = false → s.resetLine = false → s.Effect (s.started mode alg)
  | assertReset : s.Effect s.assertReset
  | releaseReset : s.Effect s.releaseReset
  | powerUp : s.Effect s.powerUp
  /-- the head of `execute` lets a codec begin (R362) -/
  | beginCodec (phase : Phase) : s.running = true → s.latch.alg.toNat < 3 → s.latch.len.toNat ≤ s.params.inCap →
      s.Effect (s.setWork (Work.init phase))
  /-- one turn of a codec past the head of `execute` -/
  | codecTurn (moved w : Work) : s.running = true → s.work.phase ≠ .dispatch → s.work.StorageMove moved →
      moved.SameStorage w → s.Effect (s.setWork w)
  /-- the operation ends (R370, R371) -/
  | complete (r : Result) : s.running = true → s.Effect (s.complete r)

theorem State.running_iff (s : State) : s.running = true ↔ s.busy = true ∧ s.resetLine = false := by
  simp [State.running]

/-! ## Instructions -/

/-- A command word does what its START bit says, with its own MODE and ALG (30_encoding.md R111, R112). -/
theorem exec_decodeCommand (v : Word) (s : State) :
    exec (decodeCommand v) s = .next (if cmdStartField v then s.startCommand (cmdModeField v) (cmdAlgField v)
      else s.storeCommand (cmdModeField v) (cmdAlgField v)) := by
  have reserved : ∀ alg : BitVec 3, alg ≠ 0 → alg ≠ 1 → alg ≠ 2 → alg ≠ 3 → reservedAlg (alg.extractLsb' 0 2) = alg := by
    decide
  unfold decodeCommand
  generalize cmdModeField v = mode
  generalize cmdAlgField v = alg
  cases cmdStartField v with
  | false => rfl
  | true =>
    by_cases h0 : alg = 0
    · subst h0; cases mode <;> rfl
    by_cases h1 : alg = 1
    · subst h1; cases mode <;> rfl
    by_cases h2 : alg = 2
    · subst h2; cases mode <;> rfl
    by_cases h3 : alg = 3
    · subst h3; cases mode <;> rfl
    simp only [if_true, if_neg h0, if_neg h1, if_neg h2, if_neg h3]
    rw [exec, execUnsup, reserved alg h0 h1 h2 h3]

theorem State.startCommand_effect (s : State) (mode : Mode) (alg : BitVec 3) (hr : s.resetLine = false) :
    s.Effect (s.startCommand mode alg) := by
  obtain ⟨-, h⟩ | ⟨hb, h⟩ := s.startCommand_cases mode alg <;> rw [h]
  · exact .nothing
  · exact .start mode alg hb hr

theorem State.storeCommand_effect (s : State) (mode : Mode) (alg : BitVec 3) : s.Effect (s.storeCommand mode alg) := by
  obtain ⟨-, h⟩ | ⟨hb, h⟩ := s.storeCommand_cases mode alg <;> rw [h]
  · exact .nothing
  · exact .storeCommand mode alg hb

theorem State.writeInLen_effect (s : State) (v : Word) : s.Effect (s.writeInLen v) := by
  unfold State.writeInLen
  cases hb : s.busy
  · exact .writeInLen v hb
  · exact .nothing

theorem exec_decodeCommand_effect {s t : State} {v : Word} (hr : s.resetLine = false)
    (h : exec (decodeCommand v) s = .next t) : s.Effect t := by
  rw [exec_decodeCommand] at h
  cases h
  split
  · exact s.startCommand_effect _ _ hr
  · exact s.storeCommand_effect _ _

section CodecTurn

variable {s t : State}

/-- A codec's turn that leaves the bounded storage alone. -/
theorem State.Effect.keepStorage {w : Work} (hr : s.running = true) (hp : s.work.phase ≠ .dispatch)
    (hw : s.work.SameStorage w) : s.Effect (s.setWork w) :=
  .codecTurn s.work w hr hp .keep hw

theorem State.emit_effect (bytes : List Byte) (used : Nat) (hr : s.running = true) (hp : s.work.phase ≠ .dispatch) :
    s.Effect (s.emit bytes used) :=
  .keepStorage hr hp ⟨rfl, rfl, rfl, rfl, rfl⟩

theorem State.raise_effect (kind : ErrorKind) (pos count : Nat) (hr : s.running = true) :
    s.Effect (s.raise kind pos count) :=
  .complete (.err kind pos count) hr

theorem lzBackRef_effect {len off : Nat} (hr : s.running = true) (hp : s.work.phase ≠ .dispatch)
    (h : lzBackRef len off s = .next t) : s.Effect t := by
  obtain ⟨-, he⟩ | ⟨-, -, he⟩ := lzBackRef_cases len off s <;> cases he.symm.trans h
  · exact s.raise_effect _ _ _ hr
  · exact .keepStorage hr hp ⟨rfl, rfl, rfl, rfl, rfl⟩

theorem execHufHdrCount_effect {count : BitVec 16} (hr : s.running = true) (hp : s.work.phase ≠ .dispatch)
    (h : execHufHdrCount count s = .next t) : s.Effect t := by
  unfold execHufHdrCount at h
  simp only at h
  split at h
  · split at h <;> cases h
    · exact s.raise_effect _ _ _ hr
    · exact .complete (.ok []) hr
  · split at h
    · cases h
      exact s.raise_effect _ _ _ hr
    · split at h <;> cases h
      · exact s.raise_effect _ _ _ hr
      · exact .keepStorage hr hp ⟨rfl, rfl, rfl, rfl, rfl⟩

theorem execHufHdrEntry_effect {value : Byte} {freq : Word} (hr : s.running = true) (hp : s.work.phase ≠ .dispatch)
    (h : execHufHdrEntry value freq s = .next t) : s.Effect t := by
  unfold execHufHdrEntry at h
  split at h <;> cases h
  · exact s.raise_effect _ _ _ hr
  · exact .keepStorage hr hp ⟨rfl, rfl, rfl, rfl, rfl⟩

theorem execHufCode_effect {path : List Bool} (hr : s.running = true) (hp : s.work.phase ≠ .dispatch)
    (h : execHufCode path s = .next t) : s.Effect t := by
  unfold execHufCode at h
  split at h <;> cases h
  · exact .codecTurn _ _ hr hp (.skipBits s.payload path.length) ⟨rfl, rfl, rfl, rfl, rfl⟩
  · exact s.raise_effect _ _ _ hr
  · exact s.raise_effect _ _ _ hr

/-- An instruction that the engine runs past the head of `execute`. The engine decodes no command word; one that it ran
would be ignored, since the block is BUSY (R360). -/
theorem exec_effect {i : Instr} (hr : s.running = true) (hp : s.work.phase ≠ .dispatch) (h : exec i s = .next t) :
    s.Effect t := by
  have reset := (s.running_iff.mp hr).2
  cases i with
  | rleC => cases h; exact s.startCommand_effect _ _ reset
  | rleD => cases h; exact s.startCommand_effect _ _ reset
  | hufC => cases h; exact s.startCommand_effect _ _ reset
  | hufD => cases h; exact s.startCommand_effect _ _ reset
  | lzC => cases h; exact s.startCommand_effect _ _ reset
  | lzD => cases h; exact s.startCommand_effect _ _ reset
  | defC => cases h; exact s.startCommand_effect _ _ reset
  | defD => cases h; exact s.startCommand_effect _ _ reset
  | unsup mode algLow => cases h; exact s.startCommand_effect _ _ reset
  | cmdStore mode alg => cases h; exact s.storeCommand_effect _ _
  | rleRun len value => cases h; exact s.emit_effect _ _ hr hp
  | rleLit len raw => cases h; exact s.emit_effect _ _ hr hp
  | lzLit value => cases h; exact s.emit_effect _ _ hr hp
  | lzEsc value => cases h; exact s.emit_effect _ _ hr hp
  | lzMatch3s offset => exact lzBackRef_effect hr hp h
  | lzMatch len offHi offLo => exact lzBackRef_effect hr hp h
  | hufHdrCount count => exact execHufHdrCount_effect hr hp h
  | hufHdrEntry value freq => exact execHufHdrEntry_effect hr hp h
  | hufCode path => exact execHufCode_effect hr hp h

/-! ## The engine -/

theorem dispatchStep_effect (hr : s.running = true) (h : dispatchStep s = .next t) : s.Effect t := by
  obtain he | ⟨-, -, he⟩ | ⟨-, -, he⟩ | ⟨halg, hlen, he⟩ := dispatchStep_cases s <;> cases he.symm.trans h
  · exact s.raise_effect _ _ _ hr
  · exact s.raise_effect _ _ _ hr
  · exact .beginCodec _ hr halg hlen

theorem rleCStep_effect (hr : s.running = true) (hp : s.work.phase ≠ .dispatch) (h : rleCStep s = .next t) :
    s.Effect t := by
  unfold rleCStep at h
  split at h <;> cases h
  · exact s.emit_effect _ _ hr hp
  · exact .complete _ hr

theorem hufCountStep_effect (hr : s.running = true) (hp : s.work.phase ≠ .dispatch) (h : hufCountStep s = .next t) :
    s.Effect t := by
  unfold hufCountStep at h
  split at h
  · cases h
    exact .keepStorage hr hp ⟨rfl, rfl, rfl, rfl, rfl⟩
  · split at h <;> cases h
    · exact .complete _ hr
    · exact .codecTurn _ _ hr hp .placeLeaves ⟨rfl, rfl, rfl, rfl, rfl⟩

theorem hufMergeStep_effect (hr : s.running = true) (hp : s.work.phase ≠ .dispatch) (h : hufMergeStep s = .next t) :
    s.Effect t := by
  unfold hufMergeStep at h
  split at h
  next more =>
    cases h
    exact .codecTurn _ _ hr hp (.merge more) ⟨rfl, rfl, rfl, rfl, rfl⟩
  next =>
    split at h <;> cases h
    · exact .codecTurn _ _ hr hp .startWriter ⟨rfl, rfl, rfl, rfl, rfl⟩
    · exact .codecTurn _ _ hr hp .startReader ⟨rfl, rfl, rfl, rfl, rfl⟩

theorem hufEncodeStep_effect (hr : s.running = true) (hp : s.work.phase ≠ .dispatch) (h : hufEncodeStep s = .next t) :
    s.Effect t := by
  unfold hufEncodeStep at h
  split at h <;> cases h
  · exact .codecTurn _ _ hr hp (.writeBits _) ⟨rfl, rfl, rfl, rfl, rfl⟩
  · exact .complete _ hr

theorem hufHeaderDone_effect (hr : s.running = true) (hp : s.work.phase ≠ .dispatch) (h : hufHeaderDone s = .next t) :
    s.Effect t := by
  unfold hufHeaderDone at h
  split at h
  · split at h <;> cases h
    · exact s.raise_effect _ _ _ hr
    · exact .complete _ hr
  · cases h
    exact .codecTurn _ _ hr hp .placeLeaves ⟨rfl, rfl, rfl, rfl, rfl⟩

theorem lzCStep_effect (hr : s.running = true) (hp : s.work.phase ≠ .dispatch) (h : lzCStep s = .next t) :
    s.Effect t := by
  unfold lzCStep at h
  split at h <;> cases h
  next v _ => exact .codecTurn _ _ hr hp (.lzToken s.input v) ⟨rfl, rfl, rfl, rfl, rfl⟩
  next => exact .complete _ hr

theorem State.decodeFailed_effect (e : DecodeError) (hr : s.running = true) : s.Effect (s.decodeFailed e) := by
  obtain ⟨kind, pos, count, he⟩ := s.decodeFailed_takes e
  rw [he]
  exact s.raise_effect kind pos count hr

theorem State.engineWork_effect (hr : s.running = true) (h : s.engineWork = .next t) : s.Effect t := by
  by_cases hp : s.work.phase = .dispatch
  · exact dispatchStep_effect hr (by simpa only [State.engineWork, hp] using h)
  · cases phase : s.work.phase <;> simp only [State.engineWork, phase] at h
    case dispatch => exact absurd phase hp
    case rleC => exact rleCStep_effect hr hp h
    case rleD => cases h; exact .complete _ hr
    case hufCount => exact hufCountStep_effect hr hp h
    case hufMerge => exact hufMergeStep_effect hr hp h
    case hufEncode => exact hufEncodeStep_effect hr hp h
    case hufHeader => cases h; exact s.decodeFailed_effect _ hr
    case hufEntries => exact hufHeaderDone_effect hr hp h
    case hufPayload => cases h; exact .complete _ hr
    case lzC => exact lzCStep_effect hr hp h
    case lzD => cases h; exact .complete _ hr

/-- The engine decodes only past the head of `execute`. -/
theorem State.phase_of_source {src : Source} (h : s.source = some src) : s.work.phase ≠ .dispatch := by
  intro hp
  simp [State.source, hp] at h

end CodecTurn

/-! ## The step -/

/-- The answer that the step gives to what it chose. -/
def Next.outcome : Next → Answer
  | .run i s => exec i s
  | .answer a => a

theorem step_eq_outcome (s : State) : step s = s.select.outcome := by
  unfold step
  cases s.select <;> rfl

section Step

variable {s t : State}

theorem State.engineTurn_effect (h : s.engineTurn.outcome = .next t) : s.Effect t := by
  obtain ⟨-, he⟩ | ⟨hr, -, he⟩ | ⟨src, i, hr, hs, -, he⟩ | ⟨src, e, hr, -, -, he⟩ := s.engineTurn_cases <;>
    rw [he] at h
  · cases h; exact .nothing
  · exact State.engineWork_effect hr h
  · exact exec_effect hr (State.phase_of_source hs) h
  · cases h; exact s.decodeFailed_effect e hr

theorem State.hostRead_effect (s : State) (sp : Space) (offset : Nat) : s.Effect (s.hostRead sp offset) := by
  cases sp with
  | reg => exact .read _
  | inBuf => exact .read _
  | outBuf =>
    cases hb : s.busy
    · simpa [State.hostRead, hb] using State.Effect.read _
    · simpa [State.hostRead, hb] using State.Effect.readFresh _ hb

theorem State.hostWriteReg_effect {r : RegName} {v : Word} (hr : s.resetLine = false)
    (h : (s.hostWriteReg r v).outcome = .next t) : s.Effect t := by
  cases r with
  | cmd => exact exec_decodeCommand_effect hr h
  | inLen => cases h; exact s.writeInLen_effect v
  | status => cases h; exact .nothing
  | errCode => cases h; exact .nothing
  | errPos => cases h; exact .nothing
  | errCount => cases h; exact .nothing
  | outLen => cases h; exact .nothing
  | inCapR => cases h; exact .nothing
  | outCapR => cases h; exact .nothing
  | reserved => cases h; exact .nothing

theorem State.hostWrite_effect {sp : Space} {offset : Nat} {v : Word} (hin : sp = .inBuf → offset < s.params.inCap)
    (h : (s.hostWrite sp offset v).outcome = .next t) : s.Effect t := by
  cases hr : s.resetLine with
  | true =>
    simp only [State.hostWrite, hr, if_true, Next.outcome] at h
    cases h
    exact .nothing
  | false =>
    simp only [State.hostWrite, hr, Bool.false_eq_true, if_false] at h
    cases sp with
    | reg => exact State.hostWriteReg_effect hr h
    | inBuf =>
      cases hb : s.busy <;> simp only [hb, if_true, Bool.false_eq_true, if_false, Next.outcome] at h <;> cases h
      exact .writeIn offset _ hb (hin rfl)
    | outBuf => cases h; exact .nothing

/-- An admitted access to IN is inside its capacity (20_memory.md R84). -/
theorem offset_lt_inCap_of_admits {p : Params} {a : Access} (ha : admits p a = true) (hsp : a.space = .inBuf) :
    a.offset < p.inCap := by
  have hboth : a.width = 8 ∧ a.offset < p.inCap := by simpa [admits, hsp] using ha
  exact hboth.2

theorem State.hostAccess_effect {a : Access} (h : (s.hostAccess a).outcome = .next t) : s.Effect t := by
  unfold State.hostAccess at h
  split at h
  next ha =>
    split at h
    · cases h; exact s.hostRead_effect _ _
    · exact State.hostWrite_effect (offset_lt_inCap_of_admits ha) h
  next => cases h

theorem State.take_effect {i : Input} (h : (s.take i).outcome = .next t) : s.Effect t := by
  cases i with
  | access a => exact State.hostAccess_effect h
  | bus address width op =>
    simp only [State.take] at h
    split at h
    · exact State.hostAccess_effect h
    · cases h
  | turn => exact State.engineTurn_effect h
  | resetAssert => cases h; exact .assertReset
  | resetRelease => cases h; exact .releaseReset
  | powerUp => cases h; exact .powerUp

/-- Every next state is an effect on the state with the inputs still to come. -/
theorem step_effect (h : step s = .next t) : ∃ rest, (s.setInputs rest).Effect t := by
  rw [step_eq_outcome, State.select] at h
  split at h
  · exact ⟨s.inputs, State.engineTurn_effect h⟩
  · exact ⟨_, State.take_effect h⟩

end Step

end Sys2Proof.Machine
end

section
/-! PROOFS. The invariant of the host-visible state and the parameters (00_scope.md R8). -/

namespace Sys2Proof.Machine

section

variable {s t : State}

/-! ## The parameters -/

@[simp] theorem State.complete_params (s : State) (r : Result) : (s.complete r).params = s.params := by
  obtain ⟨out, -, -, h⟩ | ⟨out, -, -, h⟩ | ⟨kind, pos, count, -, h⟩ := s.complete_cases r <;> rw [h] <;> rfl

theorem State.Effect.params_eq (e : s.Effect t) : t.params = s.params := by
  cases e with
  | complete r _ => exact s.complete_params r
  | _ => rfl

/-! ## Results -/

/-- The code of an error is one of 1 to 6 (60_exceptions.md R400). -/
theorem ErrorKind.code_range (kind : ErrorKind) : 1 ≤ kind.code.toNat ∧ kind.code.toNat ≤ 6 := by
  cases kind <;> decide

@[simp] theorem State.takeError_busy (s : State) (kind : ErrorKind) (pos count : Nat) :
    (s.takeError kind pos count).busy = false := by simp [State.busy, statusError]

@[simp] theorem State.completeOk_busy (s : State) (out : List Byte) : (s.completeOk out).busy = false := by
  simp [State.busy, statusDone]

@[simp] theorem State.resetRegs_busy (s : State) : s.resetRegs.busy = false := by
  simp [State.busy, State.resetRegs, statusIdle]

/-! ## The invariant -/

theorem State.Inv.takeError (h : s.Inv) (hr : s.resetLine = false) (kind : ErrorKind) (pos count : Nat) :
    (s.takeError kind pos count).Inv :=
  { h with
    outWf := rfl
    outLayout := rfl
    outLen := rfl
    outBelow := Nat.zero_le _
    status := .inr (.inr (.inr rfl))
    noError := fun hne => absurd rfl hne
    anError := fun _ => kind.code_range
    noOutput := fun _ => rfl
    resetIdle := fun h1 => absurd (hr.symm.trans h1) Bool.false_ne_true
    checked := fun hb => absurd hb (by simp) }

theorem State.Inv.completeOk (h : s.Inv) (hr : s.resetLine = false) {out : List Byte}
    (hout : out.length ≤ s.params.outCap) : (s.completeOk out).Inv :=
  { h with
    outWf := Memory.layout_wf 0 out
    outLayout := by simp
    outLen := by
      obtain ⟨-, -, -, hcap⟩ := h.params
      simp only [State.completeOk_outMem, State.completeOk_outLen, Memory.layout_length, BitVec.toNat_ofNat]
      omega
    outBelow := by simpa using hout
    status := .inr (.inr (.inl rfl))
    noError := fun _ => ⟨rfl, rfl, rfl⟩
    anError := fun he => absurd he (by decide : statusDone ≠ 4)
    noOutput := fun hne => absurd rfl hne
    resetIdle := fun h1 => absurd (hr.symm.trans h1) Bool.false_ne_true
    checked := fun hb => absurd hb (by simp) }

theorem State.Inv.complete (h : s.Inv) (hr : s.resetLine = false) (r : Result) : (s.complete r).Inv := by
  obtain ⟨out, -, hout, he⟩ | ⟨out, -, -, he⟩ | ⟨kind, pos, count, -, he⟩ := s.complete_cases r <;> rw [he]
  · exact h.completeOk hr hout
  · exact h.takeError hr _ _ _
  · exact h.takeError hr _ _ _

theorem State.Inv.started (h : s.Inv) (hr : s.resetLine = false) (mode : Mode) (alg : BitVec 3) :
    (s.started mode alg).Inv :=
  { h with
    outWf := rfl
    outLayout := rfl
    outLen := rfl
    outBelow := Nat.zero_le _
    status := .inr (.inl rfl)
    noError := fun _ => ⟨rfl, rfl, rfl⟩
    anError := fun he => absurd he (by decide : statusBusy ≠ 4)
    noOutput := fun _ => rfl
    resetIdle := fun h1 => absurd (hr.symm.trans h1) Bool.false_ne_true
    checked := fun _ hp => absurd rfl hp }

theorem State.Inv.resetRegs (h : s.Inv) : s.resetRegs.Inv :=
  { h with
    outWf := rfl
    outLayout := rfl
    outLen := rfl
    outBelow := Nat.zero_le _
    status := .inl rfl
    noError := fun _ => ⟨rfl, rfl, rfl⟩
    anError := fun he => absurd he (by decide : statusIdle ≠ 4)
    noOutput := fun _ => rfl
    resetIdle := fun _ => rfl
    checked := fun hb => absurd hb (by simp) }

theorem State.Inv.effect (h : s.Inv) (e : s.Effect t) : t.Inv := by
  cases e with
  | nothing => exact h
  | read v => exact { h with }
  | readFresh v _ => exact { h with }
  | writeIn a v _ ha => exact { h with inWf := Memory.put_wf a v _ h.inWf, inBelow := Memory.put_below v ha h.inBelow }
  | writeInLen v _ => exact { h with }
  | storeCommand mode alg _ => exact { h with }
  | start mode alg _ hr => exact h.started hr mode alg
  | assertReset => exact { h.resetRegs with resetIdle := fun _ => rfl }
  | releaseReset => exact { h with resetIdle := fun h1 => absurd h1 Bool.false_ne_true }
  | powerUp =>
    exact { h.resetRegs with inWf := rfl, inBelow := rfl, resetIdle := fun h1 => absurd h1 Bool.false_ne_true }
  | beginCodec phase _ halg hlen => exact { h with checked := fun _ _ => ⟨halg, hlen⟩ }
  | codecTurn moved w _ hp _ _ => exact { h with checked := fun hb _ => h.checked hb hp }
  | complete r hr => exact h.complete (s.running_iff.mp hr).2 r

theorem State.Inv.setInputs (h : s.Inv) (rest : List Input) : (s.setInputs rest).Inv := { h with }

end

/-- Settles O23: the inputs are no part of the invariant, and every effect of a step keeps it. -/
theorem stepKeepsTheInvariant : Obligations.StepKeepsTheInvariant := by
  intro s t h hstep
  obtain ⟨rest, e⟩ := step_effect hstep
  exact (h.setInputs rest).effect e

/-- Settles O19: no effect of a step changes a parameter, and IN_CAP_R and OUT_CAP_R read the parameters. -/
theorem parametersNeverChange : Obligations.ParametersNeverChange := by
  intro s t hstep
  obtain ⟨rest, e⟩ := step_effect hstep
  have hp : t.params = s.params := e.params_eq
  exact ⟨hp, by rw [State.readReg, State.readReg, hp], by rw [State.readReg, State.readReg, hp]⟩

end Sys2Proof.Machine
end

section
/-! PROOFS. The working storage stays inside the sizes the spec gives it (10_state.md R51, R52, R54, R55). -/

namespace Sys2Proof.Machine

/-! ## Leaves (42_huffman_encoder.md R203) -/

theorem insertNode_perm (x : Node) (l : List Node) : (insertNode x l).Perm (x :: l) := by
  induction l with
  | nil => exact .refl _
  | cons y ys ih =>
    unfold insertNode
    split
    · exact .refl _
    · exact (ih.cons y).trans (.swap x y ys)

theorem foldr_insertNode_perm (l : List Node) : (l.foldr insertNode []).Perm l := by
  induction l with
  | nil => exact .refl _
  | cons x xs ih => exact (insertNode_perm x _).trans (ih.cons x)

/-- Numbering changes no frequency. -/
theorem map_freq_numberNodes (k : Nat) (l : List Node) : (numberNodes k l).map Node.freq = l.map Node.freq := by
  induction l generalizing k with
  | nil => rfl
  | cons x xs ih => simp [numberNodes, ih]

/-- The leaves carry the frequencies of the distinct bytes. -/
theorem map_freq_leaves_perm (t : FreqTable) :
    ((leaves t).map Node.freq).Perm (t.symbols.map fun v => (t.at v).toNat) := by
  rw [leaves, map_freq_numberNodes]
  simpa [Function.comp_def] using (foldr_insertNode_perm (t.symbols.map fun v => ⟨.leaf v, (t.at v).toNat, 0⟩)).map Node.freq

theorem length_leaves (t : FreqTable) : (leaves t).length = t.symbols.length := by
  simpa using (map_freq_leaves_perm t).length_eq

theorem length_symbols_le (t : FreqTable) : t.symbols.length ≤ 256 := by
  simpa [FreqTable.symbols] using
    List.length_filter_le (fun v => t.at v != 0) ((List.range 256).map (BitVec.ofNat 8))

theorem length_leaves_le (t : FreqTable) : (leaves t).length ≤ 256 :=
  (length_leaves t).trans_le (length_symbols_le t)

theorem freq_le_of_mem_leaves {t : FreqTable} {n : Node} (h : n ∈ leaves t) : n.freq ≤ 2 ^ 32 - 1 := by
  have hmem : n.freq ∈ t.symbols.map fun v => (t.at v).toNat :=
    (map_freq_leaves_perm t).mem_iff.mp (List.mem_map_of_mem h)
  obtain ⟨v, -, hv⟩ := List.mem_map.mp hmem
  have := (t.at v).isLt
  omega

/-! ## Frequencies of active nodes -/

/-- A bound on the nodes of the arena bounds every index, one outside the arena included. -/
theorem nodeFreq_le {nodes : List Node} {b : Nat} (h : ∀ n ∈ nodes, n.freq ≤ b) (x : Nat) : nodeFreq nodes x ≤ b := by
  unfold nodeFreq
  split
  next n hn => exact h n (List.mem_of_getElem? hn)
  next => exact Nat.zero_le b

theorem activeSum_le {nodes : List Node} {b : Nat} (h : ∀ n ∈ nodes, n.freq ≤ b) (active : List Nat) :
    activeSum nodes active ≤ active.length * b := by
  simpa [activeSum] using List.sum_le_card_nsmul (active.map (nodeFreq nodes)) b (by
    simpa using fun x _ => nodeFreq_le h x)

/-- A node added at the end of the arena leaves the frequency of every other index alone. -/
theorem nodeFreq_append_of_lt {nodes : List Node} {x : Nat} (n : Node) (h : x < nodes.length) :
    nodeFreq (nodes ++ [n]) x = nodeFreq nodes x := by
  rw [nodeFreq, List.getElem?_append_left h, nodeFreq]

theorem nodeFreq_append_self (nodes : List Node) (n : Node) : nodeFreq (nodes ++ [n]) nodes.length = n.freq := by
  simp [nodeFreq]

theorem activeSum_perm {nodes : List Node} {xs ys : List Nat} (h : xs.Perm ys) :
    activeSum nodes xs = activeSum nodes ys :=
  (h.map _).sum_eq

theorem activeSum_append_of_lt {nodes : List Node} {xs : List Nat} (n : Node) (h : ∀ x ∈ xs, x < nodes.length) :
    activeSum (nodes ++ [n]) xs = activeSum nodes xs :=
  congrArg List.sum (List.map_congr_left fun x hx => nodeFreq_append_of_lt n (h x hx))

/-! ## Merging (R205) -/

/-- The node that one round of merging creates. -/
def mergedNode (nodes : List Node) (a b : Nat) : Node where
  kind := .internal a b
  freq := nodeFreq nodes a + nodeFreq nodes b
  seq := nodes.length

/-- One round of merging appends the new node to the arena. -/
theorem mergeLeast_nodes (nodes : List Node) (a b : Nat) (rest : List Nat) :
    (mergeLeast nodes (a :: b :: rest)).1 = nodes ++ [mergedNode nodes a b] := rfl

/-- One round of merging replaces the two least active nodes by the new one, wherever it enters. -/
theorem mergeLeast_active_perm (nodes : List Node) (a b : Nat) (rest : List Nat) :
    (mergeLeast nodes (a :: b :: rest)).2.Perm (nodes.length :: rest) := by
  simp only [mergeLeast]
  exact List.perm_middle.trans (by rw [List.take_append_drop])

theorem mergeLeast_activeSum {nodes : List Node} {a b : Nat} {rest : List Nat} (h : ∀ x ∈ rest, x < nodes.length) :
    activeSum (mergeLeast nodes (a :: b :: rest)).1 (mergeLeast nodes (a :: b :: rest)).2 =
      activeSum nodes (a :: b :: rest) := by
  have hrest := activeSum_append_of_lt (mergedNode nodes a b) h
  rw [activeSum_perm (mergeLeast_active_perm nodes a b rest), mergeLeast_nodes]
  simp only [activeSum, List.map_cons, List.sum_cons, nodeFreq_append_self] at hrest ⊢
  rw [hrest, mergedNode, Nat.add_assoc]

/-! ## Bit counters (40_bitstream.md R150, R154) -/

theorem Writer.writeBit_nbits_lt {wr : Writer} (b : Bool) (h : wr.nbits < 8) : (wr.writeBit b).nbits < 8 := by
  simp only [Writer.writeBit]
  split
  · exact Nat.zero_lt_succ 7
  · show wr.nbits + 1 < 8
    omega

theorem Writer.writeBits_nbits_lt {wr : Writer} (bits : List Bool) (h : wr.nbits < 8) :
    (wr.writeBits bits).nbits < 8 := by
  unfold Writer.writeBits
  induction bits generalizing wr with
  | nil => exact h
  | cons b bs ih => exact ih (wr.writeBit_nbits_lt b h)

theorem Reader.readBit_rbit_lt {p : List Byte} {r r' : Reader} {b : Bool} (h : r.rbit < 8)
    (hread : r.readBit p = some (b, r')) : r'.rbit < 8 := by
  unfold Reader.readBit at hread
  split at hread
  · cases hread
  · cases hread
    split
    · exact Nat.zero_lt_succ 7
    · show r.rbit + 1 < 8
      omega

theorem Reader.skip_rbit_lt (p : List Byte) (k : Nat) {r : Reader} (h : r.rbit < 8) :
    (Reader.skip p k r).rbit < 8 := by
  induction k generalizing r with
  | zero => exact h
  | succ k ih =>
    unfold Reader.skip
    split
    · exact h
    next hread => exact ih (Reader.readBit_rbit_lt h hread)

/-! ## Dictionary (45_lz77_encoder.md R314) -/

theorem lookupDict_rising (d : List Byte) {dict : Dict} (i : Nat) (h : Table.risingFrom 0 dict = true) :
    Table.risingFrom 0 (lookupDict d dict i) = true := by
  unfold lookupDict
  split
  · exact h
  · exact Dict.prune_rising i h

theorem lzToken_rising (d : List Byte) {dict : Dict} (i : Nat) (v : Byte) (h : Table.risingFrom 0 dict = true) :
    Table.risingFrom 0 (lzToken d dict i v).2.2 = true := by
  have looked := lookupDict_rising d i h
  simp only [lzToken]
  split
  · exact Dict.registerRange_rising d i _ looked
  · exact Dict.registerRange_rising d i 1 looked

/-! ## The bounds -/

section

variable {w w' : Work} {s t : State}

theorem Work.init_bounded (phase : Phase) : (Work.init phase).Bounded := by
  constructor <;> simp [Work.init, Work.blank, activeSum, Table.risingFrom]

/-- The bounds speak of the bounded storage alone. -/
theorem Work.Bounded.of_sameStorage (h : w.Bounded) (e : w.SameStorage w') : w'.Bounded := by
  cases w
  cases w'
  obtain ⟨rfl, rfl, rfl, rfl, rfl⟩ := e
  exact { h with }

theorem Work.Bounded.placeLeaves (h : w.Bounded) : w.placeLeaves.Bounded :=
  have few : (leaves w.freq).length ≤ 256 := length_leaves_le w.freq
  { h with
    nodes := few.trans (by decide)
    active := by simpa using few
    arena := by
      simp only [Work.placeLeaves_nodes, Work.placeLeaves_active, List.length_range]
      omega
    rooted := by simp
    activeInside := by simp
    activeSum := by
      have bound := activeSum_le (fun _ => freq_le_of_mem_leaves (t := w.freq)) (List.range (leaves w.freq).length)
      rw [List.length_range] at bound
      exact bound.trans (Nat.mul_le_mul_right _ few)
    freqs := fun n hn => (freq_le_of_mem_leaves hn).trans_lt (by decide) }

/-- One round of merging keeps the bounds: the arena grows by the node that ACTIVE loses, and the new node's frequency is
part of the sum over ACTIVE, which the round does not change. -/
theorem Work.Bounded.merge (h : w.Bounded) (more : 1 < w.active.length) :
    Work.Bounded { w with
      nodes := (mergeLeast w.nodes w.active).1
      active := (mergeLeast w.nodes w.active).2 } := by
  obtain ⟨-, hactive, harena, -, hinside, hsum, hfreqs, hnbits, hrbit, hdict⟩ := h
  match hab : w.active with
  | [] => simp [hab] at more
  | [a] => simp [hab] at more
  | a :: b :: rest =>
    rw [hab] at hactive harena hinside hsum
    have hperm := mergeLeast_active_perm w.nodes a b rest
    have hlen := hperm.length_eq
    have hgrow : (mergeLeast w.nodes (a :: b :: rest)).1.length = w.nodes.length + 1 := by
      rw [mergeLeast_nodes, List.length_append, List.length_singleton]
    have hrest : ∀ x ∈ rest, x < w.nodes.length := fun x hx => hinside x (by simp [hx])
    have hmerged : (mergedNode w.nodes a b).freq ≤ Machine.activeSum w.nodes (a :: b :: rest) := by
      simp only [mergedNode, Machine.activeSum, List.map_cons, List.sum_cons]
      omega
    simp only [List.length_cons] at hactive harena hlen
    exact
      { nodes := by dsimp only; omega
        active := by dsimp only; omega
        arena := by dsimp only; omega
        rooted := fun _ => List.ne_nil_of_length_eq_add_one hlen
        activeInside := fun x hx => by
          obtain rfl | hx := List.mem_cons.mp (hperm.mem_iff.mp hx)
          · exact hgrow ▸ Nat.lt_succ_self _
          · exact hgrow ▸ Nat.lt_succ_of_lt (hrest x hx)
        activeSum := (mergeLeast_activeSum hrest).trans_le hsum
        freqs := fun n hn => by
          obtain hn | hn := List.mem_append.mp (mergeLeast_nodes w.nodes a b rest ▸ hn)
          · exact hfreqs n hn
          · rw [List.mem_singleton.mp hn]
            omega
        nbits := hnbits
        rbit := hrbit
        dict := hdict }

theorem Work.Bounded.storageMove (h : w.Bounded) (m : w.StorageMove w') : w'.Bounded := by
  cases m with
  | keep => exact h
  | placeLeaves => exact h.placeLeaves
  | merge more => exact h.merge more
  | startWriter => exact { h with nbits := Nat.zero_lt_succ 7 }
  | startReader => exact { h with rbit := Nat.zero_lt_succ 7 }
  | writeBits bits => exact { h with nbits := Writer.writeBits_nbits_lt bits h.nbits }
  | skipBits p k => exact { h with rbit := Reader.skip_rbit_lt p k h.rbit }
  | lzToken d v => exact { h with dict := lzToken_rising d _ v h.dict }

@[simp] theorem State.complete_work (s : State) (r : Result) : (s.complete r).work = s.work := by
  obtain ⟨out, -, -, h⟩ | ⟨out, -, -, h⟩ | ⟨kind, pos, count, -, h⟩ := s.complete_cases r <;> rw [h] <;> rfl

theorem Work.Bounded.effect (h : s.work.Bounded) (e : s.Effect t) : t.work.Bounded := by
  cases e with
  | start mode alg _ _ => exact { h with }
  | beginCodec phase _ _ _ => exact Work.init_bounded phase
  | codecTurn moved w _ _ m same => exact (h.storageMove m).of_sameStorage same
  | complete r _ => rwa [s.complete_work r]
  | _ => exact h

end

/-- Settles O25: only a codec's first turn and a codec's turn change the bounded storage, and both keep the bounds. -/
theorem stepKeepsStorageBounds : Obligations.StepKeepsStorageBounds := by
  intro s t h hstep
  obtain ⟨rest, e⟩ := step_effect hstep
  exact Work.Bounded.effect (s := s.setInputs rest) h e

end Sys2Proof.Machine
end

section
/-! PROOFS. One step, an input or a turn at a time: the lemma that says what the step is for each kind of input, and what
a host access does in each space. -/

namespace Sys2Proof.Machine

variable {s t : State} {rest : List Input}

/-! ## What a step takes up -/

theorem step_of_no_input (h : s.inputs = []) : step s = s.engineTurn.outcome := by
  rw [step_eq_outcome, State.select, h]

theorem step_of_input {i : Input} (h : s.inputs = i :: rest) : step s = ((s.setInputs rest).take i).outcome := by
  rw [step_eq_outcome, State.select, h]

theorem State.engineTurn_of_source {src : Source} {i : Instr} (hr : s.running = true) (hs : s.source = some src)
    (hd : decode src = .ok i) : s.engineTurn = .run i s := by
  simp [State.engineTurn, hr, hs, hd]

theorem State.engineTurn_of_not_running (hr : s.running = false) : s.engineTurn = .answer (.next s) := by
  simp [State.engineTurn, hr]

/-- The engine's turn right after START is the head of `execute` (47_dispatcher.md R362). -/
theorem State.engineTurn_of_dispatch (hr : s.running = true) (hp : s.work.phase = .dispatch) :
    s.engineTurn = .answer (dispatchStep s) := by
  simp [State.engineTurn, State.source, State.engineWork, hr, hp]

theorem step_of_dispatch (hr : s.running = true) (hi : s.inputs = []) (hp : s.work.phase = .dispatch) :
    step s = dispatchStep s := by
  rw [step_of_no_input hi, State.engineTurn_of_dispatch hr hp, Next.outcome]

/-! ## Host accesses -/

theorem step_of_read {sp : Space} {offset width : Nat} (h : s.inputs = .access ⟨sp, offset, width, .read⟩ :: rest)
    (ha : admits s.params ⟨sp, offset, width, .read⟩ = true) :
    step s = .next ((s.setInputs rest).hostRead sp offset) := by
  rw [step_of_input h, State.take, State.hostAccess, State.setInputs_params, if_pos ha, Next.outcome]

theorem step_of_write {sp : Space} {offset width : Nat} {v : Word}
    (h : s.inputs = .access ⟨sp, offset, width, .write v⟩ :: rest)
    (ha : admits s.params ⟨sp, offset, width, .write v⟩ = true) :
    step s = ((s.setInputs rest).hostWrite sp offset v).outcome := by
  rw [step_of_input h, State.take, State.hostAccess, State.setInputs_params, if_pos ha]

/-- A write of a register while reset is released (10_state.md R34 to R42). -/
theorem step_of_writeReg {offset : Nat} {v : Word} (h : s.inputs = .access ⟨.reg, offset, 32, .write v⟩ :: rest)
    (hoff : offset % 4 = 0 ∧ offset ≤ 0xFF) (hr : s.resetLine = false) :
    step s = ((s.setInputs rest).hostWriteReg (regAt offset) v).outcome := by
  rw [step_of_write h (by simpa [admits] using hoff)]
  simp [State.hostWrite, hr]

theorem step_of_cmdWrite {w : Word} (h : s.inputs = cmdWrite w :: rest) (hr : s.resetLine = false) :
    step s = exec (decodeCommand w) (s.setInputs rest) :=
  step_of_writeReg h (by decide) hr

/-! ## Registers by offset (10_state.md R33) -/

/-- From 0x24 on every offset is reserved (R42). -/
theorem regAt_of_reserved {offset : Nat} (h : 0x24 ≤ offset) : regAt offset = .reserved := by
  simp only [regAt, show offset ≠ 0x00 by omega, show offset ≠ 0x04 by omega, show offset ≠ 0x08 by omega,
    show offset ≠ 0x0C by omega, show offset ≠ 0x10 by omega, show offset ≠ 0x14 by omega,
    show offset ≠ 0x18 by omega, show offset ≠ 0x1C by omega, show offset ≠ 0x20 by omega, if_false]

/-- Only CMD and IN_LEN can be written, and they stand below 0x08. -/
theorem State.hostWriteReg_of_readOnly {offset : Nat} (v : Word) (h : 0x08 ≤ offset) :
    s.hostWriteReg (regAt offset) v = .answer (.next s) := by
  rw [regAt, if_neg (by omega), if_neg (by omega)]
  repeat' split
  all_goals rfl

theorem cmdRead_toNat (mode : Mode) (alg : BitVec 3) :
    (cmdRead mode alg).toNat = (if mode = .decompress then 8 else 0) + alg.toNat := by
  revert alg
  cases mode <;> decide

/-! ## Reads -/

/-- What a host read leaves as it was: everything but the bus and, while BUSY, the free values of OUT (log 5). -/
structure State.OnlyRead (s t : State) : Prop where
  params : t.params = s.params
  regs : ∀ r, t.readReg r = s.readReg r
  inMem : t.inMem = s.inMem
  inEpoch : t.inEpoch = s.inEpoch
  outMem : t.outMem = s.outMem
  outEpoch : s.busy = false → t.outEpoch = s.outEpoch
  latch : t.latch = s.latch
  work : t.work = s.work
  resetLine : t.resetLine = s.resetLine
  inputs : t.inputs = s.inputs

theorem State.setBus_onlyRead (s : State) (v : Word) : s.OnlyRead (s.setBus v) :=
  ⟨rfl, fun r => by cases r <;> rfl, rfl, rfl, rfl, fun _ => rfl, rfl, rfl, rfl, rfl⟩

theorem State.setBus_freshOut_onlyRead (v : Word) (hb : s.busy = true) : s.OnlyRead (s.setBus v).freshOut :=
  { s.setBus_onlyRead v with
    regs := fun r => by cases r <;> rfl
    outEpoch := fun h => absurd (hb.symm.trans h) (by decide) }

theorem State.hostRead_onlyRead (s : State) (sp : Space) (offset : Nat) : s.OnlyRead (s.hostRead sp offset) := by
  cases sp with
  | reg => exact s.setBus_onlyRead _
  | inBuf => exact s.setBus_onlyRead _
  | outBuf =>
    simp only [State.hostRead]
    split
    next hb => exact State.setBus_freshOut_onlyRead _ hb
    next => exact s.setBus_onlyRead _

theorem State.hostRead_outBuf_busData (s : State) (offset : Nat) :
    (s.hostRead .outBuf offset).busData = (s.readOut offset).setWidth 32 := by
  simp only [State.hostRead]
  split <;> rfl

/-- A reserved register reads 0 (10_state.md R42). -/
theorem State.hostRead_reserved {offset : Nat} (h : 0x24 ≤ offset) : (s.hostRead .reg offset).busData = 0 := by
  rw [State.hostRead, regAt_of_reserved h, State.setBus_busData, State.readReg]

/-! ## Writes -/

/-- What an admitted host write can do to the block; while BUSY it does nothing (10_state.md R34, R35, R46, R360). -/
inductive State.HostWrites (s : State) : State → Prop
  | nothing : s.HostWrites s
  | writeIn (a : Nat) (v : Byte) : s.busy = false → s.HostWrites (s.writeIn a v)
  | writeInLen (v : Word) : s.busy = false → s.HostWrites { s with inLen := v }
  | storeCommand (mode : Mode) (alg : BitVec 3) : s.busy = false →
      s.HostWrites { s with cmdAlg := alg, cmdMode := mode }
  | start (mode : Mode) (alg : BitVec 3) : s.busy = false → s.HostWrites (s.started mode alg)

/-- While BUSY a host write leaves the block as it is. -/
theorem State.HostWrites.eq_of_busy (h : s.HostWrites t) (hb : s.busy = true) : t = s := by
  have notIdle : s.busy ≠ false := by simp [hb]
  cases h with
  | nothing => rfl
  | writeIn _ _ hidle => exact absurd hidle notIdle
  | writeInLen _ hidle => exact absurd hidle notIdle
  | storeCommand _ _ hidle => exact absurd hidle notIdle
  | start _ _ hidle => exact absurd hidle notIdle

theorem State.writeInLen_of_idle (v : Word) (hb : s.busy = false) : s.writeInLen v = { s with inLen := v } := by
  simp [State.writeInLen, hb]

theorem State.writeInLen_of_busy (v : Word) (hb : s.busy = true) : s.writeInLen v = s := by
  simp [State.writeInLen, hb]

/-- A write to IN while BUSY is a fault of the host (70_reset_and_hazards.md R460, log 9). -/
theorem State.hostWrite_inBuf_of_busy (offset : Nat) (v : Word) (hr : s.resetLine = false) (hb : s.busy = true) :
    s.hostWrite .inBuf offset v = .answer (.fault .inWriteWhileBusy) := by
  simp [State.hostWrite, hr, hb]

theorem State.hostWrite_inBuf_of_idle (offset : Nat) (v : Word) (hr : s.resetLine = false) (hb : s.busy = false) :
    s.hostWrite .inBuf offset v = .answer (.next (s.writeIn offset (v.setWidth 8))) := by
  simp [State.hostWrite, hr, hb]

/-- The host cannot write OUT (10_state.md R46). -/
theorem State.hostWrite_outBuf (s : State) (offset : Nat) (v : Word) :
    s.hostWrite .outBuf offset v = .answer (.next s) := by
  rw [State.hostWrite, ite_self]

theorem exec_decodeCommand_hostWrites (v : Word) (s : State) :
    ∃ t, exec (decodeCommand v) s = .next t ∧ s.HostWrites t := by
  refine ⟨_, exec_decodeCommand v s, ?_⟩
  split
  · obtain ⟨-, h⟩ | ⟨hb, h⟩ := s.startCommand_cases (cmdModeField v) (cmdAlgField v) <;> rw [h]
    · exact .nothing
    · exact .start _ _ hb
  · obtain ⟨-, h⟩ | ⟨hb, h⟩ := s.storeCommand_cases (cmdModeField v) (cmdAlgField v) <;> rw [h]
    · exact .nothing
    · exact .storeCommand _ _ hb

theorem State.hostWriteReg_hostWrites {r : RegName} {v : Word} (h : (s.hostWriteReg r v).outcome = .next t) :
    s.HostWrites t := by
  cases r with
  | cmd =>
    obtain ⟨u, hu, hw⟩ := exec_decodeCommand_hostWrites v s
    cases hu.symm.trans h
    exact hw
  | inLen =>
    cases h
    cases hb : s.busy
    · rw [State.writeInLen_of_idle v hb]; exact .writeInLen v hb
    · rw [State.writeInLen_of_busy v hb]; exact .nothing
  | _ => cases h; exact .nothing

theorem State.hostWrite_hostWrites {sp : Space} {offset : Nat} {v : Word}
    (h : (s.hostWrite sp offset v).outcome = .next t) : s.HostWrites t := by
  unfold State.hostWrite at h
  split at h
  · cases h; exact .nothing
  · cases sp with
    | reg => exact State.hostWriteReg_hostWrites h
    | inBuf =>
      cases hb : s.busy <;> simp only [hb, if_true, Bool.false_eq_true, if_false] at h <;> cases h
      exact .writeIn offset _ hb
    | outBuf => cases h; exact .nothing

/-- A host access that answers a next state read something or wrote something. -/
theorem State.hostAccess_reads_or_writes {a : Access} (h : (s.hostAccess a).outcome = .next t) :
    t = s.hostRead a.space a.offset ∨ s.HostWrites t := by
  unfold State.hostAccess at h
  split at h
  · split at h
    · cases h; exact .inl rfl
    · exact .inr (State.hostWrite_hostWrites h)
  · cases h

/-- Without a reset and without a power-up, a step is an engine turn, a host access or the release of reset. -/
theorem step_cases_of_noResetNext (hn : s.NoResetNext) (h : step s = .next t) :
    ∃ rest, (s.setInputs rest).engineTurn.outcome = .next t ∨
      (∃ a, ((s.setInputs rest).hostAccess a).outcome = .next t) ∨ t = (s.setInputs rest).releaseReset := by
  unfold State.NoResetNext at hn
  split at hn
  next hi => exact ⟨s.inputs, .inl ((step_of_no_input hi).symm.trans h)⟩
  next i rest hi =>
    rw [step_of_input hi] at h
    refine ⟨rest, ?_⟩
    cases i with
    | access a => exact .inr (.inl ⟨a, h⟩)
    | bus address width op =>
      simp only [State.take] at h
      split at h
      · exact .inr (.inl ⟨_, h⟩)
      · cases h
    | turn => exact .inl h
    | resetAssert => exact absurd rfl hn.1
    | resetRelease => cases h; exact .inr (.inr rfl)
    | powerUp => exact absurd rfl hn.2

end Sys2Proof.Machine
end

section
/-! PROOFS. Host accesses, commands and the state after reset (10_state.md R33 to R46, R60; 47_dispatcher.md R360). -/

namespace Sys2Proof.Machine

/-- Settles O7: a CMD write is taken up by the command decoder, an engine turn by the decoder at the engine's place. -/
theorem stepRunsTheDecodedInstruction : Obligations.StepRunsTheDecodedInstruction := by
  refine ⟨fun s w rest hi hr => step_of_cmdWrite hi hr, fun s src i hr hs hd => ⟨fun hi => ?_, fun rest hi => ?_⟩⟩
  · rw [step_of_no_input hi, State.engineTurn_of_source hr hs hd, Next.outcome]
  · have turn : (s.setInputs rest).engineTurn = .run i (s.setInputs rest) := State.engineTurn_of_source hr hs hd
    rw [step_of_input hi, State.take, turn, Next.outcome]

theorem State.startCommand_of_idle {s : State} (mode : Mode) (alg : BitVec 3) (hb : s.busy = false) :
    s.startCommand mode alg = s.started mode alg := by
  simp [State.startCommand, hb]

theorem State.storeCommand_of_idle {s : State} (mode : Mode) (alg : BitVec 3) (hb : s.busy = false) :
    s.storeCommand mode alg = { s with cmdAlg := alg, cmdMode := mode } := by
  simp [State.storeCommand, hb]

theorem reservedAlg_ge (low : BitVec 2) : 4 ≤ (reservedAlg low).toNat := by
  revert low
  decide

/-- Settles O10: an idle block takes START and the store, a BUSY one neither. -/
theorem everyCommandCompletes : Obligations.EveryCommandCompletes := by
  intro s
  constructor
  · intro hb
    have start : ∀ mode alg, (.next (s.startCommand mode alg) : Answer) = .next (s.started mode alg) :=
      fun mode alg => congrArg _ (State.startCommand_of_idle mode alg hb)
    exact ⟨start _ _, start _ _, start _ _, start _ _, start _ _, start _ _, start _ _, start _ _,
      fun mode low => ⟨start mode _, reservedAlg_ge low⟩,
      fun mode alg => congrArg _ (State.storeCommand_of_idle mode alg hb)⟩
  · intro hb w
    obtain ⟨t, ht, hw⟩ := exec_decodeCommand_hostWrites w s
    rw [ht, hw.eq_of_busy hb]

/-- Settles O13: such an offset is neither that of CMD nor that of IN_LEN. -/
theorem reservedAndReadOnlyRegisters : Obligations.ReservedAndReadOnlyRegisters := by
  intro s offset v rest haligned
  refine ⟨fun hlow hhigh hi => ?_, fun hlow hhigh hi => ?_⟩
  · exact ⟨_, step_of_read hi (by simp [admits]; omega), State.hostRead_reserved hlow⟩
  · rw [step_of_write hi (by simp [admits]; omega), State.hostWrite, State.hostWriteReg_of_readOnly v hlow, ite_self,
      Next.outcome]

/-- Settles O12: a read answers the value on the bus, and what it leaves as it was is `State.OnlyRead`. -/
theorem readsReturnTheValueAndChangeNothing : Obligations.ReadsReturnTheValueAndChangeNothing := by
  intro s sp offset width rest hi ha
  have same := (s.setInputs rest).hostRead_onlyRead sp offset
  refine ⟨_, step_of_read hi ha, ?_, ?_, ?_, same.params, same.regs, same.inMem, same.inEpoch, same.outMem,
    same.outEpoch, same.latch, same.work, same.resetLine, same.inputs⟩
  · rintro rfl
    refine ⟨rfl, ?cmd, by rintro rfl; rfl, by rintro rfl; rfl, ?errCode, by rintro rfl; rfl, by rintro rfl; rfl,
      by rintro rfl; rfl, by rintro rfl; rfl, by rintro rfl; rfl, ?reserved⟩
    case cmd => rintro rfl; exact cmdRead_toNat _ _
    case errCode => rintro rfl; exact BitVec.toNat_setWidth_of_le (by decide)
    case reserved => exact fun h => State.hostRead_reserved h
  · rintro rfl; rfl
  · rintro rfl; exact (s.setInputs rest).hostRead_outBuf_busData offset

/-- Settles O14: each write by its space; a byte written to IN is the one that `State.readIn_writeIn` reads back. -/
theorem hostWritesStore : Obligations.HostWritesStore := by
  intro s offset v rest hr
  refine ⟨fun hi => ?_, fun hi hoff => ?_, fun hi hoff => ?_⟩
  · have hstep : step s = .next ((s.setInputs rest).writeInLen v) := step_of_writeReg hi (by decide) hr
    rw [hstep]
    exact ⟨fun hb => congrArg _ (State.writeInLen_of_idle v hb), fun hb => congrArg _ (State.writeInLen_of_busy v hb)⟩
  · rw [step_of_write hi (by simpa [admits] using hoff)]
    refine ⟨fun hb => ?_, fun hb => ?_⟩
    · rw [State.hostWrite_inBuf_of_busy (s := s.setInputs rest) offset v hr hb, Next.outcome]
    · rw [State.hostWrite_inBuf_of_idle (s := s.setInputs rest) offset v hr hb, Next.outcome]
      refine ⟨_, rfl, ?_, fun a ha => ?_, fun a => rfl, fun r => by cases r <;> rfl, rfl, rfl, rfl, rfl, rfl, rfl⟩
      · rw [State.readIn_writeIn, if_pos rfl]
      · rw [State.readIn_writeIn, if_neg ha]; rfl
  · rw [step_of_write hi (by simpa [admits] using hoff), State.hostWrite_outBuf, Next.outcome]

theorem State.afterReset_busy (p : Params) : (State.afterReset p).busy = false :=
  (by decide : (0 : Word).getLsbD 0 = false)

theorem State.afterReset_readReg (p : Params) (r : RegName) : (State.afterReset p).readReg r = resetValue p r := by
  cases r with
  | cmd => exact (by decide : cmdRead .compress 0 = 0)
  | _ => rfl

theorem State.powerUp_readReg (s : State) (r : RegName) : s.powerUp.readReg r = resetValue s.params r := by
  cases r with
  | cmd => exact (by decide : cmdRead .compress 0 = 0)
  | _ => rfl

theorem State.powerUp_running (s : State) : s.powerUp.running = false := by
  simp [State.running, State.busy, statusIdle]

/-- Settles O20: reset and power-up put each register at its reset value and empty both buffers. -/
theorem registersAfterResetAndPowerUp : Obligations.RegistersAfterResetAndPowerUp := by
  refine ⟨fun p => ⟨State.afterReset_readReg p, ⟨State.afterReset_busy p, rfl⟩, fun a => rfl, fun a => ⟨rfl, rfl⟩⟩,
    fun s rest hi => ?_⟩
  exact ⟨(s.setInputs rest).powerUp, step_of_input hi, (s.setInputs rest).powerUp_readReg,
    (s.setInputs rest).powerUp_running, fun a => ⟨rfl, rfl⟩,
    fun a => ⟨rfl, rfl⟩⟩

theorem State.afterReset_inv {p : Params} (hp : p.Legal) : (State.afterReset p).Inv where
  params := hp
  inWf := rfl
  inBelow := rfl
  outWf := rfl
  outLayout := rfl
  outLen := rfl
  outBelow := Nat.zero_le _
  status := .inl rfl
  noError := fun _ => ⟨rfl, rfl, rfl⟩
  anError := fun h => absurd h (by decide : (0 : Word) ≠ 4)
  noOutput := fun _ => rfl
  resetIdle := fun _ => rfl
  checked := fun hb => absurd ((State.afterReset_busy p).symm.trans hb) (by decide)

theorem State.afterReset_bounded (p : Params) : (State.afterReset p).work.Bounded := Work.init_bounded .dispatch

/-- Settles O24: State.reset is the state after reset for the parameters of the test vectors, which are legal. -/
theorem resetMeetsTheInvariant : Obligations.ResetMeetsTheInvariant :=
  ⟨State.afterReset_inv (by decide), State.afterReset_bounded vectorParams,
    fun p hp => ⟨State.afterReset_inv hp, State.afterReset_bounded p⟩⟩

end Sys2Proof.Machine
end

section
/-! PROOFS. The head of `execute`, one equation per case (47_dispatcher.md R362), and what the end of an operation and a
codec's turn leave unchanged. -/

namespace Sys2Proof.Machine

variable {s : State}

/-! ## The head of `execute` -/

theorem dispatchStep_of_unsupported
    (h : 4 ≤ s.latch.alg.toNat ∨ (s.latch.alg = 3 ∧ s.params.deflateAttached = false)) :
    dispatchStep s = .next (s.takeError .unsupportedAlgorithm 0 0) :=
  if_pos h

/-- An operation for an attached DEFLATE unit is outside the spec (R380, log 10). -/
theorem dispatchStep_of_forwarded (halg : s.latch.alg = 3) (hd : s.params.deflateAttached = true) :
    dispatchStep s = .refused .externalDeflate := by
  simp [dispatchStep, halg, hd]

/-- An ALG below 3 is the ALG of a codec (R363). -/
theorem not_unsupported_of_codec (halg : s.latch.alg.toNat < 3) :
    ¬ (4 ≤ s.latch.alg.toNat ∨ (s.latch.alg = 3 ∧ s.params.deflateAttached = false)) ∧ s.latch.alg ≠ 3 := by
  have hne : s.latch.alg ≠ 3 := fun h => absurd halg (by rw [h]; decide)
  refine ⟨?_, hne⟩
  rintro (h | ⟨h, -⟩)
  · omega
  · exact hne h

theorem dispatchStep_of_tooLong (halg : s.latch.alg.toNat < 3) (hlen : s.params.inCap < s.latch.len.toNat) :
    dispatchStep s = .next (s.takeError .inputLengthInvalid 0 s.latch.len.toNat) := by
  obtain ⟨supported, notDeflate⟩ := not_unsupported_of_codec halg
  rw [dispatchStep, if_neg supported, if_neg notDeflate, if_pos hlen, State.raise_eq]

theorem dispatchStep_of_codec (halg : s.latch.alg.toNat < 3) (hlen : s.latch.len.toNat ≤ s.params.inCap) :
    dispatchStep s = .next (s.setWork (Work.init (codecPhase s.latch.alg s.latch.mode))) := by
  obtain ⟨supported, notDeflate⟩ := not_unsupported_of_codec halg
  rw [dispatchStep, if_neg supported, if_neg notDeflate, if_neg (by omega)]

/-! ## Frames -/

theorem State.setWork_onlyWorkChanged (s : State) (w : Work) : OnlyWorkChanged s (s.setWork w) := by
  constructor <;> intros <;> rfl

theorem State.takeError_onlyResultChanged (s : State) (kind : ErrorKind) (pos count : Nat) :
    OnlyResultChanged s (s.takeError kind pos count) := by
  constructor <;> intros <;> rfl

theorem State.completeOk_onlyResultChanged (s : State) (out : List Byte) : OnlyResultChanged s (s.completeOk out) := by
  constructor <;> intros <;> rfl

theorem State.complete_onlyResultChanged (s : State) (r : Result) : OnlyResultChanged s (s.complete r) := by
  obtain ⟨out, -, -, h⟩ | ⟨out, -, -, h⟩ | ⟨kind, pos, count, -, h⟩ := s.complete_cases r <;> rw [h]
  · exact s.completeOk_onlyResultChanged out
  · exact s.takeError_onlyResultChanged _ _ _
  · exact s.takeError_onlyResultChanged kind pos count

theorem State.takeError_ended (s : State) (kind : ErrorKind) (pos count : Nat) :
    EndedWithError (s.takeError kind pos count) kind pos count where
  status := rfl
  errCode := rfl
  errPos := saturate32_toNat pos
  errCount := saturate32_toNat count
  outLen := rfl
  out := fun _ => ⟨rfl, rfl⟩

/-- Settles O26: the four equations of the head of `execute`, with the frames of an error and of a codec's turn. -/
theorem dispatchChecksInOrder : Obligations.DispatchChecksInOrder := by
  intro s hr hi hp
  rw [step_of_dispatch hr hi hp]
  refine ⟨fun h => ?_, dispatchStep_of_forwarded, fun halg hlen => ?_, fun halg hlen => ?_⟩
  · exact ⟨_, dispatchStep_of_unsupported h, s.takeError_ended _ _ _, s.takeError_onlyResultChanged _ _ _⟩
  · exact ⟨_, dispatchStep_of_tooLong halg hlen, s.takeError_ended _ _ _, s.takeError_onlyResultChanged _ _ _⟩
  · exact ⟨_, dispatchStep_of_codec halg hlen, rfl, s.setWork_onlyWorkChanged _⟩

end Sys2Proof.Machine
end

section
/-! PROOFS. What a turn of the running engine depends on: the parameters, the latch, the working state and the input. Two
blocks that agree on these make the same move (47_dispatcher.md R364). -/

namespace Sys2Proof.Machine

/-- What a turn of the running engine comes to: it changes the working state, or ends the operation. -/
inductive EngineMove where
  | work (w : Work)
  | finish (r : Result)

/-- The move made on a block. -/
def EngineMove.apply : EngineMove → State → State
  | .work w, s => s.setWork w
  | .finish r, s => s.complete r

/-- The answers of two blocks come from one move. -/
def SameMove (s₁ s₂ : State) (a₁ a₂ : Answer) : Prop :=
  ∃ m : EngineMove, a₁ = .next (m.apply s₁) ∧ a₂ = .next (m.apply s₂)

/-- Two blocks look the same to the engine. -/
structure SameView (s₁ s₂ : State) : Prop where
  params : s₂.params = s₁.params
  latch : s₂.latch = s₁.latch
  work : s₂.work = s₁.work
  input : s₂.input = s₁.input

section

variable {s s₁ s₂ t : State}

/-! ## The two kinds of move -/

theorem SameMove.work (w : Work) : SameMove s₁ s₂ (.next (s₁.setWork w)) (.next (s₂.setWork w)) :=
  ⟨.work w, rfl, rfl⟩

theorem SameMove.finish (r : Result) : SameMove s₁ s₂ (.next (s₁.complete r)) (.next (s₂.complete r)) :=
  ⟨.finish r, rfl, rfl⟩

theorem SameMove.raise (kind : ErrorKind) (pos count : Nat) :
    SameMove s₁ s₂ (.next (s₁.raise kind pos count)) (.next (s₂.raise kind pos count)) :=
  .finish (.err kind pos count)

theorem SameMove.emit (v : SameView s₁ s₂) (bytes : List Byte) (used : Nat) :
    SameMove s₁ s₂ (.next (s₁.emit bytes used)) (.next (s₂.emit bytes used)) := by
  rw [State.emit, State.emit, v.work]
  exact .work _

theorem SameMove.nothing (v : SameView s₁ s₂) : SameMove s₁ s₂ (.next s₁) (.next s₂) :=
  ⟨.work s₁.work, rfl, congrArg _ (congrArg s₂.setWork v.work)⟩

/-- While BUSY a command word is ignored (R360). -/
theorem SameMove.startCommand (v : SameView s₁ s₂) (h₁ : s₁.busy = true) (h₂ : s₂.busy = true) (mode : Mode)
    (alg : BitVec 3) : SameMove s₁ s₂ (.next (s₁.startCommand mode alg)) (.next (s₂.startCommand mode alg)) := by
  simpa only [State.startCommand, h₁, h₂, if_true] using SameMove.nothing v

theorem SameMove.storeCommand (v : SameView s₁ s₂) (h₁ : s₁.busy = true) (h₂ : s₂.busy = true) (mode : Mode)
    (alg : BitVec 3) : SameMove s₁ s₂ (.next (s₁.storeCommand mode alg)) (.next (s₂.storeCommand mode alg)) := by
  simpa only [State.storeCommand, h₁, h₂, if_true] using SameMove.nothing v

/-! ## What the view determines -/

theorem SameView.refl (s : State) : SameView s s := ⟨rfl, rfl, rfl, rfl⟩

theorem SameView.payload (v : SameView s₁ s₂) : s₂.payload = s₁.payload := by
  rw [State.payload, State.payload, v.input, v.work]

theorem SameView.bitByte (v : SameView s₁ s₂) (depth : Nat) : s₂.bitByte depth = s₁.bitByte depth := by
  rw [State.bitByte, State.bitByte, v.work]

theorem SameView.source (v : SameView s₁ s₂) : s₂.source = s₁.source := by
  simp only [State.source, v.work, v.input, v.payload]

/-! ## Instructions -/

theorem SameView.lzBackRef (v : SameView s₁ s₂) (len off : Nat) :
    SameMove s₁ s₂ (lzBackRef len off s₁) (lzBackRef len off s₂) := by
  simp only [Machine.lzBackRef, v.work]
  split
  · exact .raise _ _ _
  · exact .work _

theorem SameView.execHufHdrCount (v : SameView s₁ s₂) (count : BitVec 16) :
    SameMove s₁ s₂ (execHufHdrCount count s₁) (execHufHdrCount count s₂) := by
  simp only [Machine.execHufHdrCount, v.work, v.latch]
  split
  · split
    · exact .raise _ _ _
    · exact .finish _
  · split
    · exact .raise _ _ _
    · split
      · exact .raise _ _ _
      · exact .work _

theorem SameView.execHufHdrEntry (v : SameView s₁ s₂) (value : Byte) (freq : Word) :
    SameMove s₁ s₂ (execHufHdrEntry value freq s₁) (execHufHdrEntry value freq s₂) := by
  simp only [Machine.execHufHdrEntry, v.work]
  split
  · exact .raise _ _ _
  · exact .work _

theorem SameView.execHufCode (v : SameView s₁ s₂) (path : List Bool) :
    SameMove s₁ s₂ (execHufCode path s₁) (execHufCode path s₂) := by
  simp only [Machine.execHufCode, v.work, v.latch, v.payload, v.bitByte]
  split
  · exact .work _
  · exact .raise _ _ _
  · exact .raise _ _ _

theorem SameView.exec (v : SameView s₁ s₂) (h₁ : s₁.busy = true) (h₂ : s₂.busy = true) (i : Instr) :
    SameMove s₁ s₂ (exec i s₁) (exec i s₂) := by
  cases i with
  | rleC => exact .startCommand v h₁ h₂ _ _
  | rleD => exact .startCommand v h₁ h₂ _ _
  | hufC => exact .startCommand v h₁ h₂ _ _
  | hufD => exact .startCommand v h₁ h₂ _ _
  | lzC => exact .startCommand v h₁ h₂ _ _
  | lzD => exact .startCommand v h₁ h₂ _ _
  | defC => exact .startCommand v h₁ h₂ _ _
  | defD => exact .startCommand v h₁ h₂ _ _
  | unsup mode algLow => exact .startCommand v h₁ h₂ _ _
  | cmdStore mode alg => exact .storeCommand v h₁ h₂ _ _
  | rleRun len value => exact .emit v _ _
  | rleLit len raw => exact .emit v _ _
  | lzLit value => exact .emit v _ _
  | lzEsc value => exact .emit v _ _
  | lzMatch3s offset => exact v.lzBackRef _ _
  | lzMatch len offHi offLo => exact v.lzBackRef _ _
  | hufHdrCount count => exact v.execHufHdrCount count
  | hufHdrEntry value freq => exact v.execHufHdrEntry value freq
  | hufCode path => exact v.execHufCode path

/-! ## The engine -/

/-- The head of `execute` sees only the parameters and the latch. -/
theorem dispatchStep_sameMove (hparams : s₂.params = s₁.params) (hlatch : s₂.latch = s₁.latch)
    (hd : s₁.latch.alg = 3 → s₁.params.deflateAttached = false) :
    SameMove s₁ s₂ (dispatchStep s₁) (dispatchStep s₂) := by
  simp only [dispatchStep, hparams, hlatch]
  split
  · exact .raise _ _ _
  · next supported =>
    rw [if_neg (fun halg => supported (.inr ⟨halg, hd halg⟩)), if_neg (fun halg => supported (.inr ⟨halg, hd halg⟩))]
    split
    · exact .raise _ _ _
    · exact .work _

theorem SameView.rleCStep (v : SameView s₁ s₂) : SameMove s₁ s₂ (rleCStep s₁) (rleCStep s₂) := by
  simp only [Machine.rleCStep, v.work, v.input]
  split
  · exact .emit v _ _
  · exact .finish _

theorem SameView.hufCountStep (v : SameView s₁ s₂) : SameMove s₁ s₂ (hufCountStep s₁) (hufCountStep s₂) := by
  simp only [Machine.hufCountStep, v.work, v.input]
  split
  · exact .work _
  · split
    · exact .finish _
    · exact .work _

theorem SameView.hufMergeStep (v : SameView s₁ s₂) : SameMove s₁ s₂ (hufMergeStep s₁) (hufMergeStep s₂) := by
  simp only [Machine.hufMergeStep, v.work, v.latch]
  split
  · exact .work _
  · split
    · exact .work _
    · exact .work _

theorem SameView.hufEncodeStep (v : SameView s₁ s₂) : SameMove s₁ s₂ (hufEncodeStep s₁) (hufEncodeStep s₂) := by
  simp only [Machine.hufEncodeStep, v.work, v.input]
  split
  · exact .work _
  · exact .finish _

theorem SameView.hufHeaderDone (v : SameView s₁ s₂) : SameMove s₁ s₂ (hufHeaderDone s₁) (hufHeaderDone s₂) := by
  simp only [Machine.hufHeaderDone, v.work, v.latch]
  split
  · split
    · exact .raise _ _ _
    · exact .finish _
  · exact .work _

theorem SameView.lzCStep (v : SameView s₁ s₂) : SameMove s₁ s₂ (lzCStep s₁) (lzCStep s₂) := by
  simp only [Machine.lzCStep, v.work, v.input]
  split
  · exact .work _
  · exact .finish _

theorem SameView.decodeFailed (v : SameView s₁ s₂) (e : DecodeError) :
    SameMove s₁ s₂ (.next (s₁.decodeFailed e)) (.next (s₂.decodeFailed e)) := by
  cases e <;> simp only [State.decodeFailed, v.work, v.latch, v.bitByte] <;> exact .raise _ _ _

theorem SameView.engineWork (v : SameView s₁ s₂) (hp : s₁.work.phase ≠ .dispatch) :
    SameMove s₁ s₂ s₁.engineWork s₂.engineWork := by
  cases phase : s₁.work.phase <;> simp only [State.engineWork, v.work, phase]
  case dispatch => exact absurd phase hp
  case rleC => exact v.rleCStep
  case rleD => exact .finish _
  case hufCount => exact v.hufCountStep
  case hufMerge => exact v.hufMergeStep
  case hufEncode => exact v.hufEncodeStep
  case hufHeader => exact v.decodeFailed _
  case hufEntries => exact v.hufHeaderDone
  case hufPayload => exact .finish _
  case lzC => exact v.lzCStep
  case lzD => exact .finish _

theorem SameView.engineTurn (v : SameView s₁ s₂) (h₁ : s₁.running = true) (h₂ : s₂.running = true)
    (hp : s₁.work.phase ≠ .dispatch) : SameMove s₁ s₂ s₁.engineTurn.outcome s₂.engineTurn.outcome := by
  simp only [State.engineTurn, h₁, h₂, v.source, if_true]
  split
  · split
    · exact v.exec (s₁.running_iff.mp h₁).1 (s₂.running_iff.mp h₂).1 _
    · exact v.decodeFailed _
  · exact v.engineWork hp

/-- A turn of the engine that answers a next state is a move; when nothing changes, one that keeps the working state. -/
theorem State.engineTurn_move (h : s.engineTurn.outcome = .next t) : ∃ m : EngineMove, t = m.apply s := by
  cases hr : s.running with
  | false =>
    rw [State.engineTurn_of_not_running hr] at h
    cases h
    exact ⟨.work s.work, rfl⟩
  | true =>
    by_cases hp : s.work.phase = .dispatch
    · rw [State.engineTurn_of_dispatch hr hp] at h
      obtain he | ⟨-, -, he⟩ | ⟨-, -, he⟩ | ⟨-, -, he⟩ := dispatchStep_cases s <;> cases he.symm.trans h
      · exact ⟨.finish (.err _ _ _), rfl⟩
      · exact ⟨.finish (.err _ _ _), rfl⟩
      · exact ⟨.work _, rfl⟩
    · obtain ⟨m, hm, -⟩ := (SameView.refl s).engineTurn hr hr hp
      cases hm.symm.trans h
      exact ⟨m, rfl⟩

/-! ## What a move leaves alone -/

theorem EngineMove.apply_frame (m : EngineMove) (s : State) : OperationFrame s (m.apply s) := by
  cases m with
  | work w => exact { s.setWork_onlyWorkChanged w with }
  | finish r => exact { s.complete_onlyResultChanged r with }

theorem EngineMove.apply_latch (m : EngineMove) (s : State) : (m.apply s).latch = s.latch := by
  cases m with
  | work w => rfl
  | finish r => exact (s.complete_onlyResultChanged r).latch

/-- The input is what IN holds below the latched length. -/
theorem State.input_congr (hl : t.latch = s.latch) (hb : ∀ a, t.readIn a = s.readIn a) : t.input = s.input := by
  rw [State.input, State.input, hl, funext hb]

theorem EngineMove.apply_input (m : EngineMove) (s : State) : (m.apply s).input = s.input :=
  State.input_congr (m.apply_latch s) (m.apply_frame s).inBytes

/-- With the same OUT_CAP a result ends both operations alike (R366, R370, R371). -/
theorem State.complete_sameResult (h : s₁.params = s₂.params) (r : Result) :
    SameResult (s₁.complete r) (s₂.complete r) := by
  rw [State.complete, State.complete, h]
  split <;> exact ⟨rfl, rfl, rfl, rfl, rfl, rfl⟩

theorem EngineMove.apply_sameResult (m : EngineMove) (hp : s₁.params = s₂.params) (h : SameResult s₁ s₂) :
    SameResult (m.apply s₁) (m.apply s₂) := by
  cases m with
  | work w => exact { h with }
  | finish r => exact State.complete_sameResult hp r

end

end Sys2Proof.Machine
end

section
/-! PROOFS. What stays while an operation runs, what stays after it, and that its result depends on its input alone
(10_state.md R46, R56; 47_dispatcher.md R364, R372). -/

namespace Sys2Proof.Machine

section

variable {s s₁ s₂ t : State}

/-! ## While an operation runs -/

theorem State.hostRead_readIn (s : State) (sp : Space) (offset a : Nat) :
    (s.hostRead sp offset).readIn a = s.readIn a := by
  have same := s.hostRead_onlyRead sp offset
  rw [State.readIn, State.readIn, same.inMem, same.inEpoch]

/-- While BUSY a host access leaves the latch and IN alone: a write to IN is a fault (R460). -/
theorem State.hostAccess_keeps_latch_and_in {a : Access} (hb : s.busy = true)
    (h : (s.hostAccess a).outcome = .next t) : t.latch = s.latch ∧ ∀ x, t.readIn x = s.readIn x := by
  obtain rfl | hw := State.hostAccess_reads_or_writes h
  · exact ⟨(s.hostRead_onlyRead _ _).latch, s.hostRead_readIn _ _⟩
  · rw [hw.eq_of_busy hb]
    exact ⟨rfl, fun _ => rfl⟩

end

/-- Settles O16: an engine turn is a move, a host access changes nothing of it while BUSY, nor does a release of reset. -/
theorem runningOperationInputIsFixed : Obligations.RunningOperationInputIsFixed := by
  intro s t hb hn h
  have kept : t.latch = s.latch ∧ ∀ a, t.readIn a = s.readIn a := by
    obtain ⟨rest, hturn | ⟨a, haccess⟩ | rfl⟩ := step_cases_of_noResetNext hn h
    · obtain ⟨m, rfl⟩ := State.engineTurn_move hturn
      exact ⟨m.apply_latch _, (m.apply_frame _).inBytes⟩
    · exact State.hostAccess_keeps_latch_and_in (s := s.setInputs rest) hb haccess
    · exact ⟨rfl, fun _ => rfl⟩
  exact ⟨kept.1, State.input_congr kept.1 kept.2, kept.2⟩

section

variable {s s₁ s₂ t : State}

/-! ## After an operation -/

/-- The results and every byte of OUT, the unspecified ones too, are as they were. -/
structure ResultsKept (s t : State) : Prop extends SameResult t s where
  outEpoch : t.outEpoch = s.outEpoch

theorem ResultsKept.readOut (h : ResultsKept s t) (a : Nat) : t.readOut a = s.readOut a := by
  rw [State.readOut, State.readOut, h.outDefined, h.outEpoch]

theorem State.hostRead_resultsKept (hb : s.busy = false) (sp : Space) (offset : Nat) :
    ResultsKept s (s.hostRead sp offset) := by
  refine ⟨?_, (s.hostRead_onlyRead sp offset).outEpoch hb⟩
  cases sp with
  | reg => exact ⟨rfl, rfl, rfl, rfl, rfl, rfl⟩
  | inBuf => exact ⟨rfl, rfl, rfl, rfl, rfl, rfl⟩
  | outBuf =>
    simp only [State.hostRead, hb, Bool.false_eq_true, if_false]
    exact ⟨rfl, rfl, rfl, rfl, rfl, rfl⟩

@[simp] theorem State.started_busy (s : State) (mode : Mode) (alg : BitVec 3) : (s.started mode alg).busy = true := by
  simp [State.busy, statusBusy]

/-- Of the host's writes only START touches the results, and it makes the block BUSY (R361). -/
theorem State.HostWrites.resultsKept (h : s.HostWrites t) (hb : t.busy = false) : ResultsKept s t := by
  cases h with
  | start mode alg _ => exact absurd ((s.started_busy mode alg).symm.trans hb) (by decide)
  | _ => exact ⟨⟨rfl, rfl, rfl, rfl, rfl, rfl⟩, rfl⟩

end

/-- Settles O18: the engine of an idle block does not run, and no host access but START touches the results. -/
theorem resultsAreKeptUntilStartOrReset : Obligations.ResultsAreKeptUntilStartOrReset := by
  intro s t hb hn h hbt
  have kept : ResultsKept s t := by
    obtain ⟨rest, hturn | ⟨a, haccess⟩ | rfl⟩ := step_cases_of_noResetNext hn h
    · have idle : (s.setInputs rest).running = false := by
        rw [State.running, show (s.setInputs rest).busy = false from hb, Bool.false_and]
      rw [State.engineTurn_of_not_running idle] at hturn
      cases hturn
      exact ⟨⟨rfl, rfl, rfl, rfl, rfl, rfl⟩, rfl⟩
    · obtain rfl | hw := State.hostAccess_reads_or_writes haccess
      · exact { State.hostRead_resultsKept (s := s.setInputs rest) hb a.space a.offset with }
      · exact { hw.resultsKept hbt with }
    · exact ⟨⟨rfl, rfl, rfl, rfl, rfl, rfl⟩, rfl⟩
  exact ⟨kept.status, kept.outLen, kept.errCode, kept.errPos, kept.errCount, kept.readOut⟩

section

variable {s s₁ s₂ t : State}

/-! ## Two blocks with the same input -/

/-- Two undisturbed blocks in the same operation on the same input. Their working states agree but for the first turn,
whose head of `execute` does not look at it (R57, R362). -/
structure Twins (s₁ s₂ : State) : Prop where
  alone₁ : s₁.Undisturbed
  alone₂ : s₂.Undisturbed
  notForwarded : s₁.latch.alg = 3 → s₁.params.deflateAttached = false
  params : s₂.params = s₁.params
  latch : s₂.latch = s₁.latch
  input : s₂.input = s₁.input
  work : s₂.work = s₁.work ∨ (s₁.work.phase = .dispatch ∧ s₂.work.phase = .dispatch)
  result : SameResult s₁ s₂

theorem Twins.started (h₁ : s₁.Undisturbed) (h₂ : s₂.Undisturbed) (hparams : s₁.params = s₂.params)
    (hlen : s₁.inLen = s₂.inLen) (hinput : s₁.nextInput = s₂.nextInput) {mode : Mode} {alg : BitVec 3}
    (hd : alg = 3 → s₁.params.deflateAttached = false) : Twins (s₁.started mode alg) (s₂.started mode alg) where
  alone₁ := h₁
  alone₂ := h₂
  notForwarded := hd
  params := hparams.symm
  latch := by simp [hlen]
  input := hinput.symm
  work := .inr ⟨rfl, rfl⟩
  result := ⟨rfl, rfl, rfl, rfl, rfl, rfl⟩

/-- The same move keeps twins. -/
theorem Twins.apply (h : Twins s₁ s₂) (m : EngineMove) : Twins (m.apply s₁) (m.apply s₂) where
  alone₁ := ⟨(m.apply_frame s₁).inputs.trans h.alone₁.1, (m.apply_frame s₁).resetLine.trans h.alone₁.2⟩
  alone₂ := ⟨(m.apply_frame s₂).inputs.trans h.alone₂.1, (m.apply_frame s₂).resetLine.trans h.alone₂.2⟩
  notForwarded := by
    rw [m.apply_latch, (m.apply_frame s₁).params]
    exact h.notForwarded
  params := by rw [(m.apply_frame s₂).params, (m.apply_frame s₁).params, h.params]
  latch := by rw [m.apply_latch, m.apply_latch, h.latch]
  input := by rw [m.apply_input, m.apply_input, h.input]
  work := by
    cases m with
    | work w => exact .inl rfl
    | finish r => simpa only [EngineMove.apply, State.complete_work] using h.work
  result := m.apply_sameResult h.params.symm h.result

theorem Twins.running_eq (h : Twins s₁ s₂) : s₂.running = s₁.running := by
  rw [State.running, State.running, State.busy, State.busy, h.result.status, h.alone₁.2, h.alone₂.2]

theorem Twins.engineTurn (h : Twins s₁ s₂) (hr : s₁.running = true) :
    SameMove s₁ s₂ s₁.engineTurn.outcome s₂.engineTurn.outcome := by
  have hr₂ : s₂.running = true := h.running_eq.trans hr
  by_cases hp : s₁.work.phase = .dispatch
  · have hp₂ : s₂.work.phase = .dispatch := by
      obtain hw | ⟨-, hp₂⟩ := h.work
      · rw [hw, hp]
      · exact hp₂
    rw [State.engineTurn_of_dispatch hr hp, State.engineTurn_of_dispatch hr₂ hp₂]
    exact dispatchStep_sameMove h.params h.latch h.notForwarded
  · have hw : s₂.work = s₁.work := h.work.resolve_right fun both => hp both.1
    exact SameView.engineTurn ⟨h.params, h.latch, hw, h.input⟩ hr hr₂ hp

theorem Twins.step (h : Twins s₁ s₂) :
    ∃ t₁ t₂, step s₁ = .next t₁ ∧ step s₂ = .next t₂ ∧ Twins t₁ t₂ := by
  rw [step_of_no_input h.alone₁.1, step_of_no_input h.alone₂.1]
  cases hr : s₁.running with
  | false =>
    rw [State.engineTurn_of_not_running hr, State.engineTurn_of_not_running (h.running_eq.trans hr)]
    exact ⟨s₁, s₂, rfl, rfl, h⟩
  | true =>
    obtain ⟨m, hm₁, hm₂⟩ := h.engineTurn hr
    exact ⟨_, _, hm₁, hm₂, h.apply m⟩

theorem steps_succ_of_step {k : Nat} (h : Machine.step s = .next t) : steps (k + 1) s = steps k t := by
  rw [steps, h]

theorem Twins.steps (k : Nat) (h : Twins s₁ s₂) :
    ∃ t₁ t₂, steps k s₁ = .next t₁ ∧ steps k s₂ = .next t₂ ∧ Twins t₁ t₂ := by
  induction k generalizing s₁ s₂ with
  | zero => exact ⟨s₁, s₂, rfl, rfl, h⟩
  | succ k ih =>
    obtain ⟨u₁, u₂, hu₁, hu₂, hu⟩ := h.step
    rw [steps_succ_of_step hu₁, steps_succ_of_step hu₂]
    exact ih hu

/-- The first turn of an operation that goes to an attached DEFLATE unit is refused (R380, log 10). -/
theorem step_started_of_forwarded (h : s.Undisturbed) {mode : Mode} (hd : s.params.deflateAttached = true) :
    Machine.step (s.started mode 3) = .refused .externalDeflate := by
  have hr : (s.started mode 3).running = true := (State.running_iff _).mpr ⟨s.started_busy mode 3, h.2⟩
  rw [step_of_dispatch hr h.1 rfl]
  exact dispatchStep_of_forwarded rfl hd

end

/-- Settles O43: two blocks that start the same operation on the same input are twins, and stay so at every turn. -/
theorem resultDependsOnInputAlone : Obligations.ResultDependsOnInputAlone := by
  intro s₁ s₂ mode alg h₁ h₂ hparams hlen hinput
  refine ⟨fun hd k => ?_, ?_⟩
  · obtain ⟨t₁, t₂, ht₁, ht₂, ht⟩ := (Twins.started h₁ h₂ hparams hlen hinput hd).steps k
    exact ⟨t₁, t₂, ht₁, ht₂, ht.result⟩
  · rintro rfl hd
    exact ⟨step_started_of_forwarded h₁ hd, step_started_of_forwarded h₂ (hparams ▸ hd)⟩

end Sys2Proof.Machine
end

section
/-! PROOFS. The accesses that the block admits, and the placement of its spaces (20_memory.md R80, R84, R87). -/

namespace Sys2Proof.Machine

section

variable {s : State} {p : Params}

/-! ## Admission (R84) -/

/-- The accesses that are not admitted, clause by clause. -/
theorem admits_eq_false_iff (p : Params) (a : Access) :
    admits p a = false ↔
      (a.space = .reg ∧ (a.width ≠ 32 ∨ a.offset % 4 ≠ 0 ∨ 0xFF < a.offset)) ∨
      (a.space = .inBuf ∧ (a.width ≠ 8 ∨ p.inCap ≤ a.offset)) ∨
      (a.space = .outBuf ∧ (a.width ≠ 8 ∨ p.outCap ≤ a.offset)) := by
  obtain ⟨space, offset, width, op⟩ := a
  cases space <;> simp [admits] <;> omega

theorem State.hostAccess_of_not_admitted {a : Access} (h : admits s.params a = false) :
    s.hostAccess a = .answer (.fault .busError) := by
  simp [State.hostAccess, h]

/-- A command always answers a next state, and so does every other register write. -/
theorem State.hostWriteReg_next (s : State) (r : RegName) (v : Word) : ∃ t, (s.hostWriteReg r v).outcome = .next t := by
  cases r with
  | cmd => exact ⟨_, exec_decodeCommand v s⟩
  | _ => exact ⟨_, rfl⟩

/-- The one fault of a host write is that to IN while BUSY (70_reset_and_hazards.md R460). -/
theorem State.hostWrite_next_or_inWriteWhileBusy (s : State) (sp : Space) (offset : Nat) (v : Word) :
    (∃ t, (s.hostWrite sp offset v).outcome = .next t) ∨
    (s.hostWrite sp offset v).outcome = .fault .inWriteWhileBusy := by
  cases hr : s.resetLine with
  | true => exact .inl ⟨s, by simp [State.hostWrite, hr, Next.outcome]⟩
  | false =>
    cases sp with
    | reg => exact .inl (by simpa [State.hostWrite, hr] using s.hostWriteReg_next (regAt offset) v)
    | inBuf =>
      cases hb : s.busy
      · exact .inl ⟨_, by rw [State.hostWrite_inBuf_of_idle offset v hr hb, Next.outcome]⟩
      · exact .inr (by rw [State.hostWrite_inBuf_of_busy offset v hr hb, Next.outcome])
    | outBuf => exact .inl ⟨s, by rw [State.hostWrite_outBuf, Next.outcome]⟩

theorem State.hostAccess_ne_busError {a : Access} (h : admits s.params a = true) :
    (s.hostAccess a).outcome ≠ .fault .busError := by
  rw [State.hostAccess, if_pos h]
  cases a.op with
  | read => simp [Next.outcome]
  | write v =>
    obtain ⟨t, ht⟩ | ht := s.hostWrite_next_or_inWriteWhileBusy a.space a.offset v <;> simp [ht]

/-! ## Placement (R87) -/

/-- With windows that do not overlap, base + offset of a space lies in the window of that space alone. -/
theorem locate_spaceBase_add {sp : Space} {offset : Nat} (hd : windowsDisjoint p) (ho : offset < spaceSize p sp) :
    locate p (spaceBase p sp + offset) = some (sp, offset) := by
  obtain ⟨regIn, regOut, inOut⟩ := hd
  cases sp <;> simp only [spaceBase, spaceSize] at ho ⊢ <;> unfold locate
  case reg => rw [if_pos (by omega), Nat.add_sub_cancel_left]
  case inBuf => rw [if_neg (by omega), if_pos (by omega), Nat.add_sub_cancel_left]
  case outBuf => rw [if_neg (by omega), if_neg (by omega), if_pos (by omega), Nat.add_sub_cancel_left]

theorem State.take_bus_of_locate {address offset : Nat} {sp : Space} (h : locate s.params address = some (sp, offset))
    (width : Nat) (op : Transfer) : s.take (.bus address width op) = s.take (.access ⟨sp, offset, width, op⟩) := by
  simp only [State.take, h]

end

/-- Settles O11: the listed accesses are those that `admits` turns down, and an admitted one stops, if at all, for a write
to IN while BUSY. -/
theorem unadmittedAccessIsABusError : Obligations.UnadmittedAccessIsABusError := by
  intro s a rest hi
  rw [step_of_input hi, State.take]
  refine ⟨fun hbad => ?_, fun hgood => State.hostAccess_ne_busError (s := s.setInputs rest) ?_⟩
  · rw [State.hostAccess_of_not_admitted (s := s.setInputs rest) ((admits_eq_false_iff s.params a).mpr hbad), Next.outcome]
  · exact Bool.eq_true_of_not_eq_false fun h => hgood ((admits_eq_false_iff s.params a).mp h)

/-- Settles O15: the physical address is located in its space at its offset. -/
theorem physicalAddressReachesItsSpace : Obligations.PhysicalAddressReachesItsSpace := by
  intro s sp offset width op rest hd ho
  rw [step_of_input (State.setInputs_inputs s _), step_of_input (State.setInputs_inputs s _)]
  exact congrArg Next.outcome (State.take_bus_of_locate (s := s.setInputs rest) (locate_spaceBase_add hd ho) width op)

end Sys2Proof.Machine
end

section
/-! PROOFS. Polling: host reads among the engine's turns leave the engine where the turns alone bring it
(20_memory.md R90; 47_dispatcher.md R368). -/

namespace Sys2Proof.Machine

section

variable {s t u : State}

/-- Two blocks in which the engine stands at the same place, with the same results; they may differ in the inputs to come,
on the bus and in the free values of OUT. -/
structure SameEngine (s u : State) : Prop extends SameView s u, SameResult s u where
  resetLine : u.resetLine = s.resetLine

theorem SameEngine.setInputs (s : State) (xs : List Input) : SameEngine s (s.setInputs xs) where
  toSameView := ⟨rfl, rfl, rfl, rfl⟩
  toSameResult := ⟨rfl, rfl, rfl, rfl, rfl, rfl⟩
  resetLine := rfl

/-- Only the list of inputs of the polled block is replaced. -/
theorem SameEngine.setInputs_left (h : SameEngine s u) (xs : List Input) : SameEngine (s.setInputs xs) u :=
  { h with }

theorem SameEngine.running_eq (h : SameEngine s u) : u.running = s.running := by
  rw [State.running, State.running, State.busy, State.busy, h.status, h.resetLine]

/-! ## A read -/

theorem State.hostRead_sameResult (s : State) (sp : Space) (offset : Nat) : SameResult (s.hostRead sp offset) s := by
  cases sp with
  | reg => exact ⟨rfl, rfl, rfl, rfl, rfl, rfl⟩
  | inBuf => exact ⟨rfl, rfl, rfl, rfl, rfl, rfl⟩
  | outBuf =>
    simp only [State.hostRead]
    split <;> exact ⟨rfl, rfl, rfl, rfl, rfl, rfl⟩

/-- A host read of the one block keeps the two alike. -/
theorem SameEngine.hostRead (h : SameEngine s u) (sp : Space) (offset : Nat) : SameEngine (s.hostRead sp offset) u := by
  have same := s.hostRead_onlyRead sp offset
  have results := s.hostRead_sameResult sp offset
  exact {
    params := h.params.trans same.params.symm
    latch := h.latch.trans same.latch.symm
    work := h.work.trans same.work.symm
    input := h.input.trans (State.input_congr same.latch (s.hostRead_readIn sp offset)).symm
    status := results.status.trans h.status
    errCode := results.errCode.trans h.errCode
    errPos := results.errPos.trans h.errPos
    errCount := results.errCount.trans h.errCount
    outLen := results.outLen.trans h.outLen
    outDefined := results.outDefined.trans h.outDefined
    resetLine := h.resetLine.trans same.resetLine.symm }

theorem State.hostAccess_of_read {a : Access} (hop : a.op = .read) (h : (s.hostAccess a).outcome = .next t) :
    t = s.hostRead a.space a.offset := by
  unfold State.hostAccess at h
  split at h
  · rw [hop] at h
    cases h
    rfl
  · cases h

/-- A read or a turn, if it answers a next state, is just that. -/
theorem State.take_of_isReadOrTurn {x : Input} (hx : x.isReadOrTurn = true) (h : (s.take x).outcome = .next t) :
    (x = .turn ∧ s.engineTurn.outcome = .next t) ∨ (x ≠ .turn ∧ ∃ sp offset, t = s.hostRead sp offset) := by
  cases x with
  | access a => exact .inr ⟨nofun, _, _, State.hostAccess_of_read (of_decide_eq_true hx) h⟩
  | bus address width op =>
    have hop : op = .read := of_decide_eq_true hx
    simp only [State.take] at h
    split at h
    · exact .inr ⟨nofun, _, _, State.hostAccess_of_read hop h⟩
    · cases h
  | turn => exact .inl ⟨rfl, h⟩
  | resetAssert => cases hx
  | resetRelease => cases hx
  | powerUp => cases hx

/-! ## A turn -/

/-- The same move keeps the engines alike. -/
theorem SameEngine.apply (h : SameEngine s u) (m : EngineMove) : SameEngine (m.apply s) (m.apply u) where
  params := by rw [(m.apply_frame u).params, (m.apply_frame s).params, h.params]
  latch := by rw [m.apply_latch, m.apply_latch, h.latch]
  work := by
    cases m with
    | work w => rfl
    | finish r => simpa only [EngineMove.apply, State.complete_work] using h.work
  input := by rw [m.apply_input, m.apply_input, h.input]
  toSameResult := m.apply_sameResult h.params.symm h.toSameResult
  resetLine := by rw [(m.apply_frame u).resetLine, (m.apply_frame s).resetLine, h.resetLine]

/-- The head of `execute` that answers a next state does not forward to an attached DEFLATE unit (R380). -/
theorem not_forwarded_of_next (h : dispatchStep s = .next t) (halg : s.latch.alg = 3) :
    s.params.deflateAttached = false := by
  cases hd : s.params.deflateAttached with
  | false => rfl
  | true => cases (dispatchStep_of_forwarded halg hd).symm.trans h

/-- Engines at the same place make the same move. -/
theorem SameEngine.engineTurn (h : SameEngine s u) (ht : s.engineTurn.outcome = .next t) :
    SameMove s u s.engineTurn.outcome u.engineTurn.outcome := by
  cases hr : s.running with
  | false =>
    rw [State.engineTurn_of_not_running hr, State.engineTurn_of_not_running (h.running_eq.trans hr)]
    exact .nothing h.toSameView
  | true =>
    have hru : u.running = true := h.running_eq.trans hr
    by_cases hp : s.work.phase = .dispatch
    · have hpu : u.work.phase = .dispatch := by rw [h.work, hp]
      rw [State.engineTurn_of_dispatch hr hp] at ht
      rw [State.engineTurn_of_dispatch hr hp, State.engineTurn_of_dispatch hru hpu]
      exact dispatchStep_sameMove h.params h.latch (not_forwarded_of_next ht)
    · exact h.toSameView.engineTurn hr hru hp

/-- A turn of the polled block is a step of the block that is left alone. -/
theorem SameEngine.turn (h : SameEngine s u) (hu : u.inputs = []) (ht : s.engineTurn.outcome = .next t) :
    ∃ v, step u = .next v ∧ v.inputs = [] ∧ SameEngine t v := by
  obtain ⟨m, hms, hmu⟩ := h.engineTurn ht
  cases hms.symm.trans ht
  exact ⟨m.apply u, (step_of_no_input hu).trans hmu, (m.apply_frame u).inputs.trans hu, h.apply m⟩

/-! ## A run -/

/-- One step of a run that goes on to a next state. -/
theorem steps_succ_next {k : Nat} (h : steps (k + 1) s = .next t) : ∃ s', step s = .next s' ∧ steps k s' = .next t := by
  unfold steps at h
  split at h
  next s' hs => exact ⟨s', hs, h⟩
  next => cases h
  next => cases h

/-- After one read or turn the rest of the inputs is still to come. -/
theorem State.take_inputs_of_isReadOrTurn {x : Input} (hx : x.isReadOrTurn = true)
    (h : (s.take x).outcome = .next t) : t.inputs = s.inputs := by
  obtain ⟨-, hturn⟩ | ⟨-, sp, offset, rfl⟩ := State.take_of_isReadOrTurn hx h
  · obtain ⟨m, rfl⟩ := State.engineTurn_move hturn
    exact (m.apply_frame s).inputs
  · exact (s.hostRead_onlyRead sp offset).inputs

/-- By induction over the inputs: a read leaves the undisturbed block where it is, a turn is one step of it. -/
theorem SameEngine.steps (xs : List Input) (h : SameEngine s u) (hu : u.inputs = []) (hs : s.inputs = xs)
    (hxs : ∀ x ∈ xs, x.isReadOrTurn = true) (hrun : Machine.steps xs.length s = .next t) :
    ∃ v, Machine.steps (xs.count .turn) u = .next v ∧ SameEngine t v := by
  induction xs generalizing s u with
  | nil =>
    cases hrun
    exact ⟨u, rfl, h⟩
  | cons x xs ih =>
    obtain ⟨s', hstep, hrest⟩ := steps_succ_next hrun
    obtain ⟨hx, hxs'⟩ := List.forall_mem_cons.mp hxs
    rw [step_of_input hs] at hstep
    have hs' : s'.inputs = xs := State.take_inputs_of_isReadOrTurn hx hstep
    have h' := h.setInputs_left xs
    obtain ⟨rfl, hturn⟩ | ⟨hne, sp, offset, rfl⟩ := State.take_of_isReadOrTurn hx hstep
    · obtain ⟨v, hv, hvi, hsame⟩ := h'.turn hu hturn
      rw [List.count_cons_self, steps_succ_of_step hv]
      exact ih hsame hvi hs' hxs' hrest
    · rw [List.count_cons_of_ne hne]
      exact ih (h'.hostRead sp offset) hu hs' hxs' hrest

end

/-- Settles O17: the polled block and the one whose engine has its turns alone keep their engines at the same place. -/
theorem readsDoNotDisturbTheEngine : Obligations.ReadsDoNotDisturbTheEngine := by
  intro s t xs hs hxs hrun
  obtain ⟨u, hu, same⟩ := (SameEngine.setInputs s []).steps xs rfl hs hxs hrun
  exact ⟨u, hu, same.work.symm, same.latch.symm, same.toSameResult⟩

end Sys2Proof.Machine
end

section
/-! PROOFS. The bit reader by the number of the bit it stands at (40_bitstream.md R154 to R156; 20_memory.md R82). -/

namespace Sys2Proof.Machine

/-! ## The bits of a byte sequence -/

theorem bitsOf_cons (x : Byte) (p : List Byte) :
    bitsOf (x :: p) = (List.range 8).map (fun k => x.getLsbD (7 - k)) ++ bitsOf p := rfl

theorem bitsOf_length (p : List Byte) : (bitsOf p).length = 8 * p.length := by
  induction p with
  | nil => rfl
  | cons x p ih => rw [bitsOf_cons, List.length_append, ih, List.length_map, List.length_range, List.length_cons]; omega

/-- Bit number `k` is bit `7 - k % 8` of byte `k / 8`. -/
theorem bitsOf_getElem? (p : List Byte) (k : Nat) :
    (bitsOf p)[k]? = p[k / 8]?.map (fun x => x.getLsbD (7 - k % 8)) := by
  induction p generalizing k with
  | nil => rfl
  | cons x p ih =>
    rw [bitsOf_cons]
    by_cases hk : k < 8
    · rw [List.getElem?_append_left (by simpa using hk), Nat.div_eq_of_lt hk, Nat.mod_eq_of_lt hk]
      simp [hk]
    · obtain ⟨j, rfl⟩ : ∃ j, k = j + 8 := ⟨k - 8, by omega⟩
      rw [List.getElem?_append_right (by simp)]
      simp [ih]

/-! ## The reader at bit `k` -/

/-- The reader that has read `k` bits: `rbyte` whole bytes and `rbit` bits of the next. -/
def Reader.atBit (k : Nat) : Reader := ⟨k / 8, k % 8⟩

theorem Reader.start_eq_atBit : Reader.start = Reader.atBit 0 := rfl

/-- The counters after the read of R154. -/
theorem Reader.atBit_succ (k : Nat) :
    (if (Reader.atBit k).rbit + 1 = 8 then (⟨(Reader.atBit k).rbyte + 1, 0⟩ : Reader)
      else ⟨(Reader.atBit k).rbyte, (Reader.atBit k).rbit + 1⟩) = Reader.atBit (k + 1) := by
  change (if k % 8 + 1 = 8 then _ else _) = _
  unfold Reader.atBit
  split <;> simp only [Reader.mk.injEq] <;> omega

/-- `read_bit()` at bit `k` returns that bit and stands at the next; past the last bit it is EOS. -/
theorem Reader.readBit_atBit (p : List Byte) (k : Nat) :
    (Reader.atBit k).readBit p = (bitsOf p)[k]?.map (fun b => (b, Reader.atBit (k + 1))) := by
  rw [Reader.readBit, Reader.atBit_succ, bitsOf_getElem?, show (Reader.atBit k).rbyte = k / 8 from rfl]
  cases p[k / 8]? <;> rfl

theorem Reader.readBit_atBit_of_lt {p : List Byte} {k : Nat} (h : k < (bitsOf p).length) :
    (Reader.atBit k).readBit p = some ((bitsOf p)[k], Reader.atBit (k + 1)) := by
  rw [Reader.readBit_atBit, List.getElem?_eq_getElem h, Option.map_some]

theorem Reader.readBit_atBit_of_le {p : List Byte} {k : Nat} (h : (bitsOf p).length ≤ k) :
    (Reader.atBit k).readBit p = none := by
  rw [Reader.readBit_atBit, List.getElem?_eq_none h, Option.map_none]

theorem Reader.bits_atBit (p : List Byte) (fuel k : Nat) :
    Reader.bits p fuel (Reader.atBit k) = ((bitsOf p).drop k).take fuel := by
  induction fuel generalizing k with
  | zero => rfl
  | succ fuel ih =>
    by_cases hk : k < (bitsOf p).length
    · simp only [Reader.bits, Reader.readBit_atBit_of_lt hk]
      rw [ih, List.drop_eq_getElem_cons hk, List.take_succ_cons]
    · have hend : (bitsOf p).length ≤ k := Nat.le_of_not_lt hk
      simp only [Reader.bits, Reader.readBit_atBit_of_le hend]
      rw [List.drop_eq_nil_of_le hend, List.take_nil]

/-- Every read moves the reader one bit on, until it stands at the end. -/
theorem Reader.skip_atBit {p : List Byte} (k : Nat) {j : Nat} (hj : j ≤ (bitsOf p).length) :
    Reader.skip p k (Reader.atBit j) = Reader.atBit (min (j + k) (bitsOf p).length) := by
  induction k generalizing j with
  | zero => rw [Reader.skip, Nat.add_zero, Nat.min_eq_left hj]
  | succ k ih =>
    obtain hlt | rfl := Nat.lt_or_eq_of_le hj
    · simp only [Reader.skip, Reader.readBit_atBit_of_lt hlt]
      rw [ih hlt, Nat.succ_add_eq_add_succ]
    · simp only [Reader.skip, Reader.readBit_atBit_of_le (Nat.le_refl _)]
      rw [Nat.min_eq_right (Nat.le_add_right _ _)]

theorem Reader.skip_start (p : List Byte) (k : Nat) :
    Reader.skip p k Reader.start = Reader.atBit (min k (8 * p.length)) := by
  rw [Reader.start_eq_atBit, Reader.skip_atBit k (Nat.zero_le _), Nat.zero_add, bitsOf_length]

/-- Settles O60: after `k` reads the reader stands at bit `k`, or at the end of the 8P bits. -/
theorem bitReaderOrder : Obligations.BitReaderOrder := by
  intro p
  refine ⟨?_, bitsOf_length p, fun k hk => ?_, fun k hk => ?_⟩
  · rw [Reader.remaining, Reader.start_eq_atBit, Reader.bits_atBit, List.drop_zero, ← bitsOf_length, List.take_length]
  · rw [Reader.skip_start, Nat.min_eq_left hk]
    exact Nat.div_add_mod k 8
  · rw [Reader.skip_start, Nat.min_eq_right hk]
    exact Reader.readBit_atBit_of_le (bitsOf_length p).le

end Sys2Proof.Machine
end

section
/-! PROOFS. Bytes and big-endian numbers by the fields they are put together from, and back (00_scope.md R12;
30_encoding.md R116 to R125). -/

namespace Sys2Proof.Machine

theorem toNat_append_eq {m n : Nat} (x : BitVec m) (y : BitVec n) : (x ++ y).toNat = x.toNat * 2 ^ n + y.toNat := by
  rw [BitVec.toNat_append, ← Nat.shiftLeft_add_eq_or_of_lt y.isLt, Nat.shiftLeft_eq]

@[simp] theorem low7_byteOf (top : Bool) (low : BitVec 7) : low7 (byteOf top low) = low :=
  BitVec.extractLsb'_append_eq_right

@[simp] theorem byteOf_msb (top : Bool) (low : BitVec 7) : (byteOf top low).msb = top :=
  BitVec.msb_append.trans (BitVec.msb_ofBool top)

theorem byteOf_toNat (top : Bool) (low : BitVec 7) : (byteOf top low).toNat = top.toNat * 128 + low.toNat :=
  (toNat_append_eq _ low).trans (by rw [BitVec.toNat_ofBool]; rfl)

/-- Every byte is its bit 7 over its seven low bits. -/
theorem exists_byteOf (b : Byte) : ∃ top low, b = byteOf top low :=
  ⟨b.msb, b.setWidth 7, (BitVec.cons_msb_setWidth b).symm⟩

/-- The first byte of LZ.MATCH: `1 LLL HHHH` (R121). -/
def matchByte (len : BitVec 3) (offHi : BitVec 4) : Byte := (1 : BitVec 1) ++ len ++ offHi

theorem encode_lzMatch (len : BitVec 3) (offHi : BitVec 4) (offLo : Byte) :
    encode (.lzMatch len offHi offLo) = .bytes [matchByte len offHi, offLo] := rfl

theorem matchByte_toNat (len : BitVec 3) (offHi : BitVec 4) :
    (matchByte len offHi).toNat = 0x80 + len.toNat * 16 + offHi.toNat := by
  rw [matchByte, toNat_append_eq, toNat_append_eq]
  change (1 * 8 + len.toNat) * 16 + offHi.toNat = _
  omega

/-- The first byte of LZ.MATCH is never the escape (R121). -/
theorem matchByte_eq_escape_iff (len : BitVec 3) (offHi : BitVec 4) :
    matchByte len offHi = Config.escape ↔ len = 0 ∧ offHi = 0 := by
  simp only [← BitVec.toNat_inj, matchByte_toNat]
  change 0x80 + len.toNat * 16 + offHi.toNat = 0x80 ↔ len.toNat = 0 ∧ offHi.toNat = 0
  omega

@[simp] theorem matchByte_msb (len : BitVec 3) (offHi : BitVec 4) : (matchByte len offHi).msb = true := by
  rw [BitVec.msb_eq_decide, matchByte_toNat, decide_eq_true_iff]
  omega

@[simp] theorem matchByte_len (len : BitVec 3) (offHi : BitVec 4) : (matchByte len offHi).extractLsb' 4 3 = len := by
  apply BitVec.eq_of_toNat_eq
  rw [BitVec.extractLsb'_toNat, matchByte_toNat, Nat.shiftRight_eq_div_pow]
  omega

@[simp] theorem matchByte_offHi (len : BitVec 3) (offHi : BitVec 4) : (matchByte len offHi).extractLsb' 0 4 = offHi :=
  BitVec.extractLsb'_append_eq_right

theorem exists_matchByte (low : BitVec 7) : ∃ len offHi, byteOf true low = matchByte len offHi := by
  refine ⟨low.extractLsb' 4 3, low.extractLsb' 0 4, BitVec.eq_of_toNat_eq ?_⟩
  simp only [matchByte_toNat, byteOf_toNat, BitVec.extractLsb'_toNat, Nat.shiftRight_eq_div_pow, Bool.toNat_true]
  omega

theorem be16_put16 (v : BitVec 16) : be16 (v.extractLsb' 8 8) (v.extractLsb' 0 8) = v :=
  (BitVec.extractLsb'_append_extractLsb'_eq_extractLsb' rfl).trans BitVec.extractLsb'_eq_self

theorem put16_be16 (b1 b0 : Byte) : put16 (be16 b1 b0) = [b1, b0] := by
  rw [put16, be16, BitVec.extractLsb'_append_eq_left, BitVec.extractLsb'_append_eq_right]

theorem be32_toNat (b3 b2 b1 b0 : Byte) :
    (be32 b3 b2 b1 b0).toNat = ((b3.toNat * 256 + b2.toNat) * 256 + b1.toNat) * 256 + b0.toNat := by
  rw [be32, toNat_append_eq, toNat_append_eq, toNat_append_eq]
  rfl

theorem be32_put32 (v : Word) :
    be32 (v.extractLsb' 24 8) (v.extractLsb' 16 8) (v.extractLsb' 8 8) (v.extractLsb' 0 8) = v := by
  apply BitVec.eq_of_toNat_eq
  simp only [be32_toNat, BitVec.extractLsb'_toNat, Nat.shiftRight_eq_div_pow]
  omega

theorem put32_be32 (b3 b2 b1 b0 : Byte) : put32 (be32 b3 b2 b1 b0) = [b3, b2, b1, b0] := by
  simp only [put32, List.cons.injEq, ← BitVec.toNat_inj, BitVec.extractLsb'_toNat, be32_toNat,
    Nat.shiftRight_eq_div_pow, and_true]
  omega

/-- A byte below 0x80 has bit 7 clear. -/
theorem exists_byteOf_of_lt {b : Byte} (h : b.toNat < 0x80) : ∃ low, b = byteOf false low ∧ low.toNat = b.toNat := by
  obtain ⟨top, low, rfl⟩ := exists_byteOf b
  rw [byteOf_toNat] at h ⊢
  cases top with
  | false => exact ⟨low, rfl, by simp⟩
  | true => simp at h

/-- A byte of 0x80 or above has bit 7 set. -/
theorem exists_byteOf_of_le {b : Byte} (h : 0x80 ≤ b.toNat) :
    ∃ low, b = byteOf true low ∧ 0x80 + low.toNat = b.toNat := by
  obtain ⟨top, low, rfl⟩ := exists_byteOf b
  rw [byteOf_toNat] at h ⊢
  cases top with
  | false =>
    rw [Bool.toNat_false] at h
    omega
  | true => exact ⟨low, rfl, by simp⟩

end Sys2Proof.Machine
end

section
/-! PROOFS. Command words: the decoder reads their three fields and nothing else, so the 32 words with bits 30:4 zero
stand for all (30_encoding.md R111, R112, R114). -/

namespace Sys2Proof.Machine

theorem decodeCommand_congr {w w' : Word} (hs : cmdStartField w = cmdStartField w')
    (hm : cmdModeField w = cmdModeField w') (ha : cmdAlgField w = cmdAlgField w') :
    decodeCommand w = decodeCommand w' := by
  simp only [decodeCommand, hs, hm, ha]

/-- The fields of a command word are those it was made of. -/
theorem commandWord_fields (start : Bool) (mode : Mode) (alg : BitVec 3) :
    cmdStartField (commandWord start mode alg) = start ∧ cmdModeField (commandWord start mode alg) = mode ∧
      cmdAlgField (commandWord start mode alg) = alg := by
  revert alg
  cases start <;> cases mode <;> decide

theorem Mode.bit_cmdModeField (w : Word) : (cmdModeField w).bit = w.getLsbD 3 := by
  rw [cmdModeField]
  cases w.getLsbD 3 <;> rfl

theorem extractLsb'_one_eq_ofBool {n : Nat} (x : BitVec n) (k : Nat) :
    x.extractLsb' k 1 = BitVec.ofBool (x.getLsbD k) := by
  apply BitVec.eq_of_getLsbD_eq
  intro i hi
  obtain rfl : i = 0 := by omega
  simp

/-- START, the ignored bits, MODE and ALG make up a CMD value (R111). -/
theorem cmdFields_append (w : Word) :
    w.extractLsb' 31 1 ++ w.extractLsb' 4 27 ++ w.extractLsb' 3 1 ++ w.extractLsb' 0 3 = w := by
  apply BitVec.eq_of_toNat_eq
  simp only [toNat_append_eq, BitVec.extractLsb'_toNat, Nat.shiftRight_eq_div_pow]
  omega

/-- The command word of a CMD value's fields is the value with bits 30:4 cleared. -/
theorem commandWord_of_fields (w : Word) :
    commandWord (cmdStartField w) (cmdModeField w) (cmdAlgField w) = w &&& 0x8000000F#32 := by
  calc commandWord (cmdStartField w) (cmdModeField w) (cmdAlgField w)
    _ = w.extractLsb' 31 1 ++ 0#27 ++ w.extractLsb' 3 1 ++ w.extractLsb' 0 3 := by
      rw [commandWord, Mode.bit_cmdModeField, extractLsb'_one_eq_ofBool, extractLsb'_one_eq_ofBool]
      rfl
    _ = (w.extractLsb' 31 1 ++ w.extractLsb' 4 27 ++ w.extractLsb' 3 1 ++ w.extractLsb' 0 3) &&&
          (BitVec.allOnes 1 ++ 0#27 ++ BitVec.allOnes 1 ++ BitVec.allOnes 3) := by
      simp only [BitVec.and_append, BitVec.and_allOnes, BitVec.and_zero]
    _ = w &&& 0x8000000F#32 := by rw [cmdFields_append]; rfl

theorem decodeCommand_commandWord (w : Word) :
    decodeCommand (commandWord (cmdStartField w) (cmdModeField w) (cmdAlgField w)) = decodeCommand w := by
  obtain ⟨hs, hm, ha⟩ := commandWord_fields (cmdStartField w) (cmdModeField w) (cmdAlgField w)
  exact decodeCommand_congr hs hm ha

/-- What the command decoder reads is well formed and is encoded by its fields. -/
theorem decodeCommand_wf_and_encode (w : Word) :
    (decodeCommand w).wf = true ∧
      encode (decodeCommand w) = .word (commandWord (cmdStartField w) (cmdModeField w) (cmdAlgField w)) := by
  rw [← decodeCommand_commandWord]
  generalize cmdStartField w = start
  generalize cmdModeField w = mode
  generalize cmdAlgField w = alg
  revert alg
  cases start <;> cases mode <;> decide

/-- An instruction whose encoding is a command word is read back from it. -/
theorem decodeCommand_of_encode {i : Instr} {w : Word} (h : encode i = .word w) : decodeCommand w = i := by
  cases i with
  | unsup mode algLow =>
    cases h
    revert algLow
    cases mode <;> decide
  | cmdStore mode alg =>
    cases h
    revert alg
    cases mode <;> decide
  | _ => cases h <;> decide

theorem decodeCommand_of_reserved {w : Word} (hs : w.getLsbD 31 = true) (ha : w.getLsbD 2 = true) :
    decodeCommand w = .unsup (cmdModeField w) ((cmdAlgField w).extractLsb' 0 2) ∧
      reservedAlg ((cmdAlgField w).extractLsb' 0 2) = cmdAlgField w := by
  have high : (cmdAlgField w).getLsbD 2 = true := by simpa [cmdAlgField] using ha
  rw [← decodeCommand_commandWord, show cmdStartField w = true from hs]
  generalize cmdModeField w = mode
  generalize cmdAlgField w = alg at high ⊢
  revert alg
  cases mode <;> decide

theorem decodeCommand_of_store {w : Word} (hs : w.getLsbD 31 = false) :
    decodeCommand w = .cmdStore (cmdModeField w) (cmdAlgField w) := by
  rw [decodeCommand, show cmdStartField w = false from hs]
  rfl

theorem cmdModeField_eq_decompress_iff (w : Word) : cmdModeField w = .decompress ↔ w.getLsbD 3 = true := by
  simp [cmdModeField]

/-- A read of CMD has bits 31:4 zero (R114). -/
theorem cmdRead_high (mode : Mode) (alg : BitVec 3) : (cmdRead mode alg).extractLsb' 4 28 = 0 := by
  revert alg
  cases mode <;> decide

/-- Settles O1: the 16 words are evaluated; of the words of UNSUP and CMD.STORE the decoder reads the fields. -/
theorem writtenOutWordsDecode : Obligations.WrittenOutWordsDecode := by
  refine ⟨rfl, rfl, rfl, rfl, rfl, rfl, rfl, rfl, by decide, by decide, by decide, by decide, by decide, by decide,
    by decide, by decide, fun w hs ha => ?_, fun w hs => ?_⟩
  · obtain ⟨hd, hr⟩ := decodeCommand_of_reserved hs ha
    exact ⟨_, _, hd, cmdModeField_eq_decompress_iff w, hr⟩
  · exact ⟨_, decodeCommand_of_store hs, cmdModeField_eq_decompress_iff w⟩

/-- Settles O2: bits 30:4 belong to no field, and CMD reads back as its two fields. -/
theorem ignoredCommandBitsSelectNothing : Obligations.IgnoredCommandBitsSelectNothing := by
  refine ⟨fun w w' hs hlow => ?_, fun w s => ⟨_, exec_decodeCommand w s, cmdRead_high _ _⟩⟩
  have hm : w.getLsbD 3 = w'.getLsbD 3 := by simpa using congrArg (BitVec.getLsbD · 3) hlow
  have ha : cmdAlgField w = cmdAlgField w' := by
    simpa [cmdAlgField] using congrArg (BitVec.extractLsb' 0 3) hlow
  exact decodeCommand_congr hs (by rw [cmdModeField, cmdModeField, hm]) ha

end Sys2Proof.Machine
end

section
/-! PROOFS. The blocks, tokens and header fields of the containers: one equation of the decoder per kind of first byte
(30_encoding.md R116 to R125). -/

namespace Sys2Proof.Machine

/-! ## RLE blocks (R116 to R118) -/

theorem decodeRle_run (len : BitVec 7) (value : Byte) (tail : List Byte) :
    decodeRle (byteOf true len :: value :: tail) = .ok (.rleRun len value) := by
  simp [decodeRle]

theorem decodeRle_run_truncated (len : BitVec 7) : decodeRle [byteOf true len] = .error .truncatedBlock := by
  simp [decodeRle]

theorem decodeRle_lit {len : BitVec 7} {rest : List Byte} (h : len.toNat + 1 ≤ rest.length) :
    decodeRle (byteOf false len :: rest) = .ok (.rleLit len (rest.take (len.toNat + 1))) := by
  simp [decodeRle, Nat.not_lt.mpr h]

theorem decodeRle_lit_append {len : BitVec 7} {raw : List Byte} (h : raw.length = len.toNat + 1) (tail : List Byte) :
    decodeRle (byteOf false len :: (raw ++ tail)) = .ok (.rleLit len raw) := by
  rw [decodeRle_lit (by simp [h]), ← h, List.take_left]

theorem decodeRle_lit_truncated {len : BitVec 7} {rest : List Byte} (h : rest.length < len.toNat + 1) :
    decodeRle (byteOf false len :: rest) = .error .truncatedBlock := by
  simp [decodeRle, h]

/-- Settles O6: a control byte is bit 7 over L, and each of the two kinds is either whole or truncated. -/
theorem rleBlocksAreClassified : Obligations.RleBlocksAreClassified := by
  intro c rest
  refine ⟨fun hc => ?_, fun hc => ?_⟩
  · obtain ⟨len, rfl, hlen⟩ := exists_byteOf_of_le hc
    refine ⟨?_, ?_⟩
    · rintro rfl
      exact decodeRle_run_truncated len
    · rintro v tail rfl
      exact ⟨len, decodeRle_run len v tail, by omega, rfl⟩
  · obtain ⟨len, rfl, hlen⟩ := exists_byteOf_of_lt hc
    rw [← hlen]
    exact ⟨decodeRle_lit_truncated, fun h => ⟨len, decodeRle_lit h, rfl, Nat.add_comm _ _⟩⟩

/-! ## LZ77 tokens (R119 to R124) -/

theorem decodeLz_lit (v : BitVec 7) (tail : List Byte) : decodeLz (byteOf false v :: tail) = .ok (.lzLit v) := by
  simp [decodeLz]

theorem decodeLz_truncated (low : BitVec 7) : decodeLz [byteOf true low] = .error .truncatedToken := by
  simp [decodeLz]

@[simp] theorem escape_msb : Config.escape.msb = true := by decide

theorem decodeLz_esc (v : BitVec 7) (tail : List Byte) :
    decodeLz (Config.escape :: byteOf true v :: tail) = .ok (.lzEsc v) := by
  simp [decodeLz]

theorem decodeLz_match3s (offset : BitVec 7) (tail : List Byte) :
    decodeLz (Config.escape :: byteOf false offset :: tail) = .ok (.lzMatch3s offset) := by
  simp [decodeLz]

theorem decodeLz_match {len : BitVec 3} {offHi : BitVec 4} (h : matchByte len offHi ≠ Config.escape) (offLo : Byte)
    (tail : List Byte) : decodeLz (matchByte len offHi :: offLo :: tail) = .ok (.lzMatch len offHi offLo) := by
  simp [decodeLz, h]

theorem lzMatch_wf_iff (len : BitVec 3) (offHi : BitVec 4) (offLo : Byte) :
    (Instr.lzMatch len offHi offLo).wf = true ↔ matchByte len offHi ≠ Config.escape := by
  simp [Instr.wf, matchByte_eq_escape_iff, imp_iff_not_or]

/-- The offset of a match (R122). -/
theorem matchOff_eq (offHi : BitVec 4) (offLo : Byte) : matchOff offHi offLo = offHi.toNat * 256 + offLo.toNat :=
  toNat_append_eq offHi offLo

/-- Settles O5: bit 7 of the first byte tells a literal, and after it the escape is told from the match bytes. -/
theorem lzTokensAreClassified : Obligations.LzTokensAreClassified := by
  intro b1 b2 tail
  refine ⟨fun h1 => ?_, fun h1 h2 => ?_, fun h1 h2 => ?_, fun h1 => ?_, fun h1 => ?_⟩
  · obtain ⟨v, rfl, -⟩ := exists_byteOf_of_lt h1
    exact ⟨v, decodeLz_lit v tail, rfl, rfl⟩
  · obtain rfl : b1 = Config.escape := BitVec.eq_of_toNat_eq h1
    obtain ⟨v, rfl, -⟩ := exists_byteOf_of_le h2
    exact ⟨v, decodeLz_esc v tail, rfl, rfl⟩
  · obtain rfl : b1 = Config.escape := BitVec.eq_of_toNat_eq h1
    obtain ⟨o, rfl, ho⟩ := exists_byteOf_of_lt h2
    exact ⟨o, decodeLz_match3s o tail, ho, rfl⟩
  · obtain ⟨low, rfl, -⟩ := exists_byteOf_of_le (Nat.le_of_lt h1)
    obtain ⟨len, offHi, hb⟩ := exists_matchByte low
    rw [hb] at h1 ⊢
    have hne : matchByte len offHi ≠ Config.escape := fun he => absurd h1 (by rw [he]; decide)
    refine ⟨len, offHi, b2, decodeLz_match hne b2 tail, ?_, ?_, rfl⟩
    · rw [matchLen, matchByte_toNat, Config.minMatch]
      omega
    · rw [matchOff_eq, matchByte_toNat]
      omega
  · obtain ⟨low, rfl, -⟩ := exists_byteOf_of_le h1
    exact decodeLz_truncated low

/-! ## Huffman header fields (R125) -/

theorem decodeHufCount_put16 (count : BitVec 16) (tail : List Byte) :
    decodeHufCount (put16 count ++ tail) = .ok (.hufHdrCount count) :=
  congrArg (fun k => Except.ok (Instr.hufHdrCount k)) (be16_put16 count)

theorem decodeHufEntry_put32 (value : Byte) (freq : Word) (tail : List Byte) :
    decodeHufEntry (value :: put32 freq ++ tail) = .ok (.hufHdrEntry value freq) :=
  congrArg (fun f => Except.ok (Instr.hufHdrEntry value f)) (be32_put32 freq)

/-! ## What a decoder reads (R118, R124, R125) -/

/-- `bs` begins, in format `f`, with the encoding of the well-formed instruction `i`. -/
def BeginsWith (f : Format) (bs : List Byte) (i : Instr) : Prop :=
  i.wf = true ∧ formatOf i = some f ∧ ∃ read rest, encode i = .bytes read ∧ bs = read ++ rest

theorem beginsWith_of_decodeRle {bs : List Byte} {i : Instr} (h : decodeRle bs = .ok i) : BeginsWith .rle bs i := by
  cases bs with
  | nil => cases h
  | cons c rest =>
    obtain ⟨top, len, rfl⟩ := exists_byteOf c
    cases top with
    | true =>
      cases rest with
      | nil => cases (decodeRle_run_truncated len).symm.trans h
      | cons value tail =>
        cases (decodeRle_run len value tail).symm.trans h
        exact ⟨rfl, rfl, [byteOf true len, value], tail, rfl, rfl⟩
    | false =>
      by_cases hlen : len.toNat + 1 ≤ rest.length
      · cases (decodeRle_lit hlen).symm.trans h
        refine ⟨by simpa [Instr.wf] using hlen, rfl, byteOf false len :: rest.take (len.toNat + 1),
          rest.drop (len.toNat + 1), rfl, ?_⟩
        rw [List.cons_append, List.take_append_drop]
      · cases (decodeRle_lit_truncated (Nat.lt_of_not_le hlen)).symm.trans h

theorem beginsWith_of_decodeLz {bs : List Byte} {i : Instr} (h : decodeLz bs = .ok i) : BeginsWith .lz bs i := by
  cases bs with
  | nil => cases h
  | cons b1 rest =>
    obtain ⟨top, low, rfl⟩ := exists_byteOf b1
    cases top with
    | false =>
      cases (decodeLz_lit low rest).symm.trans h
      exact ⟨rfl, rfl, [byteOf false low], rest, rfl, rfl⟩
    | true =>
      cases rest with
      | nil => cases (decodeLz_truncated low).symm.trans h
      | cons b2 tail =>
        obtain ⟨len, offHi, hb⟩ := exists_matchByte low
        rw [hb] at h ⊢
        by_cases he : matchByte len offHi = Config.escape
        · rw [he] at h ⊢
          obtain ⟨top2, low2, rfl⟩ := exists_byteOf b2
          cases top2 with
          | true =>
            cases (decodeLz_esc low2 tail).symm.trans h
            exact ⟨rfl, rfl, [Config.escape, byteOf true low2], tail, rfl, rfl⟩
          | false =>
            cases (decodeLz_match3s low2 tail).symm.trans h
            exact ⟨rfl, rfl, [Config.escape, byteOf false low2], tail, rfl, rfl⟩
        · cases (decodeLz_match he b2 tail).symm.trans h
          exact ⟨(lzMatch_wf_iff len offHi b2).mpr he, rfl, _, tail, encode_lzMatch len offHi b2, rfl⟩

theorem beginsWith_of_decodeHufCount {bs : List Byte} {i : Instr} (h : decodeHufCount bs = .ok i) :
    BeginsWith .hufCount bs i := by
  match bs, h with
  | b1 :: b0 :: tail, h =>
    cases h
    exact ⟨rfl, rfl, put16 (be16 b1 b0), tail, rfl, by rw [put16_be16]; rfl⟩

theorem beginsWith_of_decodeHufEntry {bs : List Byte} {i : Instr} (h : decodeHufEntry bs = .ok i) :
    BeginsWith .hufEntry bs i := by
  match bs, h with
  | v :: f3 :: f2 :: f1 :: f0 :: tail, h =>
    cases h
    exact ⟨rfl, rfl, v :: put32 (be32 f3 f2 f1 f0), tail, rfl, by rw [put32_be32]; rfl⟩

/-- Settles O4: a command word by its fields, and each container decoder by the equations of its first byte. -/
theorem encodeOfDecodeIsTheBytes : Obligations.EncodeOfDecodeIsTheBytes := by
  refine ⟨fun w => ?_, fun f bs i h => ?_⟩
  · obtain ⟨hwf, henc⟩ := decodeCommand_wf_and_encode w
    exact ⟨by rw [henc, commandWord_of_fields], hwf⟩
  · cases f with
    | rle => exact beginsWith_of_decodeRle h
    | lz => exact beginsWith_of_decodeLz h
    | hufCount => exact beginsWith_of_decodeHufCount h
    | hufEntry => exact beginsWith_of_decodeHufEntry h

end Sys2Proof.Machine
end

section
/-! PROOFS. Decoding what the encoder wrote (30_encoding.md R111 to R126). -/

namespace Sys2Proof.Machine

theorem encodedLength (i : Instr) : Laws.EncodedLength.Statement i := by
  cases i with
  | rleLit len raw => exact Laws.EncodedLength.rleLit len raw
  | _ => exact fun _ => rfl

/-- The bytes of a block, token or header field are read back whatever follows them. -/
theorem decode_encode_bytes {i : Instr} {bs : List Byte} (hwf : i.wf = true) (h : encode i = .bytes bs) :
    ∃ f, formatOf i = some f ∧ ∀ rest, decode (f.source (bs ++ rest)) = .ok i := by
  cases i with
  | rleRun len value =>
    cases h
    exact ⟨.rle, rfl, decodeRle_run len value⟩
  | rleLit len raw =>
    cases h
    have hraw : raw.length = len.toNat + 1 := by simpa [Instr.wf] using hwf
    exact ⟨.rle, rfl, decodeRle_lit_append hraw⟩
  | lzLit value =>
    cases h
    exact ⟨.lz, rfl, decodeLz_lit value⟩
  | lzEsc value =>
    cases h
    exact ⟨.lz, rfl, decodeLz_esc value⟩
  | lzMatch3s offset =>
    cases h
    exact ⟨.lz, rfl, decodeLz_match3s offset⟩
  | lzMatch len offHi offLo =>
    cases h
    exact ⟨.lz, rfl, decodeLz_match ((lzMatch_wf_iff len offHi offLo).mp hwf) offLo⟩
  | hufHdrCount count =>
    cases h
    exact ⟨.hufCount, rfl, decodeHufCount_put16 count⟩
  | hufHdrEntry value freq =>
    cases h
    exact ⟨.hufEntry, rfl, decodeHufEntry_put32 value freq⟩
  | _ => cases h

/-- A path that leads to a leaf is the code word that any bits beginning with it begin with (R126). -/
theorem walkCode_of_followPath {nodes : List Node} {path : List Bool} {depth x : Nat} {v : Byte}
    (h : followPath nodes depth x path = .leaf v) (rest : List Bool) :
    walkCode nodes depth x (path ++ rest) = .ok path := by
  induction path generalizing depth x with
  | nil => cases h
  | cons b bs ih =>
    rw [List.cons_append, walkCode]
    rw [followPath] at h
    cases hc : child nodes x b with
    | none => simp [hc] at h
    | some y =>
      cases hl : leafSym nodes y with
      | none =>
        simp only [hc, hl] at h ⊢
        rw [ih h]
        rfl
      | some w =>
        cases bs with
        | nil => simp [hl]
        | cons _ _ => simp [hc, hl] at h

/-- Settles O3: the command words, the container bytes by their equations, and the code words by their path. -/
theorem decodeOfEncodeIsTheInstruction : Obligations.DecodeOfEncodeIsTheInstruction := by
  intro i hwf
  refine ⟨fun w hw => congrArg Except.ok (decodeCommand_of_encode hw), fun bs hbs => ⟨?_, decode_encode_bytes hwf hbs⟩,
    fun p hp nodes root rest v hv => ?_⟩
  · simpa only [hbs, Laws.imageBytes] using encodedLength i hwf
  · cases i with
    | hufCode path =>
      cases hp
      rw [decode, decodeHufCode, walkCode_of_followPath hv]
      rfl
    | _ => cases hp

end Sys2Proof.Machine
end

section
/-! PROOFS. The meanings of the blocks, tokens and code words (41_rle.md R181, R183; 46_lz77_decoder.md R331 to R336;
43_huffman_decoder.md R251, R252). -/

namespace Sys2Proof.Machine

/-! ## Blocks and literals -/

/-- Output of given bytes, as a token does it: only the output and the cursor move. -/
theorem State.emit_meaning (s : State) (bytes : List Byte) (used : Nat) :
    OnlyWorkChanged s (s.emit bytes used) ∧
      (s.emit bytes used).work =
        { s.work with out := s.work.out ++ bytes, cursor := s.work.cursor + used } :=
  ⟨s.setWork_onlyWorkChanged _, rfl⟩

/-- Settles O29: each of the four outputs its bytes and moves the cursor by its length. -/
theorem blockAndLiteralMeanings : Obligations.BlockAndLiteralMeanings := by
  intro s
  refine ⟨fun len value => ⟨_, rfl, s.emit_meaning (List.replicate (blockCount len) value) 2⟩,
    fun len raw => ⟨_, rfl, ?_⟩, fun v => ⟨_, literalByte v, rfl, s.setWork_onlyWorkChanged _, ?_, rfl⟩,
    fun v => ⟨_, escapedByte v, rfl, s.setWork_onlyWorkChanged _, ?_, rfl⟩⟩
  · rw [← Nat.add_comm 1 (len.toNat + 1)]
    exact s.emit_meaning raw (1 + blockCount len)
  · rw [literalByte, byteOf_toNat, Bool.toNat_false, Nat.zero_mul, Nat.zero_add]
  · rw [escapedByte, byteOf_toNat, Bool.toNat_true]

/-! ## The overlapping copy (R336) -/

theorem copyBack_length (off len : Nat) (out : List Byte) : (copyBack off len out).length = out.length + len := by
  induction len generalizing out with
  | zero => rfl
  | succ len ih => rw [copyBack, ih, List.length_append, List.length_singleton]; omega

/-- The copy keeps what has been output, in front. -/
theorem copyBack_eq_append (off len : Nat) (out : List Byte) : ∃ copied, copyBack off len out = out ++ copied := by
  induction len generalizing out with
  | zero => exact ⟨[], out.append_nil.symm⟩
  | succ len ih =>
    obtain ⟨copied, hc⟩ := ih (out ++ [out.getD (out.length - off) 0])
    exact ⟨_, by rw [copyBack, hc, List.append_assoc]⟩

theorem copyBack_take (off len : Nat) (out : List Byte) : (copyBack off len out).take out.length = out := by
  obtain ⟨copied, hc⟩ := copyBack_eq_append off len out
  rw [hc, List.take_left]

theorem copyBack_getElem?_of_lt {off len k : Nat} {out : List Byte} (h : k < out.length) :
    (copyBack off len out)[k]? = out[k]? := by
  obtain ⟨copied, hc⟩ := copyBack_eq_append off len out
  rw [hc, List.getElem?_append_left h]

/-- Every copied byte is the one `off` places before it, be that old or itself copied. -/
theorem copyBack_getElem? {off len j : Nat} {out : List Byte} (h1 : 1 ≤ off) (h2 : off ≤ out.length)
    (hj : j < len) :
    (copyBack off len out)[out.length + j]? = (copyBack off len out)[out.length + j - off]? := by
  induction len generalizing out j with
  | zero => omega
  | succ len ih =>
    have hlen : (out ++ [out.getD (out.length - off) 0]).length = out.length + 1 := by simp
    have hsrc : out.length - off < out.length := by omega
    rw [copyBack]
    cases j with
    | zero =>
      rw [copyBack_getElem?_of_lt (by omega), copyBack_getElem?_of_lt (by omega), Nat.add_zero,
        List.getElem?_concat_length, List.getElem?_append_left hsrc, List.getD_eq_getElem _ _ hsrc,
        List.getElem?_eq_getElem hsrc]
    | succ j =>
      have next := ih (j := j) (out := out ++ [out.getD (out.length - off) 0]) (by omega) (by omega)
      rwa [hlen, Nat.add_assoc, Nat.add_comm 1 j] at next

/-- A match token is a back-reference by the numbers of its operands (R122, R123). -/
theorem exec_match {i : Instr} {len off : Nat}
    (h : (∃ o, i = .lzMatch3s o ∧ len = 3 ∧ off = o.toNat) ∨
      (∃ l h o, i = .lzMatch l h o ∧ len = l.toNat + 3 ∧ off = h.toNat * 256 + o.toNat)) (s : State) :
    exec i s = lzBackRef len off s := by
  obtain ⟨o, rfl, rfl, rfl⟩ | ⟨l, h, o, rfl, rfl, rfl⟩ := h
  · rfl
  · rw [← matchOff_eq]
    rfl

/-- Settles O31: a match is a back-reference, which copies or takes its error. -/
theorem lzMatchMeanings : Obligations.LzMatchMeanings := by
  intro s i len off hi
  rw [exec_match hi]
  obtain ⟨hbad, he⟩ | ⟨h1, h2, he⟩ := lzBackRef_cases len off s
  · exact ⟨fun _ _ => by omega, fun _ => ⟨_, he, s.takeError_ended _ _ _, s.takeError_onlyResultChanged _ _ _⟩⟩
  · exact ⟨fun _ _ => ⟨_, he, s.setWork_onlyWorkChanged _, rfl, copyBack_length off len _, copyBack_take off len _,
      fun j hj => copyBack_getElem? h1 h2 hj⟩, fun _ => by omega⟩

/-! ## Code words (R251, R252) -/

/-- A reader is named by the number of bits it has read. -/
theorem Reader.eq_atBit {r : Reader} (h : r.rbit < 8) : r = Reader.atBit (8 * r.rbyte + r.rbit) := by
  obtain ⟨rbyte, rbit⟩ := r
  simp only [Reader.atBit, Reader.mk.injEq] at h ⊢
  omega

theorem Reader.remaining_atBit_length (p : List Byte) (k : Nat) :
    (Reader.remaining p (Reader.atBit k)).length = (bitsOf p).length - k := by
  rw [Reader.remaining, Reader.bits_atBit, ← bitsOf_length, List.length_take, List.length_drop]
  omega

/-- Bits that are there are read one by one. -/
theorem Reader.skip_of_le_remaining {p : List Byte} {r : Reader} {n : Nat} (h : n ≤ (r.remaining p).length)
    (hn : n ≠ 0) (hr : r.rbit < 8) : Reader.skip p n r = Reader.atBit (8 * r.rbyte + r.rbit + n) := by
  have hk := Reader.eq_atBit hr
  generalize 8 * r.rbyte + r.rbit = k at hk ⊢
  subst hk
  rw [Reader.remaining_atBit_length] at h
  rw [Reader.skip_atBit n (by omega), Nat.min_eq_left (by omega)]

theorem execHufCode_of_leaf {s : State} {path : List Bool} {v : Byte}
    (h : followPath s.work.nodes 0 (rootOf s.work.active) path = .leaf v) :
    exec (.hufCode path) s = .next (s.setWork { s.work with
      out := s.work.out ++ [v], reader := Reader.skip s.payload path.length s.work.reader }) := by
  rw [exec, execHufCode, h]

/-- A turn whose decoder finds no instruction takes the decoder's error. -/
theorem step_of_malformed {s : State} {src : Source} {e : DecodeError} (hr : s.running = true) (hi : s.inputs = [])
    (hs : s.source = some src) (hd : decode src = .error e) : step s = .next (s.decodeFailed e) := by
  rw [step_of_no_input hi, State.engineTurn, if_pos hr]
  simp only [hs, hd, Next.outcome]

/-- Settles O35: a code word moves the reader by its length, and a turn without one takes the error of R252. -/
theorem huffmanCodeMeaning : Obligations.HuffmanCodeMeaning := by
  constructor
  · intro s path v hpath hlen hbit
    have hne : path.length ≠ 0 := by
      intro h0
      rw [List.eq_nil_of_length_eq_zero h0] at hpath
      cases hpath
    refine ⟨_, execHufCode_of_leaf hpath, s.setWork_onlyWorkChanged _, rfl, ?_⟩
    rw [State.setWork_work, Reader.skip_of_le_remaining hlen hne hbit]
    exact Nat.div_add_mod _ 8
  · intro s hr hi hp hout hd
    have hs : s.source = some (.hufCode s.work.nodes (rootOf s.work.active) (s.work.reader.remaining s.payload)) := by
      rw [State.source, hp]
      exact if_pos hout
    exact ⟨_, step_of_malformed hr hi hs hd, s.takeError_ended _ _ _, s.takeError_onlyResultChanged _ _ _⟩

end Sys2Proof.Machine
end

section
/-! PROOFS. The bit writer by the bits it holds (40_bitstream.md R150 to R153; 20_memory.md R82). -/

namespace Sys2Proof.Machine

/-! ## The low bits of a byte -/

/-- The low `n` bits of a byte, MSB-first: what ACC holds of the stream when NBITS is `n` (R150). -/
def lowBits (x : Byte) (n : Nat) : List Bool := (List.range n).map (fun k => x.getLsbD (n - 1 - k))

/-- A bit shifted in stands after the bits that were there. -/
theorem lowBits_shiftIn (x : Byte) (b : Bool) {n : Nat} (h : n < 8) :
    lowBits ((x <<< 1) ||| (BitVec.ofBool b).setWidth 8) (n + 1) = lowBits x n ++ [b] := by
  rw [lowBits, List.range_succ, List.map_append]
  congr 1
  · refine List.map_congr_left fun k hk => ?_
    have hk : k < n := List.mem_range.1 hk
    simp [show n - k < 8 by omega, show n - k ≠ 0 by omega, Nat.sub_right_comm n k 1,
      BitVec.getLsbD_eq_getElem (show n - 1 - k < 8 by omega)]
  · simp

/-- The low `n` bits shifted to the top of the byte are followed by zeros. -/
theorem lowBits_shiftToTop (x : Byte) {n pad : Nat} (h : n + pad = 8) :
    lowBits (x <<< pad) 8 = lowBits x n ++ List.replicate pad false := by
  have hsplit : List.range 8 = List.range n ++ (List.range pad).map (n + ·) := by rw [← h, List.range_add]
  rw [lowBits, hsplit, List.map_append, List.map_map]
  congr 1
  · refine List.map_congr_left fun k hk => ?_
    have hk : k < n := List.mem_range.1 hk
    rw [BitVec.getLsbD_shiftLeft, show 8 - 1 - k - pad = n - 1 - k by omega]
    simp [show 7 - k < 8 by omega, show ¬7 - k < pad by omega]
  · refine List.eq_replicate_iff.2 ⟨by simp, List.forall_mem_map.2 fun k hk => ?_⟩
    have hk : k < pad := List.mem_range.1 hk
    simp [show 7 - (n + k) < pad by omega]

theorem bitsOf_append (p q : List Byte) : bitsOf (p ++ q) = bitsOf p ++ bitsOf q := List.flatMap_append

theorem bitsOf_singleton (x : Byte) : bitsOf [x] = lowBits x 8 := List.append_nil _

/-! ## The bits that a writer holds -/

/-- The bits written so far: those of the bytes emitted, then those that wait in ACC. -/
def Writer.written (wr : Writer) : List Bool := bitsOf wr.w ++ lowBits wr.acc wr.nbits

/-- `write_bit` (R150) appends one bit, whether or not it completes a byte. -/
theorem Writer.writeBit_written {wr : Writer} (b : Bool) (h : wr.nbits < 8) :
    (wr.writeBit b).written = wr.written ++ [b] := by
  rw [written, written, List.append_assoc, ← lowBits_shiftIn wr.acc b h, writeBit]
  by_cases hfull : wr.nbits + 1 = 8
  · rw [if_pos hfull, bitsOf_append, bitsOf_singleton, hfull]
    exact List.append_nil _
  · rw [if_neg hfull]

theorem Writer.writeBits_written {wr : Writer} (bits : List Bool) (h : wr.nbits < 8) :
    (wr.writeBits bits).written = wr.written ++ bits := by
  induction bits generalizing wr with
  | nil => exact (List.append_nil _).symm
  | cons b bs ih =>
    calc ((wr.writeBit b).writeBits bs).written
      _ = (wr.writeBit b).written ++ bs := ih (wr.writeBit_nbits_lt b h)
      _ = wr.written ++ b :: bs := by rw [wr.writeBit_written b h, List.append_assoc, List.singleton_append]

/-- `finish()` (R152) adds fewer than eight zero bits. -/
theorem Writer.bitsOf_finish {wr : Writer} (h : wr.nbits < 8) :
    ∃ pad < 8, bitsOf wr.finish = wr.written ++ List.replicate pad false := by
  rw [finish, flush, written]
  by_cases hpart : 0 < wr.nbits
  · refine ⟨8 - wr.nbits, by omega, ?_⟩
    rw [if_pos hpart, bitsOf_append, bitsOf_singleton, lowBits_shiftToTop wr.acc (Nat.add_sub_of_le h.le), List.append_assoc]
  · refine ⟨0, by omega, ?_⟩
    rw [if_neg hpart, Nat.eq_zero_of_not_pos hpart]
    exact ((List.append_nil _).trans (List.append_nil _)).symm

/-- The bits of the bytes that `finish()` returns after a bit string: the string, then zeros to the end of its last byte. -/
theorem bitsOf_finish_writeBits (bits : List Bool) :
    ∃ pad < 8, bitsOf (Writer.empty.writeBits bits).finish = bits ++ List.replicate pad false := by
  have hempty : Writer.empty.nbits < 8 := Nat.zero_lt_succ 7
  obtain ⟨pad, hpad, hfin⟩ := Writer.bitsOf_finish (Writer.writeBits_nbits_lt bits hempty)
  exact ⟨pad, hpad, by rw [hfin, Writer.writeBits_written bits hempty]; rfl⟩

/-- Settles O59: the bits of the bytes returned are the string and fewer than eight zeros; length, places and padding are
read off there. -/
theorem bitWriterLayout : Obligations.BitWriterLayout := by
  intro bits bytes
  obtain ⟨pad, hpad, hbits⟩ : ∃ pad < 8, bitsOf bytes = bits ++ List.replicate pad false :=
    bitsOf_finish_writeBits bits
  have hlen : 8 * bytes.length = bits.length + pad := by
    rw [← bitsOf_length, hbits, List.length_append, List.length_replicate]
  refine ⟨by omega, fun i hi => ?_, fun i hi hend => ?_⟩
  · have hbyte : i / 8 < bytes.length := by omega
    have hbit := bitsOf_getElem? bytes i
    rw [hbits, List.getElem?_append_left hi, List.getElem?_eq_getElem hi, List.getElem?_eq_getElem hbyte] at hbit
    rw [List.getD_eq_getElem _ _ hbyte]
    exact (Option.some.inj hbit).symm
  · rw [← bitsOf_getElem?, hbits, List.getElem?_append_right hi, List.getElem?_replicate_of_lt (by omega)]

end Sys2Proof.Machine
end

section
/-! PROOFS. The blocks that the RLE encoder writes (41_rle.md R171 to R174, R176). -/

namespace Sys2Proof.Machine

/-! ## Runs (R171) -/

theorem runLength_le_cap (v : Byte) (cap : Nat) (l : List Byte) : runLength v cap l ≤ cap := by
  fun_induction runLength v cap l <;> omega

theorem take_runLength (v : Byte) (cap : Nat) (l : List Byte) :
    l.take (runLength v cap l) = List.replicate (runLength v cap l) v := by
  fun_induction runLength v cap l with
  | case3 cap bs ih => rw [Nat.add_comm, List.take_succ_cons, ih, List.replicate_succ]
  | _ => rfl

theorem runLength_le_length (v : Byte) (cap : Nat) (l : List Byte) : runLength v cap l ≤ l.length := by
  simpa using congrArg List.length (take_runLength v cap l)

/-- A run goes as far as it can. -/
theorem runLength_maximal (v : Byte) (cap : Nat) (l : List Byte) :
    runLength v cap l = cap ∨ l[runLength v cap l]? ≠ some v := by
  fun_induction runLength v cap l with
  | case1 => exact .inl rfl
  | case2 => exact .inr nofun
  | case3 cap bs ih => simpa [Nat.add_comm 1] using ih
  | case4 cap b bs hb => exact .inr (by simpa using hb)

theorem runLength_pos_iff (v : Byte) (cap : Nat) (l : List Byte) :
    0 < runLength v (cap + 1) l ↔ l[0]? = some v := by
  cases l with
  | nil => simp [runLength]
  | cons b bs => by_cases hb : b = v <;> simp [runLength, hb]

/-! ## Literals (R173) -/

theorem literalLength_le_cap (cap : Nat) (l : List Byte) : literalLength cap l ≤ cap := by
  fun_induction literalLength cap l <;> omega

theorem literalLength_le_length (cap : Nat) (l : List Byte) : literalLength cap l ≤ l.length := by
  fun_induction literalLength cap l with
  | case5 cap a b rest hab ih => simpa [Nat.add_comm 1] using ih
  | _ => simp

theorem literalLength_pos {l : List Byte} (cap : Nat) (hl : l[0]? ≠ l[1]?) : 0 < literalLength (cap + 1) l := by
  match l with
  | [] => exact absurd rfl hl
  | [_] => exact Nat.one_pos
  | a :: b :: rest =>
    have hab : a ≠ b := by simpa using hl
    simp [literalLength, hab]

theorem literalLength_noRepeat {cap j : Nat} {l : List Byte} (hj : j < literalLength cap l) : l[j]? ≠ l[j + 1]? := by
  fun_induction literalLength cap l generalizing j with
  | case3 cap a =>
    obtain rfl : j = 0 := by omega
    simp
  | case5 cap a b rest hab ih =>
    cases j with
    | zero => simpa using hab
    | succ j => simpa using ih (by omega)
  | _ => omega

/-- A literal block goes as far as it can. -/
theorem literalLength_maximal (cap : Nat) (l : List Byte) :
    literalLength cap l = cap ∨ literalLength cap l = l.length ∨
      ∃ v, l[literalLength cap l]? = some v ∧ l[literalLength cap l + 1]? = some v := by
  fun_induction literalLength cap l with
  | case1 => exact .inl rfl
  | case2 => exact .inr (.inl rfl)
  | case3 => exact .inr (.inl rfl)
  | case4 cap a rest => exact .inr (.inr ⟨a, rfl, rfl⟩)
  | case5 cap a b rest hab ih => simpa [Nat.add_comm 1] using ih

/-! ## Control bytes (30_encoding.md R116, R117) -/

@[simp] theorem byteOf_toNat_mod (top : Bool) (low : BitVec 7) : (byteOf top low).toNat % 128 = low.toNat := by
  rw [byteOf_toNat]
  omega

@[simp] theorem le_byteOf_toNat_iff (top : Bool) (low : BitVec 7) : 128 ≤ (byteOf top low).toNat ↔ top = true := by
  cases top with
  | false => simpa [byteOf_toNat] using low.isLt
  | true => simp [byteOf_toNat]

theorem byteOf_false_toNat (low : BitVec 7) : (byteOf false low).toNat = low.toNat := by
  rw [byteOf_toNat, Bool.toNat_false, Nat.zero_mul, Nat.zero_add]

/-- The control byte of a run block. -/
theorem ofNat_runControl (len : BitVec 7) : BitVec.ofNat 8 (0x80 ||| len.toNat) = byteOf true len := by
  apply BitVec.eq_of_toNat_eq
  have split : 2 ^ 7 * 1 + len.toNat = 2 ^ 7 * 1 ||| len.toNat := Nat.two_pow_add_eq_or_of_lt len.isLt 1
  rw [byteOf_toNat, BitVec.toNat_ofNat, show 0x80 ||| len.toNat = 128 + len.toNat from split.symm, Bool.toNat_true]
  omega

/-- The control byte of a literal block. -/
theorem ofNat_literalControl (len : BitVec 7) : BitVec.ofNat 8 len.toNat = byteOf false len := by
  apply BitVec.eq_of_toNat_eq
  rw [byteOf_false_toNat, BitVec.toNat_ofNat]
  omega

/-! ## Blocks (R172, R174) -/

/-- The encoder's block at `l` is a run block of `len + 1` bytes `v`. -/
structure RunBlockAt (l : List Byte) (len : BitVec 7) (v : Byte) : Prop where
  block : rleBlock l = ([byteOf true len, v], len.toNat + 1)
  begins : l[0]? = l[1]?
  long : 2 ≤ len.toNat + 1
  inside : len.toNat + 1 ≤ l.length
  covered : l.take (len.toNat + 1) = List.replicate (len.toNat + 1) v
  maximal : len.toNat + 1 = 128 ∨ l[len.toNat + 1]? ≠ some v

/-- The encoder's block at `l` is a literal block of the first `len + 1` bytes. -/
structure LiteralBlockAt (l : List Byte) (len : BitVec 7) : Prop where
  block : rleBlock l = (byteOf false len :: l.take (len.toNat + 1), len.toNat + 1)
  inside : len.toNat + 1 ≤ l.length
  noRepeat : ∀ j < len.toNat + 1, l[j]? ≠ l[j + 1]?
  maximal : len.toNat + 1 = 128 ∨ len.toNat + 1 = l.length ∨
    ∃ v, l[len.toNat + 1]? = some v ∧ l[len.toNat + 1 + 1]? = some v

theorem rleBlock_of_run {b : Byte} {bs : List Byte} (h : 0 < runLength b 127 bs) :
    rleBlock (b :: bs) = ([BitVec.ofNat 8 (0x80 ||| runLength b 127 bs), b], runLength b 127 bs + 1) := by
  have long : 2 ≤ 1 + runLength b 127 bs := by omega
  refine (if_pos long).trans ?_
  rw [Nat.add_sub_cancel_left, Nat.add_comm 1]
  rfl

theorem rleBlock_of_literal {b : Byte} {bs : List Byte} (h : runLength b 127 bs = 0) :
    rleBlock (b :: bs) = (BitVec.ofNat 8 (literalLength 128 (b :: bs) - 1) ::
      (b :: bs).take (literalLength 128 (b :: bs)), literalLength 128 (b :: bs)) :=
  have short : ¬ 2 ≤ 1 + runLength b 127 bs := by omega
  if_neg short

theorem exists_runBlockAt {l : List Byte} (hl : l ≠ []) (h : l[0]? = l[1]?) : ∃ len v, RunBlockAt l len v := by
  obtain ⟨b, bs, rfl⟩ := List.exists_cons_of_ne_nil hl
  have hpos : 0 < runLength b 127 bs := (runLength_pos_iff b 126 bs).mpr (by simpa using h.symm)
  obtain ⟨len, hlen⟩ : ∃ len : BitVec 7, len.toNat = runLength b 127 bs :=
    ⟨BitVec.ofNat 7 _, Nat.mod_eq_of_lt (Nat.lt_succ_of_le (runLength_le_cap b 127 bs))⟩
  refine ⟨len, b, ?_, h, by omega, ?_, ?_, ?_⟩
  · rw [rleBlock_of_run hpos, ← hlen, ofNat_runControl]
  · simpa [hlen] using runLength_le_length b 127 bs
  · rw [hlen, List.take_succ_cons, take_runLength, List.replicate_succ]
  · simpa [hlen] using runLength_maximal b 127 bs

theorem exists_literalBlockAt {l : List Byte} (h : l[0]? ≠ l[1]?) : ∃ len, LiteralBlockAt l len := by
  cases l with
  | nil => exact absurd rfl h
  | cons b bs =>
    have hrun : runLength b 127 bs = 0 :=
      Nat.eq_zero_of_not_pos fun hpos => h (by simpa using ((runLength_pos_iff b 126 bs).mp hpos).symm)
    have hpos : 0 < literalLength 128 (b :: bs) := literalLength_pos 127 h
    obtain ⟨len, hlen⟩ : ∃ len : BitVec 7, literalLength 128 (b :: bs) = len.toNat + 1 := by
      have := literalLength_le_cap 128 (b :: bs)
      exact ⟨BitVec.ofNat 7 (literalLength 128 (b :: bs) - 1), by rw [BitVec.toNat_ofNat]; omega⟩
    refine ⟨len, ?_, ?_, fun j hj => ?_, ?_⟩
    · rw [rleBlock_of_literal hrun, hlen, Nat.add_sub_cancel, ofNat_literalControl]
    · exact hlen ▸ literalLength_le_length 128 (b :: bs)
    · exact literalLength_noRepeat (hlen ▸ hj)
    · exact hlen ▸ literalLength_maximal 128 (b :: bs)

/-- Settles O50: the block is a run block or a literal block, and each is decoded to what it was written from. -/
theorem rleEncoderBlocks : Obligations.RleEncoderBlocks := by
  intro l hl
  by_cases h : l[0]? = l[1]?
  · obtain ⟨len, v, hblock, -, hlong, hinside, hcovered, hmax⟩ := exists_runBlockAt hl h
    simp only [hblock]
    exact ⟨by omega, by omega, hinside, fun rest => ⟨_, decodeRle_run len v rest, rfl,
      fun _ => ⟨hlong, len, v, rfl, rfl, hcovered, hmax⟩, fun hne => absurd h hne⟩⟩
  · obtain ⟨len, hblock, hinside, hnoRepeat, hmax⟩ := exists_literalBlockAt h
    have hraw : (l.take (len.toNat + 1)).length = len.toNat + 1 := List.length_take_of_le hinside
    simp only [hblock]
    exact ⟨by omega, by omega, hinside, fun rest => ⟨_, decodeRle_lit_append hraw rest,
      by simp [Instr.byteLength, hraw], fun heq => absurd heq h, fun _ => ⟨⟨len, rfl⟩, hnoRepeat, hmax⟩⟩⟩

end Sys2Proof.Machine
end

section
/-! PROOFS. The RLE container as the sequence of the encoder's blocks: the round trip and the length of the output
(41_rle.md R170, R177, R180). -/

namespace Sys2Proof.Machine

/-! ## The loop of `rle_compress` (R170) -/

theorem rleBlock_covers {l : List Byte} (hl : l ≠ []) : 1 ≤ (rleBlock l).2 ∧ (rleBlock l).2 ≤ l.length := by
  obtain ⟨hpos, -, hinside, -⟩ := rleEncoderBlocks l hl
  exact ⟨hpos, hinside⟩

/-- The encoder's blocks at `l`, one after the other. -/
def rleBlocks (l : List Byte) : List Byte :=
  if _ : l = [] then [] else (rleBlock l).1 ++ rleBlocks (l.drop (rleBlock l).2)
termination_by l.length
decreasing_by
  have := rleBlock_covers ‹l ≠ []›
  rw [List.length_drop]
  omega

@[simp] theorem rleBlocks_nil : rleBlocks [] = [] := by
  rw [rleBlocks, dif_pos rfl]

theorem rleBlocks_of_ne_nil {l : List Byte} (hl : l ≠ []) :
    rleBlocks l = (rleBlock l).1 ++ rleBlocks (l.drop (rleBlock l).2) := by
  rw [rleBlocks, dif_neg hl]

theorem rleCompressFrom_eq {d : List Byte} {fuel i : Nat} (out : List Byte) (hfuel : d.length ≤ i + fuel) :
    rleCompressFrom d fuel i out = out ++ rleBlocks (d.drop i) := by
  induction fuel generalizing i out with
  | zero => rw [rleCompressFrom, List.drop_eq_nil_of_le (by omega), rleBlocks_nil, List.append_nil]
  | succ fuel ih =>
    rw [rleCompressFrom]
    split
    next hi =>
      have hne : d.drop i ≠ [] := List.drop_eq_nil_iff.not.mpr (Nat.not_le.mpr hi)
      have := (rleBlock_covers hne).1
      rw [ih _ (by omega), rleBlocks_of_ne_nil hne, List.drop_drop, List.append_assoc]
    next hi => rw [List.drop_eq_nil_of_le (by omega), rleBlocks_nil, List.append_nil]

theorem rleCompress_eq (d : List Byte) : rleCompress d = rleBlocks d :=
  rleCompressFrom_eq [] (Nat.zero_add _).ge

/-! ## Induction over the blocks -/

theorem ne_nil_of_inside {l : List Byte} {n : Nat} (h : n + 1 ≤ l.length) : l ≠ [] :=
  List.ne_nil_of_length_pos (by omega)

theorem RunBlockAt.blocks {l : List Byte} {len : BitVec 7} {v : Byte} (h : RunBlockAt l len v) :
    rleBlocks l = byteOf true len :: v :: rleBlocks (l.drop (len.toNat + 1)) := by
  rw [rleBlocks_of_ne_nil (ne_nil_of_inside h.inside), h.block]
  rfl

theorem LiteralBlockAt.blocks {l : List Byte} {len : BitVec 7} (h : LiteralBlockAt l len) :
    rleBlocks l = byteOf false len :: (l.take (len.toNat + 1) ++ rleBlocks (l.drop (len.toNat + 1))) := by
  rw [rleBlocks_of_ne_nil (ne_nil_of_inside h.inside), h.block]
  rfl

/-- An input is empty, or begins with a run block or a literal block and goes on after it. -/
theorem rleBlocks_induction {P : List Byte → Prop} (nil : P [])
    (run : ∀ l len v, RunBlockAt l len v → P (l.drop (len.toNat + 1)) → P l)
    (literal : ∀ l len, LiteralBlockAt l len → P (l.drop (len.toNat + 1)) → P l) (l : List Byte) : P l := by
  fun_induction rleBlocks l with
  | case1 => exact nil
  | case2 l hl ih =>
    by_cases h : l[0]? = l[1]?
    · obtain ⟨len, v, hb⟩ := exists_runBlockAt hl h
      exact run l len v hb (by rwa [hb.block] at ih)
    · obtain ⟨len, hb⟩ := exists_literalBlockAt h
      exact literal l len hb (by rwa [hb.block] at ih)

/-! ## The loop of `rle_decompress` (R180 to R183) -/

section

variable {d rest : List Byte} {i fuel : Nat} {len : BitVec 7} {out : List Byte}

theorem length_of_drop_eq_cons {c : Byte} (h : d.drop i = c :: rest) : d.length = i + 1 + rest.length := by
  have := congrArg List.length h
  rw [List.length_drop, List.length_cons] at this
  omega

/-- Fuel for every byte that is left does for one more round. -/
theorem exists_fuel_eq_succ {c : Byte} (h : d.drop i = c :: rest) (hfuel : d.length ≤ i + fuel) :
    ∃ k, fuel = k + 1 := by
  have := length_of_drop_eq_cons h
  exact Nat.exists_eq_add_one.mpr (by omega)

theorem rleDecompressFrom_end (h : d.drop i = []) : rleDecompressFrom d fuel i out = .ok out := by
  cases fuel <;> simp [rleDecompressFrom, h]

theorem rleDecompressFrom_run {v : Byte} (h : d.drop i = byteOf true len :: v :: rest) :
    rleDecompressFrom d (fuel + 1) i out =
      rleDecompressFrom d fuel (i + 2) (out ++ List.replicate (len.toNat + 1) v) := by
  simp [rleDecompressFrom, h]

theorem rleDecompressFrom_run_truncated (h : d.drop i = [byteOf true len]) :
    rleDecompressFrom d (fuel + 1) i out = .err .malformedPayload i out.length := by
  simp [rleDecompressFrom, h]

theorem rleDecompressFrom_literal (h : d.drop i = byteOf false len :: rest) (hlen : len.toNat + 1 ≤ rest.length) :
    rleDecompressFrom d (fuel + 1) i out =
      rleDecompressFrom d fuel (i + 1 + (len.toNat + 1)) (out ++ rest.take (len.toNat + 1)) := by
  have inside : ¬ d.length < i + 1 + (len.toNat + 1) := by
    rw [length_of_drop_eq_cons h]
    omega
  simp [rleDecompressFrom, h, inside]

theorem rleDecompressFrom_literal_truncated (h : d.drop i = byteOf false len :: rest)
    (hlen : rest.length < len.toNat + 1) :
    rleDecompressFrom d (fuel + 1) i out = .err .malformedPayload i out.length := by
  have beyond : d.length < i + 1 + (len.toNat + 1) := by
    rw [length_of_drop_eq_cons h]
    omega
  simp [rleDecompressFrom, h, beyond]

end

/-! ## Round trip -/

/-- The decoder, at the place in a container where the blocks of `l` begin, outputs `l`. -/
theorem rleDecompressFrom_rleBlocks {container : List Byte} {i fuel : Nat} (out l : List Byte)
    (h : container.drop i = rleBlocks l) (hfuel : container.length ≤ i + fuel) :
    rleDecompressFrom container fuel i out = .ok (out ++ l) := by
  induction l using rleBlocks_induction generalizing i fuel out with
  | nil => rw [rleDecompressFrom_end (h.trans rleBlocks_nil), List.append_nil]
  | run l len v hb ih =>
    rw [hb.blocks] at h
    obtain ⟨fuel, rfl⟩ := exists_fuel_eq_succ h hfuel
    have hnext : container.drop (i + 2) = rleBlocks (l.drop (len.toNat + 1)) := by rw [← List.drop_drop, h]; rfl
    rw [rleDecompressFrom_run h, ih _ hnext (by omega), ← hb.covered, List.append_assoc, List.take_append_drop]
  | literal l len hb ih =>
    rw [hb.blocks] at h
    obtain ⟨fuel, rfl⟩ := exists_fuel_eq_succ h hfuel
    have hraw : (l.take (len.toNat + 1)).length = len.toNat + 1 := List.length_take_of_le hb.inside
    have hnext : container.drop (i + 1 + (len.toNat + 1)) = rleBlocks (l.drop (len.toNat + 1)) := by
      rw [Nat.add_assoc, Nat.add_comm 1, ← List.drop_drop, h, List.drop_succ_cons, List.drop_left' hraw]
    rw [rleDecompressFrom_literal h (by rw [List.length_append]; omega), List.take_left' hraw, ih _ hnext (by omega),
      List.append_assoc, List.take_append_drop]

/-- Settles O44: the container is the sequence of the input's blocks, and the decoder undoes them one by one. -/
theorem rleRoundTrip : Obligations.RleRoundTrip := by
  intro d
  rw [rleCompress_eq]
  exact rleDecompressFrom_rleBlocks [] d rfl (Nat.zero_add _).ge

/-! ## Length of the output -/

theorem RunBlockAt.length_blocks {l : List Byte} {len : BitVec 7} {v : Byte} (h : RunBlockAt l len v) :
    (rleBlocks l).length = 2 + (rleBlocks (l.drop (len.toNat + 1))).length := by
  rw [h.blocks, List.length_cons, List.length_cons]
  omega

theorem LiteralBlockAt.length_blocks {l : List Byte} {len : BitVec 7} (h : LiteralBlockAt l len) :
    (rleBlocks l).length = len.toNat + 2 + (rleBlocks (l.drop (len.toNat + 1))).length := by
  rw [h.blocks, List.length_cons, List.length_append, List.length_take_of_le h.inside]
  omega

/-- A literal block costs one byte more than it covers. A run block costs none, so an input that begins with a repeat
needs no extra byte for its first two; and only such an input follows a short literal block. -/
theorem length_rleBlocks_le (l : List Byte) :
    (rleBlocks l).length ≤ l.length + (l.length + 2) / 3 ∧
      (l[0]? = l[1]? → (rleBlocks l).length ≤ l.length + l.length / 3) := by
  induction l using rleBlocks_induction with
  | nil => simp
  | run l len v hb ih =>
    have hlong := hb.long
    have hinside := hb.inside
    rw [List.length_drop] at ih
    rw [hb.length_blocks]
    omega
  | literal l len hb ih =>
    have hinside := hb.inside
    rw [List.length_drop, List.getElem?_drop, List.getElem?_drop] at ih
    obtain ⟨hrest, hrepeat⟩ := ih
    rw [hb.length_blocks]
    refine ⟨?_, fun h => absurd h (hb.noRepeat 0 (Nat.succ_pos _))⟩
    obtain hfull | hend | ⟨v, hv, hv'⟩ := hb.maximal
    · omega
    · omega
    · have := hrepeat (hv.trans hv'.symm)
      omega

/-- Without a repeat every block is a literal block of 128 bytes or the last one. -/
theorem length_rleBlocks_of_noRepeat (l : List Byte) (h : ∀ j, j + 1 < l.length → l[j]? ≠ l[j + 1]?) :
    (rleBlocks l).length = l.length + (l.length + 127) / 128 := by
  induction l using rleBlocks_induction with
  | nil => simp
  | run l len v hb ih =>
    have hlong := hb.long
    have hinside := hb.inside
    exact absurd hb.begins (h 0 (by omega))
  | literal l len hb ih =>
    have hinside := hb.inside
    have hrest := ih fun j hj => by
      rw [List.length_drop] at hj
      rw [List.getElem?_drop, List.getElem?_drop]
      exact h _ (by omega)
    rw [List.length_drop] at hrest
    rw [hb.length_blocks, hrest]
    obtain hfull | hend | ⟨v, hv, hv'⟩ := hb.maximal
    · omega
    · omega
    · obtain ⟨hlt, -⟩ := List.getElem?_eq_some_iff.mp hv'
      exact absurd (hv.trans hv'.symm) (h _ hlt)

/-- Settles O48: the bounds for the blocks of an input, one for every input and one for an input without a repeat. -/
theorem rleOutputBound : Obligations.RleOutputBound := by
  intro d
  rw [rleCompress_eq]
  exact ⟨(length_rleBlocks_le d).1, length_rleBlocks_of_noRepeat d⟩

/-- Refutes O47: 01 02 02 03 is encoded in 6 bytes, vector RC5 of the spec, and the bound is 5. -/
theorem not_rleOutputBoundAsWritten : ¬ Obligations.RleOutputBoundAsWritten := by
  intro h
  have encoded : rleCompress [1, 2, 2, 3] = [0x00, 1, 0x81, 2, 0x00, 3] := by decide
  have bound := h [1, 2, 2, 3]
  rw [encoded] at bound
  exact absurd bound (by decide)

end Sys2Proof.Machine
end

section
/-! PROOFS. A whole operation: START, the head of `execute`, the turns of a codec, and the completion
(47_dispatcher.md R361, R362, R366, R370, R371). -/

namespace Sys2Proof.Machine

/-! ## Runs -/

theorem Reaches.refl (s : State) : Reaches s s := ⟨0, rfl⟩

theorem Reaches.of_step {s t u : State} (h : step s = .next t) (ht : Reaches t u) : Reaches s u := by
  obtain ⟨k, hk⟩ := ht
  exact ⟨k + 1, (steps_succ_of_step h).trans hk⟩

/-! ## Completion -/

theorem State.complete_busy (s : State) (r : Result) : (s.complete r).busy = false := by
  obtain ⟨out, -, -, h⟩ | ⟨out, -, -, h⟩ | ⟨kind, pos, count, -, h⟩ := s.complete_cases r <;> rw [h] <;> simp

theorem State.completeOk_find (s : State) (out : List Byte) (a : Nat) :
    Table.find a (s.completeOk out).outMem = out[a]? := by
  simpa using Memory.find_layout 0 a out

theorem State.completeOk_readOut (s : State) (out : List Byte) (a : Nat) :
    (s.completeOk out).readOut a = out[a]?.getD (Config.outFree (s.outEpoch + 1) a) := by
  rw [State.readOut, s.completeOk_find]
  cases out[a]? <;> rfl

theorem State.completeOk_ended (s : State) {out : List Byte} (h : out.length ≤ 2 ^ 32 - 1) :
    EndedWithSuccess (s.completeOk out) out where
  status := rfl
  errCode := rfl
  errPos := rfl
  errCount := rfl
  outLen := Nat.mod_eq_of_lt (by omega)
  inside := fun a ha => by rw [s.completeOk_readOut, List.getElem?_eq_getElem ha, Option.getD_some]
  beyond := fun a ha => by
    have hnone : out[a]? = none := List.getElem?_eq_none ha
    exact ⟨(s.completeOk_find out a).trans hnone, by rw [s.completeOk_readOut, hnone]; rfl⟩

/-- A result that fits ends the operation with success. -/
theorem State.complete_ok_ended {s : State} {out : List Byte} (hcap : out.length ≤ s.params.outCap)
    (hlegal : s.params.Legal) : EndedWith (s.complete (.ok out)) (.ok out) := by
  obtain ⟨-, -, -, hlegalCap⟩ := hlegal
  rw [State.complete, capCheck, if_neg (Nat.not_lt.mpr hcap)]
  exact s.completeOk_ended (hcap.trans hlegalCap)

/-- A result that does not fit ends it with OutputOverflow (R366). -/
theorem State.complete_overflow_ended {s : State} {out : List Byte} (hcap : s.params.outCap < out.length) :
    EndedWith (s.complete (.ok out)) (.err .outputOverflow s.params.outCap out.length) := by
  rw [State.complete, capCheck, if_pos hcap]
  exact { s.takeError_ended _ _ _ with errCount := (saturate32_toNat _).trans (Nat.min_eq_left (Nat.min_le_right _ _)) }

/-! ## The turns of a codec -/

/-- A turn whose decoder finds an instruction runs it. -/
theorem step_of_decoded {s : State} {src : Source} {i : Instr} (hr : s.running = true) (hi : s.inputs = [])
    (hs : s.source = some src) (hd : decode src = .ok i) : step s = exec i s := by
  rw [step_of_no_input hi, State.engineTurn_of_source hr hs hd, Next.outcome]

/-- A turn with nothing to decode is the engine's own work. -/
theorem step_of_no_source {s : State} (hr : s.running = true) (hi : s.inputs = []) (hs : s.source = none) :
    step s = s.engineWork := by
  rw [step_of_no_input hi, State.engineTurn, if_pos hr, hs, Next.outcome]

/-- From working state `w` the engine's turns bring the operation of block `u` to its end with the codec's result `r`. -/
def CodecGives (u : State) (w : Work) (r : Result) : Prop :=
  ∃ w', Reaches (u.setWork w) ((u.setWork w').complete r)

theorem CodecGives.of_complete {u : State} {w : Work} {r : Result}
    (h : step (u.setWork w) = .next ((u.setWork w).complete r)) : CodecGives u w r :=
  ⟨w, .of_step h (.refl _)⟩

theorem CodecGives.of_turn {u : State} {w w' : Work} {r : Result} (h : step (u.setWork w) = .next (u.setWork w'))
    (hr : CodecGives u w' r) : CodecGives u w r := by
  obtain ⟨v, hv⟩ := hr
  exact ⟨v, .of_step h hv⟩

theorem State.started_running {s : State} (hidle : s.Idle) (mode : Mode) (alg : BitVec 3) :
    (s.started mode alg).running = true :=
  (State.running_iff _).mpr ⟨s.started_busy mode alg, hidle.2⟩

/-- A codec that starts and gives `r` is an operation that ends with `r`, or with OutputOverflow. -/
theorem operationEnds_of_codecGives {i : Instr} {s : State} {mode : Mode} {alg : BitVec 3} {r : Result}
    (hidle : s.Idle) (hi : s.inputs = []) (hlegal : s.params.Legal) (hlen : s.inLen.toNat ≤ s.params.inCap)
    (halg : alg.toNat < 3) (hexec : exec i s = .next (s.startCommand mode alg))
    (hr : CodecGives (s.started mode alg) (Work.init (codecPhase alg mode)) r) : OperationEnds i s r := by
  obtain ⟨w, hw⟩ := hr
  rw [State.startCommand_of_idle mode alg hidle.1] at hexec
  have hdispatch := (step_of_dispatch (State.started_running hidle mode alg) hi rfl).trans
    (dispatchStep_of_codec halg hlen)
  have gives (r' : Result) (ended : EndedWith (((s.started mode alg).setWork w).complete r) r') :
      OperationGives i s r' :=
    ⟨_, _, hexec, .of_step hdispatch hw, State.complete_busy _ r, ended,
      { State.complete_onlyResultChanged _ r with }⟩
  cases r with
  | ok out => exact ⟨fun hcap => gives _ (State.complete_ok_ended hcap hlegal),
      fun hcap => gives _ (State.complete_overflow_ended hcap)⟩
  | err kind pos count => exact gives _ (State.takeError_ended _ kind pos count)

end Sys2Proof.Machine
end

section
/-! PROOFS. The RLE codec in the engine: one turn a block (41_rle.md R170, R180 to R183). -/

namespace Sys2Proof.Machine

/-! ## A turn of the decoder -/

section

variable {s : State} {rest : List Byte} {len : BitVec 7}

theorem State.source_of_rleD {c : Byte} (hp : s.work.phase = .rleD) (h : s.input.drop s.work.cursor = c :: rest) :
    s.source = some (.rle (c :: rest)) := by
  have inside : s.work.cursor < s.input.length := by
    rw [length_of_drop_eq_cons h]
    omega
  simp only [State.source, hp, h, if_pos inside]

variable (hr : s.running = true) (hi : s.inputs = []) (hp : s.work.phase = .rleD)
include hr hi hp

theorem step_of_rleRun {v : Byte} (h : s.input.drop s.work.cursor = byteOf true len :: v :: rest) :
    step s = .next (s.emit (List.replicate (len.toNat + 1) v) 2) :=
  step_of_decoded hr hi (State.source_of_rleD hp h) (decodeRle_run len v rest)

theorem step_of_rleLiteral (h : s.input.drop s.work.cursor = byteOf false len :: rest)
    (hlen : len.toNat + 1 ≤ rest.length) :
    step s = .next (s.emit (rest.take (len.toNat + 1)) (1 + (len.toNat + 1))) :=
  step_of_decoded hr hi (State.source_of_rleD hp h) (decodeRle_lit hlen)

/-- A block that extends past the input (R182). -/
theorem step_of_rleTruncated {c : Byte} (h : s.input.drop s.work.cursor = c :: rest)
    (hd : decodeRle (c :: rest) = .error .truncatedBlock) :
    step s = .next (s.takeError .malformedPayload s.work.cursor s.work.out.length) :=
  step_of_malformed hr hi (State.source_of_rleD hp h) hd

theorem step_of_rleD_end (h : s.input.drop s.work.cursor = []) : step s = .next (s.complete (.ok s.work.out)) := by
  have nothing : s.source = none := by
    simp only [State.source, hp, if_neg (Nat.not_lt.mpr (List.drop_eq_nil_iff.mp h))]
  rw [step_of_no_source hr hi nothing, State.engineWork, hp]

end

/-- Settles O30: the control byte is bit 7 over L, and the turn is that of a run, a literal, or a truncated block. -/
theorem rleDecoderTurn : Obligations.RleDecoderTurn := by
  intro s c rest hr hi hp h
  obtain ⟨top, len, rfl⟩ := exists_byteOf c
  have truncated (hd : decodeRle (byteOf top len :: rest) = .error .truncatedBlock) :
      ∃ t, step s = .next t ∧ EndedWithError t .malformedPayload s.work.cursor s.work.out.length ∧
        OnlyResultChanged s t :=
    ⟨_, step_of_rleTruncated hr hi hp h hd, s.takeError_ended _ _ _, s.takeError_onlyResultChanged _ _ _⟩
  rw [byteOf_msb, byteOf_toNat_mod]
  cases top with
  | true =>
    refine ⟨?_, nofun, ?_⟩
    · rintro v tail - rfl
      exact ⟨_, step_of_rleRun hr hi hp h, s.emit_meaning _ _⟩
    · rintro (⟨-, rfl⟩ | ⟨hfalse, -⟩)
      · exact truncated (decodeRle_run_truncated len)
      · cases hfalse
  | false =>
    rw [byteOf_false_toNat]
    refine ⟨nofun, fun _ hlen => ?_, ?_⟩
    · rw [Nat.add_assoc]
      exact ⟨_, step_of_rleLiteral hr hi hp h hlen, s.emit_meaning _ _⟩
    · rintro (⟨htrue, -⟩ | ⟨-, hlen⟩)
      · cases htrue
      · exact truncated (decodeRle_lit_truncated hlen)

/-! ## A turn of the encoder -/

section

variable {s : State} (hr : s.running = true) (hi : s.inputs = []) (hp : s.work.phase = .rleC)
include hr hi hp

theorem step_of_rleC : step s = rleCStep s := by
  have nothing : s.source = none := by simp only [State.source, hp]
  rw [step_of_no_source hr hi nothing, State.engineWork, hp]

theorem step_of_rleC_block (h : s.work.cursor < s.input.length) :
    step s = .next (s.emit (rleBlock (s.input.drop s.work.cursor)).1 (rleBlock (s.input.drop s.work.cursor)).2) :=
  (step_of_rleC hr hi hp).trans (if_pos h)

theorem step_of_rleC_end (h : s.input.length ≤ s.work.cursor) : step s = .next (s.complete (.ok s.work.out)) :=
  (step_of_rleC hr hi hp).trans (if_neg (Nat.not_lt.mpr h))

end

/-! ## The loops -/

section

variable {u : State} (hr : u.running = true) (hi : u.inputs = [])
include hr hi

/-- The turns of RLE.C make up the loop of `rle_compress`. -/
theorem codecGives_rleC (fuel : Nat) {w : Work} (hp : w.phase = .rleC) (hfuel : u.input.length ≤ w.cursor + fuel) :
    CodecGives u w (.ok (rleCompressFrom u.input fuel w.cursor w.out)) := by
  induction fuel generalizing w with
  | zero => exact .of_complete (step_of_rleC_end (s := u.setWork w) hr hi hp hfuel)
  | succ fuel ih =>
    rw [rleCompressFrom]
    split
    next hmore =>
      have hcovers := rleBlock_covers (List.drop_eq_nil_iff.not.mpr (Nat.not_le.mpr hmore))
      refine .of_turn (step_of_rleC_block (s := u.setWork w) hr hi hp hmore) (ih (w := w.emit _ _) hp ?_)
      change _ ≤ w.cursor + (rleBlock (u.input.drop w.cursor)).2 + fuel
      omega
    next hend => exact .of_complete (step_of_rleC_end (s := u.setWork w) hr hi hp (Nat.le_of_not_lt hend))

/-- The turns of RLE.D make up the loop of `rle_decompress`. -/
theorem codecGives_rleD (fuel : Nat) {w : Work} (hp : w.phase = .rleD) (hfuel : u.input.length ≤ w.cursor + fuel) :
    CodecGives u w (rleDecompressFrom u.input fuel w.cursor w.out) := by
  induction fuel generalizing w with
  | zero => exact .of_complete (step_of_rleD_end (s := u.setWork w) hr hi hp (List.drop_eq_nil_of_le hfuel))
  | succ fuel ih =>
    match h : u.input.drop w.cursor with
    | [] =>
      rw [rleDecompressFrom_end h]
      exact .of_complete (step_of_rleD_end (s := u.setWork w) hr hi hp h)
    | c :: rest =>
      obtain ⟨top, len, rfl⟩ := exists_byteOf c
      have truncated (hd : decodeRle (byteOf top len :: rest) = .error .truncatedBlock) :
          CodecGives u w (.err .malformedPayload w.cursor w.out.length) :=
        .of_complete (step_of_rleTruncated (s := u.setWork w) hr hi hp h hd)
      match top, rest with
      | true, [] =>
        rw [rleDecompressFrom_run_truncated h]
        exact truncated (decodeRle_run_truncated len)
      | true, v :: rest =>
        rw [rleDecompressFrom_run h]
        exact .of_turn (step_of_rleRun (s := u.setWork w) hr hi hp h)
          (ih (w := w.emit _ _) hp (by rw [Work.emit_cursor]; omega))
      | false, rest =>
        by_cases hlen : len.toNat + 1 ≤ rest.length
        · rw [rleDecompressFrom_literal h hlen, Nat.add_assoc]
          exact .of_turn (step_of_rleLiteral (s := u.setWork w) hr hi hp h hlen)
            (ih (w := w.emit _ _) hp (by rw [Work.emit_cursor]; omega))
        · rw [rleDecompressFrom_literal_truncated h (Nat.lt_of_not_le hlen)]
          exact truncated (decodeRle_lit_truncated (Nat.lt_of_not_le hlen))

end

/-! ## The operations -/

/-- Settles O36: after START and the head of `execute` the encoder's turns compute `rle_compress`. -/
theorem rleCompressOperation : Obligations.RleCompressOperation := by
  intro s hidle hi hlegal hlen
  have hcodec := codecGives_rleC (State.started_running hidle .compress 0) hi s.nextInput.length
    (w := Work.init .rleC) rfl (Nat.zero_add _).ge
  exact operationEnds_of_codecGives hidle hi hlegal hlen (by decide) rfl hcodec

/-- Settles O37: after START and the head of `execute` the decoder's turns compute `rle_decompress`. -/
theorem rleDecompressOperation : Obligations.RleDecompressOperation := by
  intro s hidle hi hlegal hlen
  have hcodec := codecGives_rleD (State.started_running hidle .decompress 0) hi s.nextInput.length
    (w := Work.init .rleD) rfl (Nat.zero_add _).ge
  exact operationEnds_of_codecGives hidle hi hlegal hlen (by decide) rfl hcodec

end Sys2Proof.Machine
end

section
/-! PROOFS. The frequency table by the counters it holds, and its distinct bytes (42_huffman_encoder.md R200, R202). -/

namespace Sys2Proof.Machine

/-! ## Counters -/

@[simp] theorem FreqTable.at_zero (v : Byte) : FreqTable.zero.at v = 0 := Vector.getElem_replicate _

@[simp] theorem FreqTable.at_put_same (t : FreqTable) (v : Byte) (f : Word) : (t.put v f).at v = f :=
  Vector.getElem_set_self _

theorem FreqTable.at_put_other (t : FreqTable) {v w : Byte} (f : Word) (h : w ≠ v) : (t.put v f).at w = t.at w :=
  Vector.getElem_set_ne _ _ fun heq => h (BitVec.eq_of_toNat_eq heq.symm)

theorem FreqTable.ext {t t' : FreqTable} (h : ∀ v, t.at v = t'.at v) : t = t' := by
  refine Vector.ext fun i hi => ?_
  have hv : (BitVec.ofNat 8 i).toNat = i := Nat.mod_eq_of_lt hi
  simpa only [FreqTable.at, hv] using h (BitVec.ofNat 8 i)

theorem FreqTable.at_bump (t : FreqTable) (v w : Byte) : (t.bump v).at w = t.at w + if v = w then 1 else 0 := by
  by_cases h : v = w
  · subst h
    simp [FreqTable.bump]
  · rw [FreqTable.bump, FreqTable.at_put_other t _ (Ne.symm h), if_neg h, add_zero]

/-- Counting adds to each counter the occurrences of its byte, modulo its 32 bits. -/
theorem at_foldl_bump (d : List Byte) (t : FreqTable) (v : Byte) :
    (d.foldl FreqTable.bump t).at v = t.at v + BitVec.ofNat 32 (d.count v) := by
  induction d generalizing t with
  | nil => simp
  | cons b d ih =>
    rw [List.foldl_cons, ih, FreqTable.at_bump, BitVec.add_assoc, List.count_cons, Nat.add_comm, BitVec.ofNat_add]
    simp only [beq_iff_eq]
    split <;> rfl

/-- No counter overflows on an input of at most 2^32 - 1 bytes (R202). -/
theorem freqTable_at_toNat {d : List Byte} (h : d.length ≤ 2 ^ 32 - 1) (v : Byte) :
    ((freqTable d).at v).toNat = d.count v := by
  have := List.count_le_length (a := v) (l := d)
  rw [freqTable, at_foldl_bump, FreqTable.at_zero, zero_add, BitVec.toNat_ofNat]
  omega

/-! ## Distinct bytes -/

theorem FreqTable.mem_symbols_iff (t : FreqTable) (v : Byte) : v ∈ t.symbols ↔ t.at v ≠ 0 := by
  have hv : v ∈ (List.range 256).map (BitVec.ofNat 8) :=
    List.mem_map.mpr ⟨v.toNat, List.mem_range.mpr v.isLt, BitVec.ofNat_toNat 8 v |>.trans (BitVec.setWidth_eq v)⟩
  simp only [FreqTable.symbols, List.mem_filter, hv, bne_iff_ne, true_and]

theorem FreqTable.symbols_rise (t : FreqTable) : t.symbols.Pairwise (fun a b => a.toNat < b.toNat) := by
  refine List.Pairwise.filter _ (List.pairwise_map.mpr ?_)
  refine List.pairwise_lt_range.imp_of_mem fun {i j} hi hj hij => ?_
  have hi : i < 256 := List.mem_range.mp hi
  have hj : j < 256 := List.mem_range.mp hj
  simpa [Nat.mod_eq_of_lt hi, Nat.mod_eq_of_lt hj] using hij

theorem FreqTable.symbols_nodup (t : FreqTable) : t.symbols.Nodup :=
  t.symbols_rise.imp fun h heq => absurd (congrArg BitVec.toNat heq) (Nat.ne_of_lt h)

theorem mem_symbols_freqTable_iff {d : List Byte} (h : d.length ≤ 2 ^ 32 - 1) (v : Byte) :
    v ∈ (freqTable d).symbols ↔ v ∈ d := by
  rw [FreqTable.mem_symbols_iff, ← List.count_pos_iff, ← freqTable_at_toNat h, Nat.pos_iff_ne_zero, ne_eq, ne_eq,
    ← BitVec.toNat_inj]
  rfl

end Sys2Proof.Machine
end

section
/-! PROOFS. The total order of Huffman nodes, and the leaves that it sorts (42_huffman_encoder.md R203, R204). -/

namespace Sys2Proof.Machine

/-! ## The order by three numbers -/

/-- A leaf precedes an internal node of the same frequency (R204 item 2). -/
def NodeKind.rank : NodeKind → Nat
  | .leaf _ => 0
  | .internal _ _ => 1

/-- What decides between two nodes of the same frequency and kind (R204 items 3 and 4). -/
def Node.tie (n : Node) : Nat :=
  match n.kind with
  | .leaf v => v.toNat
  | .internal _ _ => n.seq

/-- The order compares frequency, kind and tie, in this order of importance. -/
theorem Node.before_iff (x y : Node) :
    x.before y = true ↔ x.freq < y.freq ∨
      x.freq = y.freq ∧ (x.kind.rank < y.kind.rank ∨ x.kind.rank = y.kind.rank ∧ x.tie < y.tie) := by
  obtain ⟨xkind, xfreq, xseq⟩ := x
  obtain ⟨ykind, yfreq, yseq⟩ := y
  obtain hlt | rfl | hgt := Nat.lt_trichotomy xfreq yfreq
  · simp [Node.before, hlt]
  · cases xkind <;> cases ykind <;> simp [Node.before, NodeKind.rank, Node.tie]
  · simp [Node.before, hgt, Nat.lt_asymm hgt, Nat.ne_of_gt hgt]

theorem Node.freq_le_of_before {x y : Node} (h : x.before y = true) : x.freq ≤ y.freq := by
  rw [Node.before_iff] at h
  omega

theorem Node.before_trans {x y z : Node} (hxy : x.before y = true) (hyz : y.before z = true) : x.before z = true := by
  rw [Node.before_iff] at hxy hyz ⊢
  omega

theorem Node.not_before_of_before {x y : Node} (h : x.before y = true) : y.before x = false := by
  rw [Node.before_iff] at h
  rw [Bool.eq_false_iff, ne_eq, Node.before_iff]
  omega

theorem Node.before_or_before {x y : Node} (h : x.kind.rank ≠ y.kind.rank ∨ x.tie ≠ y.tie) :
    x.before y = true ∨ y.before x = true := by
  rw [Node.before_iff, Node.before_iff]
  omega

/-! ## Sorting -/

/-- A node put into a rising list of nodes that are comparable with it leaves the list rising. -/
theorem insertNode_rises {x : Node} {l : List Node} (hx : ∀ y ∈ l, x.before y = true ∨ y.before x = true)
    (hl : l.Pairwise (fun a b => a.before b = true)) : (insertNode x l).Pairwise (fun a b => a.before b = true) := by
  induction l with
  | nil => exact List.pairwise_singleton _ x
  | cons y ys ih =>
    obtain ⟨hy, hys⟩ := List.pairwise_cons.mp hl
    rw [insertNode]
    split
    next hxy =>
      refine List.pairwise_cons.mpr ⟨fun z hz => ?_, hl⟩
      obtain rfl | hz := List.mem_cons.mp hz
      · exact hxy
      · exact Node.before_trans hxy (hy z hz)
    next hxy =>
      refine List.pairwise_cons.mpr ⟨fun z hz => ?_, ih (fun z hz => hx z (.tail y hz)) hys⟩
      obtain rfl | hz := List.mem_cons.mp ((insertNode_perm x ys).mem_iff.mp hz)
      · exact (hx y (.head ys)).resolve_left hxy
      · exact hy z hz

theorem foldr_insertNode_rises {l : List Node} (h : l.Pairwise (fun x y => x.before y = true ∨ y.before x = true)) :
    (l.foldr insertNode []).Pairwise (fun a b => a.before b = true) := by
  induction l with
  | nil => exact .nil
  | cons x xs ih =>
    obtain ⟨hx, hxs⟩ := List.pairwise_cons.mp h
    exact insertNode_rises (fun y hy => hx y ((foldr_insertNode_perm xs).mem_iff.mp hy)) (ih hxs)

/-! ## Leaves (R203) -/

/-- The leaf of byte `v` with number `i`. -/
def leafNode (t : FreqTable) (v : Byte) (i : Nat) : Node := ⟨.leaf v, (t.at v).toNat, i⟩

theorem leafNode_before_or_before (t : FreqTable) {v w : Byte} (h : v ≠ w) (i j : Nat) :
    (leafNode t v i).before (leafNode t w j) = true ∨ (leafNode t w j).before (leafNode t v i) = true :=
  Node.before_or_before (.inr fun heq => h (BitVec.eq_of_toNat_eq heq))

/-- The leaves before they are numbered. -/
def sortedLeaves (t : FreqTable) : List Node := (t.symbols.map (leafNode t · 0)).foldr insertNode []

theorem leaves_eq (t : FreqTable) : leaves t = numberNodes 0 (sortedLeaves t) := rfl

theorem sortedLeaves_rise (t : FreqTable) : (sortedLeaves t).Pairwise (fun a b => a.before b = true) :=
  foldr_insertNode_rises (List.pairwise_map.mpr (t.symbols_nodup.imp fun h => leafNode_before_or_before t h 0 0))

theorem exists_of_mem_sortedLeaves {t : FreqTable} {n : Node} (h : n ∈ sortedLeaves t) :
    ∃ v ∈ t.symbols, n = leafNode t v 0 := by
  obtain ⟨v, hv, rfl⟩ := List.mem_map.mp ((foldr_insertNode_perm _).mem_iff.mp h)
  exact ⟨v, hv, rfl⟩

theorem numberNodes_getElem? (k : Nat) (l : List Node) (x : Nat) :
    (numberNodes k l)[x]? = l[x]?.map (fun n => { n with seq := k + x }) := by
  induction l generalizing k x with
  | nil => rfl
  | cons n l ih =>
    cases x with
    | zero => rfl
    | succ x =>
      rw [numberNodes, List.getElem?_cons_succ, ih, List.getElem?_cons_succ]
      simp only [Nat.add_assoc, Nat.add_comm 1]

/-- Every leaf of the arena is that of a distinct byte, and its number is its index. -/
theorem exists_of_leaves_getElem? {t : FreqTable} {x : Nat} {n : Node} (h : (leaves t)[x]? = some n) :
    ∃ v ∈ t.symbols, (sortedLeaves t)[x]? = some (leafNode t v 0) ∧ n = leafNode t v x := by
  rw [leaves_eq, numberNodes_getElem?, Nat.zero_add] at h
  obtain ⟨m, hm, rfl⟩ := Option.map_eq_some_iff.mp h
  obtain ⟨v, hv, rfl⟩ := exists_of_mem_sortedLeaves (List.mem_of_getElem? hm)
  exact ⟨v, hv, hm, rfl⟩

/-- Of two leaves the one with the smaller index precedes the other. -/
theorem leaves_before {t : FreqTable} {x y : Nat} {m n : Node} (hxy : x < y) (hm : (leaves t)[x]? = some m)
    (hn : (leaves t)[y]? = some n) : m.before n = true := by
  obtain ⟨v, -, hv, rfl⟩ := exists_of_leaves_getElem? hm
  obtain ⟨w, -, hw, rfl⟩ := exists_of_leaves_getElem? hn
  obtain ⟨hx, hv⟩ := List.getElem?_eq_some_iff.mp hv
  obtain ⟨hy, hw⟩ := List.getElem?_eq_some_iff.mp hw
  have sorted := List.pairwise_iff_getElem.mp (sortedLeaves_rise t) x y hx hy hxy
  rw [hv, hw] at sorted
  exact sorted

theorem leafSym_eq_some_iff {nodes : List Node} {x : Nat} {v : Byte} :
    leafSym nodes x = some v ↔ ∃ n, nodes[x]? = some n ∧ n.kind = .leaf v := by
  unfold leafSym
  split <;> simp_all

end Sys2Proof.Machine
end

section
/-! PROOFS. The invariant of the merging loop: what each node of the arena is, and in which order the nodes leave ACTIVE
(42_huffman_encoder.md R203 to R206). -/

namespace Sys2Proof.Machine

/-! ## The loop of R205 -/

/-- What holds at the start of the loop and is kept by every round holds at its end. -/
theorem mergeAll_induction {P : List Node → List Nat → Prop}
    (round : ∀ nodes a b rest, P nodes (a :: b :: rest) →
      P (mergeLeast nodes (a :: b :: rest)).1 (mergeLeast nodes (a :: b :: rest)).2)
    (fuel : Nat) {nodes : List Node} {active : List Nat} (h : P nodes active) :
    P (mergeAll fuel nodes active).1 (mergeAll fuel nodes active).2 := by
  induction fuel generalizing nodes active with
  | zero => exact h
  | succ fuel ih =>
    match active with
    | [] => exact h
    | [a] => exact h
    | a :: b :: rest => exact ih (round nodes a b rest h)

/-- Fuel for every active node but one does: at most one active node is left. -/
theorem mergeAll_active_length_le {fuel : Nat} {nodes : List Node} {active : List Nat} (h : active.length ≤ fuel + 1) :
    (mergeAll fuel nodes active).2.length ≤ 1 := by
  induction fuel generalizing nodes active with
  | zero => exact h
  | succ fuel ih =>
    match active with
    | [] => exact Nat.zero_le 1
    | [a] => exact Nat.le_refl 1
    | a :: b :: rest =>
      refine ih (nodes := (mergeLeast nodes (a :: b :: rest)).1) ?_
      rw [(mergeLeast_active_perm nodes a b rest).length_eq]
      simpa using h

/-! ## The nodes of the arena -/

/-- The children of a node, left before right. -/
def Node.children (n : Node) : List Nat :=
  match n.kind with
  | .leaf _ => []
  | .internal l r => [l, r]

/-- Node `x` of the arena: the leaf of a distinct byte, or an internal node with two earlier children and the sum of their
frequencies. -/
inductive ArenaNode (t : FreqTable) (nodes : List Node) (x : Nat) : Node → Prop where
  | leaf {v : Byte} : x < t.symbols.length → v ∈ t.symbols → ArenaNode t nodes x (leafNode t v x)
  | internal {l r : Nat} : t.symbols.length ≤ x → l < x → r < x →
      ArenaNode t nodes x ⟨.internal l r, nodeFreq nodes l + nodeFreq nodes r, x⟩

/-- What holds in every round of the loop: the leaves stand first, every node is a leaf or an internal node of the arena,
a round gives ACTIVE one node for two, and the nodes that have left ACTIVE, as children of the internal nodes, followed by
those that stand in it, are all nodes, in rising order. -/
structure Forest (t : FreqTable) (nodes : List Node) (active : List Nat) : Prop where
  begins : leaves t <+: nodes
  node : ∀ x n, nodes[x]? = some n → ArenaNode t nodes x n
  balance : nodes.length + active.length = 2 * t.symbols.length
  taken : (nodes.flatMap Node.children ++ active).Perm (List.range nodes.length)
  rises : NodesRise nodes (nodes.flatMap Node.children ++ active)

theorem ArenaNode.seq_eq {t : FreqTable} {nodes : List Node} {x : Nat} {n : Node} (h : ArenaNode t nodes x n) :
    n.seq = x := by
  cases h <;> rfl

/-! ## The leaves alone -/

@[simp] theorem flatMap_children_leaves (t : FreqTable) : (leaves t).flatMap Node.children = [] := by
  refine List.flatMap_eq_nil_iff.mpr fun n hn => ?_
  obtain ⟨x, hx⟩ := List.getElem?_of_mem hn
  obtain ⟨v, -, -, rfl⟩ := exists_of_leaves_getElem? hx
  rfl

theorem forest_leaves (t : FreqTable) : Forest t (leaves t) (List.range (leaves t).length) := by
  refine ⟨⟨[], List.append_nil _⟩, fun x n hn => ?_, ?_, by rw [flatMap_children_leaves, List.nil_append], ?_⟩
  · obtain ⟨v, hv, -, rfl⟩ := exists_of_leaves_getElem? hn
    obtain ⟨hx, -⟩ := List.getElem?_eq_some_iff.mp hn
    exact .leaf (length_leaves t ▸ hx) hv
  · rw [List.length_range, length_leaves, Nat.two_mul]
  · rw [flatMap_children_leaves, List.nil_append]
    refine List.pairwise_lt_range.imp_of_mem fun {x y} hx hy hxy => ?_
    have hm := List.getElem?_eq_getElem (List.mem_range.mp hx)
    have hn := List.getElem?_eq_getElem (List.mem_range.mp hy)
    exact ⟨_, _, hm, hn, leaves_before hxy hm hn⟩

/-! ## One round -/

/-- In a list that rises by `f`, the elements of at most a bound come first. -/
theorem le_of_mem_take_of_rises {f : Nat → Nat} {b x : Nat} {l : List Nat} (h : l.Pairwise (fun x y => f x ≤ f y)) :
    (x ∈ l.take (l.filter (fun x => decide (f x ≤ b))).length → f x ≤ b) ∧
      (x ∈ l.drop (l.filter (fun x => decide (f x ≤ b))).length → b < f x) := by
  induction l with
  | nil => simp
  | cons y ys ih =>
    obtain ⟨hy, hys⟩ := List.pairwise_cons.mp h
    by_cases hb : f y ≤ b
    · rw [List.filter_cons_of_pos (by simpa using hb), List.length_cons, List.take_succ_cons, List.drop_succ_cons]
      refine ⟨fun hx => ?_, (ih hys).2⟩
      obtain rfl | hx := List.mem_cons.mp hx
      · exact hb
      · exact (ih hys).1 hx
    · have above : ∀ z ∈ y :: ys, b < f z := fun z hz => by
        obtain rfl | hz := List.mem_cons.mp hz
        · omega
        · have := hy z hz
          omega
      rw [List.filter_eq_nil_iff.mpr fun z hz => by simpa using above z hz]
      exact ⟨nofun, above x⟩

section

variable {t : FreqTable} {nodes : List Node}

theorem nodeFreq_of_getElem? {x : Nat} {n : Node} (h : nodes[x]? = some n) : nodeFreq nodes x = n.freq := by
  rw [nodeFreq, h]

/-- Of two nodes of a rising list, the later has no smaller frequency. -/
theorem NodesRise.freq_le {xs : List Nat} (h : NodesRise nodes xs) :
    xs.Pairwise (fun x y => nodeFreq nodes x ≤ nodeFreq nodes y) :=
  h.imp fun ⟨m, n, hm, hn, hmn⟩ => by
    rw [nodeFreq_of_getElem? hm, nodeFreq_of_getElem? hn]
    exact Node.freq_le_of_before hmn

/-- A node added to the arena does not disturb the nodes that rise. -/
theorem NodesRise.append {xs : List Nat} (h : NodesRise nodes xs) (n : Node) : NodesRise (nodes ++ [n]) xs :=
  h.imp fun ⟨m, n', hm, hn', hmn⟩ =>
    ⟨m, n', List.getElem?_append_left (List.getElem?_eq_some_iff.mp hm).1 ▸ hm,
      List.getElem?_append_left (List.getElem?_eq_some_iff.mp hn').1 ▸ hn', hmn⟩

/-- A node of at most the new node's frequency precedes it, since the new node is internal and the youngest. -/
theorem before_mergedNode {x a b : Nat} {n : Node} (hn : ArenaNode t nodes x n) (hx : x < nodes.length)
    (hle : n.freq ≤ nodeFreq nodes a + nodeFreq nodes b) : n.before (mergedNode nodes a b) = true := by
  rw [Node.before_iff]
  obtain hlt | heq := Nat.lt_or_eq_of_le hle
  · exact .inl hlt
  · refine .inr ⟨heq, ?_⟩
    cases hn with
    | leaf => exact .inl Nat.zero_lt_one
    | internal => exact .inr ⟨rfl, hx⟩

theorem ArenaNode.append {x : Nat} {n : Node} (h : ArenaNode t nodes x n) (hx : x ≤ nodes.length) (p : Node) :
    ArenaNode t (nodes ++ [p]) x n := by
  cases h with
  | leaf hx hv => exact .leaf hx hv
  | internal hk hl hr =>
    rw [← nodeFreq_append_of_lt p (hl.trans_le hx), ← nodeFreq_append_of_lt p (hr.trans_le hx)]
    exact .internal hk hl hr

theorem Forest.length_symbols_le {active : List Nat} (h : Forest t nodes active) :
    t.symbols.length ≤ nodes.length :=
  length_leaves t ▸ h.begins.length_le

/-- A new node that enters between the two halves of a rising list, each of which it is comparable with. -/
theorem NodesRise.insert {xs ys : List Nat} {p : Nat} {n : Node} (h : NodesRise nodes (xs ++ ys))
    (hp : nodes[p]? = some n) (hxs : ∀ x ∈ xs, ∃ m, nodes[x]? = some m ∧ m.before n = true)
    (hys : ∀ y ∈ ys, ∃ m, nodes[y]? = some m ∧ n.before m = true) : NodesRise nodes (xs ++ p :: ys) := by
  obtain ⟨hx, hy, hxy⟩ := List.pairwise_append.mp h
  refine List.pairwise_append.mpr ⟨hx, List.pairwise_cons.mpr ⟨fun y hy => ?_, hy⟩, fun x hx y hy => ?_⟩
  · obtain ⟨m, hm, hnm⟩ := hys y hy
    exact ⟨n, m, hp, hm, hnm⟩
  · obtain rfl | hy := List.mem_cons.mp hy
    · obtain ⟨m, hm, hmn⟩ := hxs x hx
      exact ⟨m, n, hm, hp, hmn⟩
    · exact hxy x hx y hy

@[simp] theorem flatMap_children_append_mergedNode (a b : Nat) :
    (nodes ++ [mergedNode nodes a b]).flatMap Node.children = nodes.flatMap Node.children ++ [a, b] := by
  rw [List.flatMap_append]
  rfl

section

variable {a b : Nat} {rest : List Nat} (h : Forest t nodes (a :: b :: rest))
include h

theorem Forest.lt_length {x : Nat} (hx : x ∈ nodes.flatMap Node.children ++ a :: b :: rest) : x < nodes.length :=
  List.mem_range.mp (h.taken.mem_iff.mp hx)

theorem Forest.node_append {x : Nat} {n : Node} (hn : (nodes ++ [mergedNode nodes a b])[x]? = some n) :
    ArenaNode t (nodes ++ [mergedNode nodes a b]) x n := by
  obtain hx | rfl | hx := Nat.lt_trichotomy x nodes.length
  · rw [List.getElem?_append_left hx] at hn
    exact (h.node x n hn).append hx.le _
  · cases List.getElem?_concat_length.symm.trans hn
    exact ArenaNode.append (.internal h.length_symbols_le (h.lt_length (by simp)) (h.lt_length (by simp))) le_rfl _
  · rw [List.getElem?_eq_none (by rw [List.length_append]; exact hx)] at hn
    cases hn

/-- The new node enters ACTIVE in its place: what is taken and every node of at most its frequency precede it, and it
precedes every node of a greater frequency. -/
theorem Forest.rises_append : NodesRise (nodes ++ [mergedNode nodes a b])
    (nodes.flatMap Node.children ++ [a, b] ++ (mergeLeast nodes (a :: b :: rest)).2) := by
  have hfreq := h.rises.freq_le
  obtain ⟨-, hactive, hcross⟩ := List.pairwise_append.mp hfreq
  obtain ⟨-, hactive⟩ := List.pairwise_cons.mp hactive
  obtain ⟨-, hrest⟩ := List.pairwise_cons.mp hactive
  have place (x : Nat) := le_of_mem_take_of_rises (b := nodeFreq nodes a + nodeFreq nodes b) (x := x) hrest
  have old {x : Nat} (hx : x ∈ nodes.flatMap Node.children ++ a :: b :: rest) : ∃ m, ArenaNode t nodes x m ∧
      m.freq = nodeFreq nodes x ∧ (nodes ++ [mergedNode nodes a b])[x]? = some m := by
    have hm := List.getElem?_eq_getElem (h.lt_length hx)
    exact ⟨_, h.node x _ hm, (nodeFreq_of_getElem? hm).symm, by rw [List.getElem?_append_left (h.lt_length hx), hm]⟩
  have precedes {x : Nat} (hx : x ∈ nodes.flatMap Node.children ++ a :: b :: rest)
      (hle : nodeFreq nodes x ≤ nodeFreq nodes a + nodeFreq nodes b) :
      ∃ m, (nodes ++ [mergedNode nodes a b])[x]? = some m ∧ m.before (mergedNode nodes a b) = true := by
    obtain ⟨m, hm, hmfreq, hget⟩ := old hx
    exact ⟨m, hget, before_mergedNode hm (h.lt_length hx) (hmfreq ▸ hle)⟩
  simp only [mergeLeast]
  rw [← List.append_assoc]
  refine NodesRise.insert (n := mergedNode nodes a b) ?_ List.getElem?_concat_length (fun x hx => ?_) (fun x hx => ?_)
  · rw [List.append_assoc, List.take_append_drop, List.append_assoc]
    exact h.rises.append _
  · obtain hx | hx := List.mem_append.mp hx
    · obtain hx | hx := List.mem_append.mp hx
      · exact precedes (List.mem_append_left _ hx) ((hcross x hx b (by simp)).trans (Nat.le_add_left _ _))
      · obtain rfl | rfl : x = a ∨ x = b := by simpa using hx
        · exact precedes (by simp) (Nat.le_add_right _ _)
        · exact precedes (by simp) (Nat.le_add_left _ _)
    · exact precedes (by simp [List.mem_of_mem_take hx]) ((place x).1 hx)
  · obtain ⟨m, -, hmfreq, hget⟩ := old (x := x) (by simp [List.mem_of_mem_drop hx])
    exact ⟨m, hget, (Node.before_iff _ _).mpr (.inl (hmfreq ▸ (place x).2 hx))⟩

/-- One round of merging keeps the invariant. -/
theorem Forest.round :
    Forest t (mergeLeast nodes (a :: b :: rest)).1 (mergeLeast nodes (a :: b :: rest)).2 := by
  have hperm := mergeLeast_active_perm nodes a b rest
  have hlength : (nodes ++ [mergedNode nodes a b]).length = nodes.length + 1 := List.length_append
  rw [mergeLeast_nodes]
  refine ⟨h.begins.trans ⟨_, rfl⟩, fun x n hn => h.node_append hn, ?_, ?_, ?_⟩
  · have := h.balance
    rw [hlength, hperm.length_eq]
    simp only [List.length_cons] at this ⊢
    omega
  · rw [hlength, List.range_succ, flatMap_children_append_mergedNode]
    refine (hperm.append_left _).trans (List.perm_middle.trans ?_)
    rw [List.append_assoc]
    exact (h.taken.cons _).trans (List.perm_append_singleton _ _).symm
  · rw [flatMap_children_append_mergedNode]
    exact h.rises_append

end

end

/-! ## The whole tree -/

/-- The tree of R205 is the arena at the end of the loop, with the root alone in ACTIVE. -/
theorem exists_forest_buildTree (t : FreqTable) : ∃ active, Forest t (buildTree t).1 active ∧
    active.length ≤ 1 ∧ (buildTree t).2 = rootOf active :=
  ⟨_, mergeAll_induction (fun _ _ _ _ h => h.round) _ (forest_leaves t),
    mergeAll_active_length_le (by rw [List.length_range]; exact Nat.le_succ _), rfl⟩

end Sys2Proof.Machine
end

section
/-! PROOFS. The finished tree: its edges, the paths from its root, and the code words (42_huffman_encoder.md R206, R209). -/

namespace Sys2Proof.Machine

/-! ## Edges -/

section

variable {t : FreqTable} {nodes : List Node} {active : List Nat}

theorem child_eq_some_iff {x y : Nat} {b : Bool} :
    child nodes x b = some y ↔ ∃ n l r, nodes[x]? = some n ∧ n.kind = .internal l r ∧ y = if b then r else l := by
  unfold child
  split
  next l r f s hn => simp [hn, eq_comm]
  next v f s hn => simp [hn]
  next hn => simp [hn]

theorem leafSym_eq_none_of_child {x y : Nat} {b : Bool} (h : child nodes x b = some y) : leafSym nodes x = none := by
  obtain ⟨n, l, r, hn, hkind, -⟩ := child_eq_some_iff.mp h
  refine Option.eq_none_iff_forall_ne_some.mpr fun v hv => ?_
  obtain ⟨n', hn', hkind'⟩ := leafSym_eq_some_iff.mp hv
  cases hn.symm.trans hn'
  cases hkind.symm.trans hkind'

theorem mem_children_iff {n : Node} {y : Nat} :
    y ∈ n.children ↔ ∃ (l r : Nat) (b : Bool), n.kind = .internal l r ∧ y = if b then r else l := by
  unfold Node.children
  split
  next v h => simp [h]
  next l r h => simp [h, or_comm]

/-- The nodes that have left ACTIVE are those with a parent. -/
theorem mem_flatMap_children_iff {y : Nat} :
    y ∈ nodes.flatMap Node.children ↔ ∃ x b, child nodes x b = some y := by
  simp only [List.mem_flatMap, mem_children_iff, child_eq_some_iff]
  constructor
  · rintro ⟨n, hn, l, r, b, hkind, rfl⟩
    obtain ⟨x, hx⟩ := List.getElem?_of_mem hn
    exact ⟨x, b, n, l, r, hx, hkind, rfl⟩
  · rintro ⟨x, b, n, l, r, hn, hkind, rfl⟩
    exact ⟨n, List.mem_of_getElem? hn, l, r, b, hkind, rfl⟩

variable (h : Forest t nodes active)
include h

/-- Only the nodes after the leaves have children, and these are earlier nodes. -/
theorem Forest.child_lt {x y : Nat} {b : Bool} (hc : child nodes x b = some y) :
    t.symbols.length ≤ x ∧ x < nodes.length ∧ y < x := by
  obtain ⟨n, l, r, hn, hkind, rfl⟩ := child_eq_some_iff.mp hc
  obtain ⟨hx, -⟩ := List.getElem?_eq_some_iff.mp hn
  cases h.node x n hn with
  | leaf => cases hkind
  | internal hk hl hr =>
    cases hkind
    exact ⟨hk, hx, by split <;> assumption⟩

theorem Forest.leafSym_eq_some {x : Nat} {v : Byte} (hv : leafSym nodes x = some v) :
    x < t.symbols.length ∧ v ∈ t.symbols ∧ nodes[x]? = some (leafNode t v x) := by
  obtain ⟨n, hn, hkind⟩ := leafSym_eq_some_iff.mp hv
  cases h.node x n hn with
  | leaf hx hmem =>
    cases hkind
    exact ⟨hx, hmem, hn⟩
  | internal => cases hkind

theorem Forest.getElem?_of_lt {x : Nat} (hx : x < t.symbols.length) :
    (leaves t)[x]? = nodes[x]? := by
  obtain ⟨merged, rfl⟩ := h.begins
  rw [List.getElem?_append_left ((length_leaves t).symm ▸ hx)]

theorem Forest.exists_leaf_of_lt {x : Nat} (hx : x < t.symbols.length) :
    ∃ v ∈ t.symbols, nodes[x]? = some (leafNode t v x) := by
  have hn := List.getElem?_eq_getElem ((length_leaves t).symm ▸ hx)
  obtain ⟨v, hv, -, heq⟩ := exists_of_leaves_getElem? hn
  exact ⟨v, hv, by rw [← h.getElem?_of_lt hx, hn, heq]⟩

/-- The leaves stand in the order of R204 (R203). -/
theorem Forest.leaves_rise : NodesRise nodes (List.range t.symbols.length) := by
  refine List.pairwise_lt_range.imp_of_mem fun {x y} hx hy hxy => ?_
  have hx := List.mem_range.mp hx
  have hy := List.mem_range.mp hy
  obtain ⟨v, -, hv⟩ := h.exists_leaf_of_lt hx
  obtain ⟨w, -, hw⟩ := h.exists_leaf_of_lt hy
  exact ⟨_, _, hv, hw, leaves_before (t := t) hxy ((h.getElem?_of_lt hx).trans hv) ((h.getElem?_of_lt hy).trans hw)⟩

/-- Every leaf carries a distinct byte. -/
theorem Forest.leafSym_injective {x y : Nat} {v : Byte} (hx : leafSym nodes x = some v)
    (hy : leafSym nodes y = some v) : x = y := by
  obtain ⟨hxk, -, hxn⟩ := h.leafSym_eq_some hx
  obtain ⟨hyk, -, hyn⟩ := h.leafSym_eq_some hy
  have apart {i j : Nat} (hij : i < j) (hi : nodes[i]? = some (leafNode t v i)) (hik : i < t.symbols.length)
      (hj : nodes[j]? = some (leafNode t v j)) (hjk : j < t.symbols.length) : False := by
    have hlt := leaves_before hij ((h.getElem?_of_lt hik).trans hi) ((h.getElem?_of_lt hjk).trans hj)
    exact Bool.false_ne_true ((Node.not_before_of_before hlt).symm.trans hlt)
  obtain hlt | heq | hgt := Nat.lt_trichotomy x y
  · exact (apart hlt hxn hxk hyn hyk).elim
  · exact heq
  · exact (apart hgt hyn hyk hxn hxk).elim

/-- A byte of the table has its leaf. -/
theorem Forest.exists_leafSym {v : Byte} (hv : v ∈ t.symbols) : ∃ x < t.symbols.length, leafSym nodes x = some v := by
  have hmem : leafNode t v 0 ∈ sortedLeaves t :=
    (foldr_insertNode_perm _).mem_iff.mpr (List.mem_map_of_mem hv)
  obtain ⟨x, hx⟩ := List.getElem?_of_mem hmem
  have hleaf : (leaves t)[x]? = some (leafNode t v x) := by
    rw [leaves_eq, numberNodes_getElem?, hx, Nat.zero_add]
    rfl
  have hlt : x < t.symbols.length := length_leaves t ▸ (List.getElem?_eq_some_iff.mp hleaf).1
  exact ⟨x, hlt, leafSym_eq_some_iff.mpr ⟨_, (h.getElem?_of_lt hlt).symm.trans hleaf, rfl⟩⟩

/-- A node is a leaf with the frequency of its byte, or has two earlier children and the sum of theirs. -/
theorem Forest.node_cases {x : Nat} (hx : x < nodes.length) :
    (∃ v, leafSym nodes x = some v ∧ nodeFreq nodes x = (t.at v).toNat) ∨
    (∃ l r, child nodes x false = some l ∧ child nodes x true = some r ∧ l < x ∧ r < x ∧
      nodeFreq nodes x = nodeFreq nodes l + nodeFreq nodes r) := by
  have hn := List.getElem?_eq_getElem hx
  have hnode := h.node x _ hn
  generalize nodes[x] = n at hn hnode
  cases hnode with
  | leaf => exact .inl ⟨_, leafSym_eq_some_iff.mpr ⟨_, hn, rfl⟩, nodeFreq_of_getElem? hn⟩
  | @internal l r _ hl hr =>
    exact .inr ⟨l, r, child_eq_some_iff.mpr ⟨_, l, r, hn, rfl, rfl⟩, child_eq_some_iff.mpr ⟨_, l, r, hn, rfl, rfl⟩,
      hl, hr, nodeFreq_of_getElem? hn⟩

/-- Two nodes of the arena that neither kind nor tie tells apart are one node. -/
theorem Forest.rank_ne_or_tie_ne {m n : Node} (hm : m ∈ nodes) (hn : n ∈ nodes) (hne : m ≠ n) :
    m.kind.rank ≠ n.kind.rank ∨ m.tie ≠ n.tie := by
  obtain ⟨x, hx⟩ := List.getElem?_of_mem hm
  obtain ⟨y, hy⟩ := List.getElem?_of_mem hn
  have hxy : x ≠ y := by
    rintro rfl
    exact hne (Option.some.inj (hx.symm.trans hy))
  cases h.node x m hx with
  | leaf =>
    cases h.node y n hy with
    | leaf =>
      refine .inr fun htie => hxy (h.leafSym_injective (leafSym_eq_some_iff.mpr ⟨_, hx, rfl⟩) ?_)
      exact leafSym_eq_some_iff.mpr ⟨_, hy, congrArg NodeKind.leaf (BitVec.eq_of_toNat_eq htie.symm)⟩
    | internal => exact .inl Nat.zero_ne_one
  | internal =>
    cases h.node y n hy with
    | leaf => exact .inl Nat.one_ne_zero
    | internal => exact .inr hxy

/-- A node has one parent at most, and is one of its two children. -/
theorem Forest.parent_unique {x x' y : Nat} {b b' : Bool} (hc : child nodes x b = some y)
    (hc' : child nodes x' b' = some y) : x' = x ∧ b' = b := by
  have hnodup : (nodes.flatMap Node.children).Nodup :=
    (List.nodup_append.mp (h.taken.nodup_iff.mpr List.nodup_range)).1
  obtain ⟨hself, hpair⟩ := List.nodup_flatMap.mp hnodup
  obtain ⟨n, l, r, hn, hkind, hy⟩ := child_eq_some_iff.mp hc
  obtain ⟨n', l', r', hn', hkind', hy'⟩ := child_eq_some_iff.mp hc'
  obtain ⟨hx, rfl⟩ := List.getElem?_eq_some_iff.mp hn
  obtain ⟨hx', rfl⟩ := List.getElem?_eq_some_iff.mp hn'
  have hmem : y ∈ nodes[x].children := mem_children_iff.mpr ⟨l, r, b, hkind, hy⟩
  have hmem' : y ∈ nodes[x'].children := mem_children_iff.mpr ⟨l', r', b', hkind', hy'⟩
  have hindex : x' = x := by
    obtain hlt | heq | hgt := Nat.lt_trichotomy x' x
    · exact (List.pairwise_iff_getElem.mp hpair x' x hx' hx hlt hmem' hmem).elim
    · exact heq
    · exact (List.pairwise_iff_getElem.mp hpair x x' hx hx' hgt hmem hmem').elim
  subst hindex
  cases hkind.symm.trans hkind'
  have hlr : l ≠ r := by
    have := hself _ (List.getElem_mem hx)
    rw [Node.children, hkind] at this
    simpa using this
  refine ⟨rfl, ?_⟩
  cases b <;> cases b' <;> simp_all

end

end Sys2Proof.Machine
end

section
/-! PROOFS. Paths in a tree, and the code words that lead along them (42_huffman_encoder.md R205, R206, R209). -/

namespace Sys2Proof.Machine

/-! ## Code tables -/

@[simp] theorem CodeTable.at_put_same (t : CodeTable) (v : Byte) (c : List Bool) : (t.put v c).at v = c :=
  Vector.getElem_set_self _

theorem CodeTable.at_put_other (t : CodeTable) {v w : Byte} (c : List Bool) (h : w ≠ v) : (t.put v c).at w = t.at w :=
  Vector.getElem_set_ne _ _ fun heq => h (BitVec.eq_of_toNat_eq heq.symm)

/-! ## Paths -/

/-- The node that a bit string leads to from a node. -/
def walkPath (nodes : List Node) : Nat → List Bool → Option Nat
  | x, [] => some x
  | x, b :: bs => (child nodes x b).bind fun y => walkPath nodes y bs

section

variable {t : FreqTable} {nodes : List Node} {active : List Nat}

theorem walkPath_cons_eq_some_iff {x y : Nat} {b : Bool} {bs : List Bool} :
    walkPath nodes x (b :: bs) = some y ↔ ∃ z, child nodes x b = some z ∧ walkPath nodes z bs = some y :=
  Option.bind_eq_some_iff

theorem walkPath_concat {x y z : Nat} {b : Bool} {p : List Bool} (hp : walkPath nodes x p = some y)
    (hc : child nodes y b = some z) : walkPath nodes x (p ++ [b]) = some z := by
  induction p generalizing x with
  | nil =>
    cases hp
    exact walkPath_cons_eq_some_iff.mpr ⟨z, hc, rfl⟩
  | cons b' bs ih =>
    obtain ⟨w, hw, hbs⟩ := walkPath_cons_eq_some_iff.mp hp
    exact walkPath_cons_eq_some_iff.mpr ⟨w, hw, ih hbs⟩

/-- A path to a leaf is a code word of the decoder (43_huffman_decoder.md R251). -/
theorem followPath_of_walkPath {x y : Nat} {v : Byte} {p : List Bool} (hp : walkPath nodes x p = some y)
    (hv : leafSym nodes y = some v) (hne : p ≠ []) (depth : Nat) : followPath nodes depth x p = .leaf v := by
  induction p generalizing x depth with
  | nil => exact absurd rfl hne
  | cons b bs ih =>
    obtain ⟨z, hz, hbs⟩ := walkPath_cons_eq_some_iff.mp hp
    cases bs with
    | nil =>
      cases hbs
      simp [followPath, hz, hv]
    | cons b' bs =>
      obtain ⟨w, hw, -⟩ := walkPath_cons_eq_some_iff.mp hbs
      simp only [followPath, hz, leafSym_eq_none_of_child hw]
      exact ih hbs (List.cons_ne_nil _ _) (depth + 1)

/-- A path leads from a node to the leaf of a byte. -/
def LeadsTo (nodes : List Node) (x : Nat) (p : List Bool) (v : Byte) : Prop :=
  ∃ y, walkPath nodes x p = some y ∧ leafSym nodes y = some v

/-- No path goes on from a leaf. -/
theorem leadsTo_iff_of_leaf {x : Nat} {p : List Bool} {v w : Byte} (hw : leafSym nodes x = some w) :
    LeadsTo nodes x p v ↔ p = [] ∧ v = w := by
  constructor
  · rintro ⟨y, hp, hv⟩
    cases p with
    | nil =>
      cases hp
      exact ⟨rfl, Option.some.inj (hv.symm.trans hw)⟩
    | cons b bs =>
      obtain ⟨z, hz, -⟩ := walkPath_cons_eq_some_iff.mp hp
      cases (leafSym_eq_none_of_child hz).symm.trans hw
  · rintro ⟨rfl, rfl⟩
    exact ⟨x, rfl, hw⟩

/-- A path from an internal node goes on from one of its two children. -/
theorem leadsTo_iff_of_internal {x l r : Nat} {p : List Bool} {v : Byte} (hl : child nodes x false = some l)
    (hr : child nodes x true = some r) : LeadsTo nodes x p v ↔
      (∃ q, p = false :: q ∧ LeadsTo nodes l q v) ∨ ∃ q, p = true :: q ∧ LeadsTo nodes r q v := by
  constructor
  · rintro ⟨y, hp, hv⟩
    match p with
    | [] =>
      cases hp
      cases (leafSym_eq_none_of_child hl).symm.trans hv
    | false :: q =>
      obtain ⟨z, hz, hq⟩ := walkPath_cons_eq_some_iff.mp hp
      cases hl.symm.trans hz
      exact .inl ⟨q, rfl, y, hq, hv⟩
    | true :: q =>
      obtain ⟨z, hz, hq⟩ := walkPath_cons_eq_some_iff.mp hp
      cases hr.symm.trans hz
      exact .inr ⟨q, rfl, y, hq, hv⟩
  · rintro (⟨q, rfl, y, hq, hv⟩ | ⟨q, rfl, y, hq, hv⟩)
    · exact ⟨y, walkPath_cons_eq_some_iff.mpr ⟨l, hl, hq⟩, hv⟩
    · exact ⟨y, walkPath_cons_eq_some_iff.mpr ⟨r, hr, hq⟩, hv⟩

variable (h : Forest t nodes active)
include h

/-- Nodes get older along a path, and all but the last are internal. -/
theorem Forest.walkPath_depth {x y : Nat} {b : Bool} {bs : List Bool} (hp : walkPath nodes x (b :: bs) = some y) :
    t.symbols.length + bs.length ≤ x := by
  induction bs generalizing x b with
  | nil =>
    obtain ⟨z, hz, -⟩ := walkPath_cons_eq_some_iff.mp hp
    exact (h.child_lt hz).1
  | cons b' bs ih =>
    obtain ⟨z, hz, hbs⟩ := walkPath_cons_eq_some_iff.mp hp
    have hlt := (h.child_lt hz).2.2
    have hle := ih hbs
    rw [List.length_cons]
    omega

/-! ## The walk of R209 -/

/-- The walk from node `x` with the bits `s` sets the code word of every byte with a leaf below `x` to `s` and a path to
that leaf, and leaves the others alone. -/
theorem Forest.codeWalk_at {fuel x : Nat} (hfuel : x < fuel) (hx : x < nodes.length) (s : List Bool) (codes : CodeTable)
    (v : Byte) :
    (∃ p, LeadsTo nodes x p v ∧ (codeWalk nodes fuel x s codes).at v = s ++ p) ∨
    ((∀ p, ¬ LeadsTo nodes x p v) ∧ (codeWalk nodes fuel x s codes).at v = codes.at v) := by
  induction fuel generalizing x s codes with
  | zero => omega
  | succ fuel ih =>
    have hn := List.getElem?_eq_getElem hx
    have hnode := h.node x _ hn
    generalize nodes[x] = n at hn hnode
    cases hnode with
    | @leaf w =>
      have hpath {p} := leadsTo_iff_of_leaf (p := p) (v := v) (leafSym_eq_some_iff.mpr ⟨_, hn, rfl⟩ : _ = some w)
      simp only [codeWalk, hn, leafNode]
      by_cases hvw : v = w
      · subst hvw
        exact .inl ⟨[], hpath.mpr ⟨rfl, rfl⟩, by rw [CodeTable.at_put_same, List.append_nil]⟩
      · exact .inr ⟨fun p hp => hvw (hpath.mp hp).2, CodeTable.at_put_other _ _ hvw⟩
    | @internal l r hk hl hr =>
      have hpath {p} := leadsTo_iff_of_internal (p := p) (v := v) (child_eq_some_iff.mpr ⟨_, l, r, hn, rfl, rfl⟩)
        (child_eq_some_iff.mpr ⟨_, l, r, hn, rfl, rfl⟩)
      simp only [codeWalk, hn]
      obtain ⟨p, hp, hat⟩ | ⟨hnoRight, hat⟩ := ih (x := r) (by omega) (by omega) (s ++ [true])
        (codeWalk nodes fuel l (s ++ [false]) codes)
      · exact .inl ⟨true :: p, hpath.mpr (.inr ⟨p, rfl, hp⟩), by rw [hat, List.append_assoc, List.singleton_append]⟩
      rw [hat]
      obtain ⟨p, hp, hat⟩ | ⟨hnoLeft, hat⟩ := ih (x := l) (by omega) (by omega) (s ++ [false]) codes
      · exact .inl ⟨false :: p, hpath.mpr (.inl ⟨p, rfl, hp⟩), by rw [hat, List.append_assoc, List.singleton_append]⟩
      · refine .inr ⟨fun p hp => ?_, hat⟩
        obtain ⟨q, -, hq⟩ | ⟨q, -, hq⟩ := hpath.mp hp
        · exact hnoLeft q hq
        · exact hnoRight q hq

end

/-! ## The finished tree -/

section

variable {t : FreqTable} {nodes : List Node} {active : List Nat}

/-- The youngest node is no child, so it stands in ACTIVE. -/
theorem Forest.last_mem_active (h : Forest t nodes active) {x : Nat} (hx : nodes.length = x + 1) : x ∈ active := by
  have hmem : x ∈ nodes.flatMap Node.children ++ active :=
    h.taken.mem_iff.mpr (List.mem_range.mpr (by omega))
  refine (List.mem_append.mp hmem).resolve_left fun hchild => ?_
  obtain ⟨p, b, hc⟩ := mem_flatMap_children_iff.mp hchild
  have := h.child_lt hc
  omega

variable {root : Nat} (h : Forest t nodes [root])
include h

theorem Forest.tree_length : nodes.length = 2 * t.symbols.length - 1 := by
  have := h.balance
  rw [List.length_singleton] at this
  omega

theorem Forest.root_lt : root < nodes.length :=
  List.mem_range.mp (h.taken.mem_iff.mp (List.mem_append_right _ (List.mem_singleton_self root)))

theorem Forest.root_eq : root = 2 * t.symbols.length - 2 := by
  have hlt := h.root_lt
  have hlength := h.tree_length
  have hlast : nodes.length - 1 ∈ [root] := h.last_mem_active (by omega)
  rw [← List.mem_singleton.mp hlast]
  omega

theorem Forest.exists_parent {y : Nat} (hy : y < nodes.length) (hroot : y ≠ root) :
    ∃ x b, child nodes x b = some y := by
  have hmem : y ∈ nodes.flatMap Node.children ++ [root] :=
    h.taken.mem_iff.mpr (List.mem_range.mpr hy)
  exact mem_flatMap_children_iff.mp ((List.mem_append.mp hmem).resolve_right (by simpa using hroot))

/-- A path leads from the root to every node. -/
theorem Forest.exists_walkPath {y : Nat} (hy : y < nodes.length) : ∃ p, walkPath nodes root p = some y := by
  induction hn : nodes.length - y using Nat.strong_induction_on generalizing y with
  | _ n ih =>
    by_cases hroot : y = root
    · exact ⟨[], congrArg some hroot.symm⟩
    · obtain ⟨x, b, hc⟩ := h.exists_parent hy hroot
      obtain ⟨-, hx, hlt⟩ := h.child_lt hc
      obtain ⟨p, hp⟩ := ih (nodes.length - x) (by omega) hx rfl
      exact ⟨p ++ [b], walkPath_concat hp hc⟩

/-- The code word of a byte is a path from the root to its leaf (R209). -/
theorem Forest.codeTable_at {v : Byte} (hv : v ∈ t.symbols) :
    LeadsTo nodes root ((codeTable nodes root).at v) v := by
  obtain ⟨x, hx, hleaf⟩ := h.exists_leafSym hv
  have hlength := h.tree_length
  obtain ⟨p, hp⟩ := h.exists_walkPath (y := x) (by omega)
  obtain ⟨q, hq, hat⟩ | ⟨hno, -⟩ := h.codeWalk_at h.root_lt h.root_lt [] CodeTable.empty v
  · rwa [codeTable, hat, List.nil_append]
  · exact absurd ⟨x, hp, hleaf⟩ (hno p)

/-- Code words have a bit and at most one for each internal node (R206). -/
theorem Forest.codeTable_at_length (hk : 2 ≤ t.symbols.length) {v : Byte} (hv : v ∈ t.symbols) :
    1 ≤ ((codeTable nodes root).at v).length ∧
      ((codeTable nodes root).at v).length ≤ t.symbols.length - 1 := by
  obtain ⟨y, hp, hy⟩ := h.codeTable_at hv
  have hroot := h.root_eq
  generalize (codeTable nodes root).at v = code at hp
  cases code with
  | nil =>
    cases hp
    have := (h.leafSym_eq_some hy).1
    omega
  | cons b bs =>
    have := h.walkPath_depth hp
    rw [List.length_cons]
    omega

theorem Forest.followPath_codeTable (hk : 2 ≤ t.symbols.length) {v : Byte} (hv : v ∈ t.symbols) (depth : Nat) :
    followPath nodes depth root ((codeTable nodes root).at v) = .leaf v := by
  obtain ⟨y, hp, hy⟩ := h.codeTable_at hv
  exact followPath_of_walkPath hp hy (List.ne_nil_of_length_pos (h.codeTable_at_length hk hv).1) depth

end

/-- With a byte in the table, the loop ends with one node in ACTIVE, the root (R205). -/
theorem forest_buildTree {t : FreqTable} (hk : 1 ≤ t.symbols.length) :
    Forest t (buildTree t).1 [(buildTree t).2] := by
  obtain ⟨active, h, hle, hroot⟩ := exists_forest_buildTree t
  have hlength := h.length_symbols_le
  have hlast : (buildTree t).1.length - 1 ∈ active := h.last_mem_active (by omega)
  match active, hlast, hle with
  | [root], _, _ =>
    have heq : (buildTree t).2 = root := hroot
    rwa [heq]

end Sys2Proof.Machine
end

section
/-! PROOFS. The order of the nodes of a tree, and the invariants of every tree (42_huffman_encoder.md R203 to R206, R209). -/

namespace Sys2Proof.Machine

/-- R204 item by item is the comparison of frequency, kind and tie. -/
theorem Node.before_iff_items (x y : Node) : x.before y = true ↔
    x.freq < y.freq ∨
    (x.freq = y.freq ∧ (∃ a, x.kind = .leaf a) ∧ (∃ l r, y.kind = .internal l r)) ∨
    (x.freq = y.freq ∧ ∃ a b, x.kind = .leaf a ∧ y.kind = .leaf b ∧ a.toNat < b.toNat) ∨
    (x.freq = y.freq ∧ (∃ l r, x.kind = .internal l r) ∧ (∃ l r, y.kind = .internal l r) ∧ x.seq < y.seq) := by
  rw [Node.before_iff]
  obtain ⟨xkind, xfreq, xseq⟩ := x
  obtain ⟨ykind, yfreq, yseq⟩ := y
  cases xkind <;> cases ykind <;> simp [NodeKind.rank, Node.tie]

/-- Settles O54: the order compares three numbers, and no two nodes of a tree agree in kind and tie. -/
theorem nodeOrderIsStrictAndTotal : Obligations.NodeOrderIsStrictAndTotal := by
  refine ⟨Node.before_iff_items, fun _ _ _ => Node.before_trans, fun t x y hx hy hne => ?_⟩
  obtain ⟨active, h, -⟩ := exists_forest_buildTree t
  obtain hxy | hyx := Node.before_or_before (h.rank_ne_or_tie_ne hx hy hne)
  · exact .inl ⟨hxy, Node.not_before_of_before hxy⟩
  · exact .inr ⟨Node.not_before_of_before hyx, hyx⟩

/-! ## The order of merging (R205) -/

/-- The children of the node at an index, none where there is no node. -/
theorem child_toList_append (nodes : List Node) (x : Nat) :
    (child nodes x false).toList ++ (child nodes x true).toList = (nodes[x]?).elim [] Node.children := by
  unfold child
  split
  next l r f s hn => simp [hn, Node.children]
  next v f s hn => simp [hn, Node.children]
  next hn => simp [hn]

theorem flatMap_range_getElem? {α β : Type} (f : α → List β) (l : List α) :
    (List.range l.length).flatMap (fun j => (l[j]?).elim [] f) = l.flatMap f := by
  induction l with
  | nil => rfl
  | cons a l ih =>
    rw [List.length_cons, List.range_succ_eq_map, List.flatMap_cons, List.flatMap_map, List.flatMap_cons, ← ih]
    rfl

/-- The children of the internal nodes, in the order of creation, are the nodes in the order in which they left ACTIVE. -/
theorem Forest.mergeOrder_eq {t : FreqTable} {nodes : List Node} {root : Nat} (h : Forest t nodes [root]) :
    mergeOrder nodes t.symbols.length = nodes.flatMap Node.children := by
  have hlength := h.tree_length
  have hleaves := length_leaves t
  obtain ⟨merged, hnodes⟩ := h.begins
  have hmerged : merged.length = t.symbols.length - 1 := by
    have := congrArg List.length hnodes
    rw [List.length_append] at this
    omega
  simp only [mergeOrder, child_toList_append, ← hmerged]
  rw [← hnodes, List.flatMap_append, flatMap_children_leaves, List.nil_append,
    ← flatMap_range_getElem? Node.children merged]
  refine List.flatMap_congr fun j _ => ?_
  rw [List.getElem?_append_right (by omega), hleaves, Nat.add_sub_cancel_left]

theorem Forest.mergeOrder_length {t : FreqTable} {nodes : List Node} {root : Nat} (h : Forest t nodes [root]) :
    (mergeOrder nodes t.symbols.length).length = 2 * (t.symbols.length - 1) := by
  have := h.taken.length_eq
  rw [List.length_append, List.length_singleton, List.length_range, h.tree_length] at this
  rw [h.mergeOrder_eq]
  omega

/-! ## Frequencies (R206) -/

/-- The loop keeps the bounds of the working storage, so no frequency of a tree reaches 2^40. -/
theorem nodeFreq_buildTree_lt (t : FreqTable) (x : Nat) : nodeFreq (buildTree t).1 x < 2 ^ 40 := by
  have start : Work.Bounded { Work.init .hufMerge with
      nodes := leaves t, active := List.range (leaves t).length } :=
    ((Work.init_bounded .hufMerge).of_sameStorage (w' := { Work.init .hufMerge with freq := t })
      ⟨rfl, rfl, rfl, rfl, rfl⟩).placeLeaves.of_sameStorage ⟨rfl, rfl, rfl, rfl, rfl⟩
  have bounded := mergeAll_induction
    (P := fun nodes active => Work.Bounded { Work.init .hufMerge with nodes := nodes, active := active })
    (fun _ _ _ rest h => h.merge (by simp)) (leaves t).length start
  have := nodeFreq_le (fun n hn => Nat.le_pred_of_lt (bounded.freqs n hn)) x
  exact Nat.lt_of_le_pred (by decide) this

/-- Settles O55: the invariant of the merging loop at its end, and the code words as paths from the root. -/
theorem treeInvariants : Obligations.TreeInvariants := by
  intro t hk k nodes root
  have h : Forest t nodes [root] := forest_buildTree (by omega)
  refine ⟨h.tree_length, h.root_eq, fun x n hn => (h.node x n hn).seq_eq, fun x hx => ?_, h.leaves_rise,
    h.mergeOrder_length, ?_, fun x y v => h.leafSym_injective, fun x hx => ?_, fun y hy hne => ?_,
    nodeFreq_buildTree_lt t, fun v hv => ?_⟩
  · obtain ⟨v, hv, hn⟩ := h.exists_leaf_of_lt hx
    exact ⟨v, hv, leafSym_eq_some_iff.mpr ⟨_, hn, rfl⟩⟩
  · rw [h.mergeOrder_eq]
    exact (List.pairwise_append.mp h.rises).1
  · exact h.node_cases hx
  · obtain ⟨x, b, hc⟩ := h.exists_parent hy hne
    exact ⟨x, b, hc, fun x' b' hc' => h.parent_unique hc hc'⟩
  · obtain ⟨hpos, hle⟩ := h.codeTable_at_length hk hv
    have := length_symbols_le t
    exact ⟨hpos, hle, by omega, h.followPath_codeTable hk hv 0⟩

end Sys2Proof.Machine
end

section
/-! PROOFS. The container that `huf_compress` writes: header, payload and length (42_huffman_encoder.md R200, R201, R207,
R210 to R212). -/

namespace Sys2Proof.Machine

/-! ## Header (R210) -/

theorem put16_eq_bytes (v : BitVec 16) : put16 v = [BitVec.ofNat 8 (v.toNat / 256), BitVec.ofNat 8 v.toNat] := by
  simp only [put16, List.cons.injEq, ← BitVec.toNat_inj, BitVec.extractLsb'_toNat, BitVec.toNat_ofNat,
    Nat.shiftRight_eq_div_pow, Nat.reducePow, Nat.div_one, and_self]

theorem put32_eq_bytes (v : Word) : put32 v = [BitVec.ofNat 8 (v.toNat / 2 ^ 24), BitVec.ofNat 8 (v.toNat / 2 ^ 16),
    BitVec.ofNat 8 (v.toNat / 2 ^ 8), BitVec.ofNat 8 v.toNat] := by
  simp only [put32, List.cons.injEq, ← BitVec.toNat_inj, BitVec.extractLsb'_toNat, BitVec.toNat_ofNat,
    Nat.shiftRight_eq_div_pow, Nat.reducePow, Nat.div_one, and_self]

@[simp] theorem put16_length (v : BitVec 16) : (put16 v).length = 2 := rfl

@[simp] theorem put32_length (v : Word) : (put32 v).length = 4 := rfl

@[simp] theorem hufHeaderBytes_length (t : FreqTable) : (hufHeaderBytes t).length = 2 + 5 * t.symbols.length := by
  rw [hufHeaderBytes, List.length_append, List.length_flatMap, put16_length]
  simp [Nat.mul_comm]

/-! ## The two shapes of the container -/

theorem hufCompress_of_le_one {d : List Byte} (h : (freqTable d).symbols.length ≤ 1) :
    hufCompress d = hufHeaderBytes (freqTable d) :=
  if_pos h

theorem hufCompress_of_two_le {d : List Byte} (h : 2 ≤ (freqTable d).symbols.length) :
    hufCompress d = hufHeaderBytes (freqTable d) ++
      encodePayload (codeTable (buildTree (freqTable d)).1 (buildTree (freqTable d)).2) d :=
  if_neg (by omega)

/-- Every container begins with its header. -/
theorem hufCompress_take (d : List Byte) :
    (hufCompress d).take (2 + 5 * (freqTable d).symbols.length) = hufHeaderBytes (freqTable d) := by
  rw [← hufHeaderBytes_length]
  obtain h | h := Nat.lt_or_ge 1 (freqTable d).symbols.length
  · rw [hufCompress_of_two_le h, List.take_left]
  · rw [hufCompress_of_le_one h, List.take_length]

/-- The payload is the code words of the input bytes, one after the other (R211). -/
theorem encodePayload_eq (codes : CodeTable) (d : List Byte) :
    encodePayload codes d = (Writer.empty.writeBits (d.flatMap codes.at)).finish := by
  rw [Writer.writeBits, List.foldl_flatMap]
  rfl

/-! ## Length (R212) -/

/-- The bits of the payload, counted by distinct byte. -/
theorem flatMap_codes_length {d : List Byte} (hd : d.length ≤ 2 ^ 32 - 1) (codes : CodeTable) :
    (d.flatMap codes.at).length =
      ((freqTable d).symbols.map (fun v => ((freqTable d).at v).toNat * (codes.at v).length)).sum := by
  have hfin : d.toFinset = (freqTable d).symbols.toFinset := by
    ext v
    rw [List.mem_toFinset, List.mem_toFinset, mem_symbols_freqTable_iff hd]
  rw [List.length_flatMap, Finset.sum_list_map_count, hfin, List.sum_toFinset _ (freqTable d).symbols_nodup]
  simp only [freqTable_at_toNat hd, smul_eq_mul]

/-- Two bytes or more have two code words or more, of a bit at least. -/
theorem two_le_flatMap_codes_length {d : List Byte} (hk : 2 ≤ d.length) {codes : CodeTable}
    (hpos : ∀ v ∈ d, 1 ≤ (codes.at v).length) : 2 ≤ (d.flatMap codes.at).length := by
  have := List.card_nsmul_le_sum (d.map fun v => (codes.at v).length) 1 (by simpa using hpos)
  rw [List.length_flatMap]
  simp only [List.length_map, smul_eq_mul, Nat.mul_one] at this
  omega

theorem length_symbols_freqTable_le {d : List Byte} (hd : d.length ≤ 2 ^ 32 - 1) :
    (freqTable d).symbols.length ≤ d.length :=
  ((freqTable d).symbols_nodup.subperm fun v hv => (mem_symbols_freqTable_iff hd v).mp hv).length_le

/-- Settles O57: the header by its bytes, the payload by the bit writer, and its bits counted by distinct byte. -/
theorem huffmanOutputLength : Obligations.HuffmanOutputLength := by
  intro d hd t k codes bits
  have hbits : (d.flatMap codes.at).length = bits := flatMap_codes_length hd codes
  have hk : k ≤ 256 := length_symbols_le t
  have header : (hufHeaderBytes t).length = 2 + 5 * k := hufHeaderBytes_length t
  refine ⟨freqTable_at_toNat hd, t.symbols_rise, mem_symbols_freqTable_iff hd, ?_, fun h2 => ?_, fun h1 => ?_,
    fun h2 => ?_⟩
  · have hcount : (BitVec.ofNat 16 k).toNat = k := Nat.mod_eq_of_lt (by omega)
    rw [hufCompress_take, hufHeaderBytes, put16_eq_bytes, hcount]
    simp only [put32_eq_bytes, freqTable_at_toNat hd, t]
  · rw [hufCompress_of_two_le h2, ← header, List.drop_left, encodePayload_eq]
  · rw [hufCompress_of_le_one h1, header]
  · have hpos : ∀ v ∈ d, 1 ≤ (codes.at v).length := fun v hv => by
      have htree := forest_buildTree (t := t) (by omega)
      exact (htree.codeTable_at_length h2 ((mem_symbols_freqTable_iff hd v).mpr hv)).1
    have htwo := two_le_flatMap_codes_length (h2.trans (length_symbols_freqTable_le hd)) hpos
    refine ⟨?_, hbits ▸ htwo⟩
    rw [hufCompress_of_two_le h2, List.length_append, header, encodePayload_eq, (bitWriterLayout _).1, hbits]

end Sys2Proof.Machine
end

section
/-! PROOFS. What `huf_decompress` reads from a container's header, and that the order of the entries does not matter
(42_huffman_encoder.md R207, R208; 43_huffman_decoder.md R240 to R250). -/

namespace Sys2Proof.Machine

/-! ## The bytes of a container -/

/-- The bytes of a header entry (30_encoding.md R125). -/
def entryBytes (e : Byte × Word) : List Byte := e.1 :: put32 e.2

theorem hufContainer_eq (es : List (Byte × Word)) (payload : List Byte) :
    hufContainer es payload = put16 (BitVec.ofNat 16 es.length) ++ (es.flatMap entryBytes ++ payload) :=
  List.append_assoc _ _ _

@[simp] theorem flatMap_entryBytes_length (es : List (Byte × Word)) :
    (es.flatMap entryBytes).length = 5 * es.length := by
  rw [List.length_flatMap]
  simp [entryBytes, Nat.mul_comm]

@[simp] theorem hufContainer_length (es : List (Byte × Word)) (payload : List Byte) :
    (hufContainer es payload).length = 2 + 5 * es.length + payload.length := by
  rw [hufContainer_eq, List.length_append, List.length_append, flatMap_entryBytes_length, put16_length, Nat.add_assoc]

theorem hufContainer_drop_two (es : List (Byte × Word)) (payload : List Byte) :
    (hufContainer es payload).drop 2 = es.flatMap entryBytes ++ payload := by
  rw [hufContainer_eq]
  rfl

theorem hufContainer_drop_payload (es : List (Byte × Word)) (payload : List Byte) :
    (hufContainer es payload).drop (2 + 5 * es.length) = payload := by
  rw [← List.drop_drop, hufContainer_drop_two, ← flatMap_entryBytes_length, List.drop_left]

theorem byteAt_add (c : List Byte) (i m : Nat) : byteAt c (i + m) = byteAt (c.drop i) m := by
  simp only [byteAt, List.getD_eq_getElem?_getD, List.getElem?_drop]

theorem hufContainer_count (es : List (Byte × Word)) (payload : List Byte) :
    be16 (byteAt (hufContainer es payload) 0) (byteAt (hufContainer es payload) 1) = BitVec.ofNat 16 es.length := by
  rw [hufContainer_eq]
  exact be16_put16 _

/-! ## The entries (R245, R246) -/

/-- The frequency table that entries stand for (43_huffman_decoder.md R246). -/
def entryTable (es : List (Byte × Word)) : FreqTable := es.foldl (fun t e => t.put e.1 e.2) FreqTable.zero

theorem FreqTable.put_comm (t : FreqTable) {v w : Byte} (f g : Word) (h : v ≠ w) :
    (t.put v f).put w g = (t.put w g).put v f :=
  Vector.set_comm _ _ fun heq => h (BitVec.eq_of_toNat_eq heq)

/-- Entries with distinct values stand for the same table in any order (R208, R246). -/
theorem entryTable_perm {es es' : List (Byte × Word)} (h : es.Perm es') (hnodup : (es.map Prod.fst).Nodup) :
    entryTable es = entryTable es' := by
  refine h.foldl_eq' (fun e he e' he' t => ?_) _
  by_cases heq : e.1 = e'.1
  · rw [List.inj_on_of_nodup_map hnodup he he' heq]
  · exact t.put_comm _ _ heq

/-- The loop over the entries of R240, from entry `j` of a container on. -/
theorem readEntries_eq {c payload : List Byte} {es : List (Byte × Word)} {j : Nat} {seen : List Byte} (t : FreqTable)
    (hc : c.drop (2 + 5 * j) = es.flatMap entryBytes ++ payload) (hnodup : (es.map Prod.fst).Nodup)
    (hseen : ∀ e ∈ es, e.1 ∉ seen) (hpos : ∀ e ∈ es, e.2 ≠ 0) :
    readEntries c es.length j seen t = .ok (es.foldl (fun t e => t.put e.1 e.2) t) := by
  induction es generalizing j seen t with
  | nil => rfl
  | cons e es ih =>
    obtain ⟨v, f⟩ := e
    rw [List.flatMap_cons, List.append_assoc] at hc
    have byte (m : Nat) : byteAt c (m + 2 + 5 * j) = byteAt (entryBytes (v, f) ++ (es.flatMap entryBytes ++ payload)) m := by
      rw [← hc, ← byteAt_add, Nat.add_assoc, Nat.add_comm m]
    have hv : byteAt c (2 + 5 * j) = v := byte 0
    have hf : be32 (byteAt c (3 + 5 * j)) (byteAt c (4 + 5 * j)) (byteAt c (5 + 5 * j)) (byteAt c (6 + 5 * j)) = f := by
      rw [byte 1, byte 2, byte 3, byte 4]
      exact be32_put32 f
    have hnext : c.drop (2 + 5 * (j + 1)) = es.flatMap entryBytes ++ payload := by
      rw [Nat.mul_succ, ← Nat.add_assoc, ← List.drop_drop, hc]
      rfl
    obtain ⟨hnotin, hnodup⟩ := List.nodup_cons.mp hnodup
    have hgood : ¬ (f = 0 ∨ v ∈ seen) := not_or.mpr ⟨hpos _ (.head es), hseen _ (.head es)⟩
    rw [List.length_cons, readEntries]
    simp only [hv, hf, if_neg hgood]
    refine ih (t.put v f) hnext hnodup (fun e he hmem => ?_) (fun e he => hpos e (.tail _ he))
    obtain heq | hmem := List.mem_cons.mp hmem
    · exact hnotin (List.mem_map.mpr ⟨e, he, heq⟩)
    · exact hseen e (.tail _ he) hmem

/-- Distinct bytes are at most 256. -/
theorem length_le_of_nodup_bytes {vs : List Byte} (h : vs.Nodup) : vs.length ≤ 256 := by
  have hsub : vs.map BitVec.toNat ⊆ List.range 256 := fun i hi => by
    obtain ⟨v, -, rfl⟩ := List.mem_map.mp hi
    exact List.mem_range.mpr v.isLt
  simpa using ((h.map fun _ _ => BitVec.eq_of_toNat_eq).subperm hsub).length_le

/-! ## The whole header (R240 to R249) -/

section

variable {es : List (Byte × Word)} (hnodup : (es.map Prod.fst).Nodup) (hpos : ∀ e ∈ es, e.2 ≠ 0)
include hnodup hpos

/-- A header with distinct values and frequencies above 0 passes every check, and the decoder goes on with its table. -/
theorem hufDecompress_container (hne : es ≠ []) (payload : List Byte) :
    hufDecompress (hufContainer es payload) =
      if es.length = 1 then
        if 7 < 2 + 5 * es.length + payload.length then .err .malformedHeader 7 0
        else .ok (List.replicate ((entryTable es).at (byteAt (hufContainer es payload) 2)).toNat
          (byteAt (hufContainer es payload) 2))
      else
        walkPayload (buildTree (entryTable es)).1 (buildTree (entryTable es)).2 (entryTable es).total (2 + 5 * es.length)
          (2 + 5 * es.length + payload.length) (bitsOf payload) (buildTree (entryTable es)).2 0 [] := by
  have hle : es.length ≤ 256 := by simpa using length_le_of_nodup_bytes hnodup
  have hk : (BitVec.ofNat 16 es.length).toNat = es.length := Nat.mod_eq_of_lt (by omega)
  have hread : readEntries (hufContainer es payload) es.length 0 [] FreqTable.zero = .ok (entryTable es) :=
    readEntries_eq _ (hufContainer_drop_two es payload) hnodup (fun _ _ => List.not_mem_nil) hpos
  have hshort : ¬ 2 + 5 * es.length + payload.length < 2 := by omega
  have hzero : ¬ es.length = 0 := List.length_eq_zero_iff.not.mpr hne
  have hmany : ¬ 256 < es.length := by omega
  have hwhole : ¬ 2 + 5 * es.length + payload.length < 2 + 5 * es.length := by omega
  simp only [hufDecompress, hufContainer_count, hufContainer_length, hk, hread, hufContainer_drop_payload, if_neg hshort,
    if_neg hzero, if_neg hmany, if_neg hwhole]

theorem hufDecompress_of_two_le (h2 : 2 ≤ es.length) (payload : List Byte) :
    hufDecompress (hufContainer es payload) =
      walkPayload (buildTree (entryTable es)).1 (buildTree (entryTable es)).2 (entryTable es).total (2 + 5 * es.length)
        (2 + 5 * es.length + payload.length) (bitsOf payload) (buildTree (entryTable es)).2 0 [] := by
  have hne : es ≠ [] := List.ne_nil_of_length_pos (by omega)
  rw [hufDecompress_container hnodup hpos hne, if_neg (by omega)]

end

/-- Settles O56: the decoder uses the number of entries and their table, and with one entry or none there is one order. -/
theorem headerOrderDoesNotMatter : Obligations.HeaderOrderDoesNotMatter := by
  intro es es' payload hperm hnodup hpos
  match es with
  | [] => rw [List.nil_perm.mp hperm]
  | [e] => rw [List.singleton_perm.mp hperm]
  | e :: e' :: es =>
    have h2 : 2 ≤ (e :: e' :: es).length := by simp
    rw [hufDecompress_of_two_le hnodup hpos h2 payload,
      hufDecompress_of_two_le ((hperm.map _).nodup_iff.mp hnodup) (fun e he => hpos e (hperm.mem_iff.mpr he))
        (hperm.length_eq ▸ h2) payload,
      entryTable_perm hperm hnodup, hperm.length_eq]

/-! ## One distinct byte (R207, R248) -/

theorem symbols_freqTable_replicate (v : Byte) {n : Nat} (h1 : 1 ≤ n) (hn : n ≤ 2 ^ 32 - 1) :
    (freqTable (List.replicate n v)).symbols = [v] := by
  have hlen : (List.replicate n v).length ≤ 2 ^ 32 - 1 := by rwa [List.length_replicate]
  refine List.perm_singleton.mp ((List.perm_ext_iff_of_nodup (FreqTable.symbols_nodup _) (List.nodup_singleton v)).mpr
    fun w => ?_)
  rw [mem_symbols_freqTable_iff hlen, List.mem_replicate, List.mem_singleton]
  exact and_iff_right (by omega)

theorem freqTable_replicate_at (v : Byte) (n : Nat) : (freqTable (List.replicate n v)).at v = BitVec.ofNat 32 n := by
  rw [freqTable, at_foldl_bump, FreqTable.at_zero, zero_add, List.count_replicate_self]

/-- The header of one entry. -/
theorem hufContainer_single (v : Byte) (f : Word) : hufContainer [(v, f)] [] = [0x00, 0x01, v] ++ put32 f := by
  have hcount : put16 (BitVec.ofNat 16 1) = [0x00, 0x01] := by decide
  rw [hufContainer_eq, List.append_nil, List.length_singleton, hcount, List.flatMap_singleton]
  rfl

/-- A container with one entry and nothing after it decodes to the copies of its value. -/
theorem hufDecompress_single (v : Byte) {f : Word} (hf : f ≠ 0) :
    hufDecompress (hufContainer [(v, f)] []) = .ok (List.replicate f.toNat v) := by
  have hnodup : ([(v, f)].map Prod.fst).Nodup := List.nodup_singleton v
  rw [hufDecompress_container hnodup (by simpa using hf) (List.cons_ne_nil _ _), if_pos List.length_singleton,
    if_neg (by simp)]
  have hbyte : byteAt (hufContainer [(v, f)] []) 2 = v := rfl
  have hat : (entryTable [(v, f)]).at v = f := FreqTable.at_put_same _ v f
  rw [hbyte, hat]

/-- Settles O58: the one symbol is the whole header, and the header's one entry is the whole output. -/
theorem singleByteContainer : Obligations.SingleByteContainer := by
  intro v n h1 hn
  have hsymbols := symbols_freqTable_replicate v h1 hn
  have hn' : (BitVec.ofNat 32 n).toNat = n := Nat.mod_eq_of_lt (by omega)
  have hf : BitVec.ofNat 32 n ≠ 0 := ne_of_apply_ne BitVec.toNat (hn'.trans_ne (Nat.ne_of_gt h1))
  rw [← hufContainer_single]
  refine ⟨?_, ?_⟩
  · rw [hufCompress_of_le_one (by rw [hsymbols]; exact Nat.le_refl 1), hufHeaderBytes, hsymbols, List.flatMap_singleton,
      freqTable_replicate_at, hufContainer_eq, List.append_nil, List.flatMap_singleton]
    rfl
  · rw [hufDecompress_single v hf, hn']

end Sys2Proof.Machine
end

section
/-! PROOFS. The Huffman encoder in the engine: one turn an input byte counted, a merge, or an input byte encoded
(42_huffman_encoder.md R200, R202, R205, R211). -/

namespace Sys2Proof.Machine

/-! ## A turn -/

section

variable {s : State} (hr : s.running = true) (hi : s.inputs = [])
include hr hi

theorem step_of_hufCount (hp : s.work.phase = .hufCount) : step s = hufCountStep s := by
  have nothing : s.source = none := by simp only [State.source, hp]
  rw [step_of_no_source hr hi nothing, State.engineWork, hp]

theorem step_of_hufMerge (hp : s.work.phase = .hufMerge) : step s = hufMergeStep s := by
  have nothing : s.source = none := by simp only [State.source, hp]
  rw [step_of_no_source hr hi nothing, State.engineWork, hp]

theorem step_of_hufEncode (hp : s.work.phase = .hufEncode) : step s = hufEncodeStep s := by
  have nothing : s.source = none := by simp only [State.source, hp]
  rw [step_of_no_source hr hi nothing, State.engineWork, hp]

end

theorem getElem?_eq_head?_of_drop {d rest : List Byte} {i : Nat} (h : d.drop i = rest) : d[i]? = rest.head? := by
  rw [← h, List.head?_drop]

theorem drop_succ_of_drop_eq_cons {d rest : List Byte} {i : Nat} {v : Byte} (h : d.drop i = v :: rest) :
    d.drop (i + 1) = rest := by
  rw [← List.drop_drop, h]
  rfl

section

variable {s : State} {v : Byte} {rest : List Byte}

theorem hufCountStep_of_byte (h : s.input.drop s.work.cursor = v :: rest) :
    hufCountStep s = .next (s.setWork { s.work with freq := s.work.freq.bump v, cursor := s.work.cursor + 1 }) := by
  rw [hufCountStep, getElem?_eq_head?_of_drop h, List.head?_cons]

/-- With at most one distinct byte the container is the header alone (R201, R207). -/
theorem hufCountStep_of_le_one (h : s.input.drop s.work.cursor = []) (hk : s.work.freq.symbols.length ≤ 1) :
    hufCountStep s = .next (s.complete (.ok (hufHeaderBytes s.work.freq))) := by
  rw [hufCountStep, getElem?_eq_head?_of_drop h, List.head?_nil]
  exact if_pos hk

theorem hufCountStep_of_two_le (h : s.input.drop s.work.cursor = []) (hk : 2 ≤ s.work.freq.symbols.length) :
    hufCountStep s = .next (s.setWork { s.work.placeLeaves with
      out := hufHeaderBytes s.work.freq, count := s.work.freq.symbols.length }) := by
  rw [hufCountStep, getElem?_eq_head?_of_drop h, List.head?_nil]
  exact if_neg (by omega)

theorem hufMergeStep_of_compress (hmode : s.latch.mode = .compress) (hactive : s.work.active.length ≤ 1) :
    hufMergeStep s = .next (s.setWork { s.work with
      codes := codeTable s.work.nodes (rootOf s.work.active), writer := Writer.empty, cursor := 0, phase := .hufEncode }) := by
  rw [hufMergeStep, if_neg (by omega), hmode]

theorem hufEncodeStep_of_byte (h : s.input.drop s.work.cursor = v :: rest) :
    hufEncodeStep s = .next (s.setWork { s.work with
      writer := s.work.writer.writeBits (s.work.codes.at v), cursor := s.work.cursor + 1 }) := by
  rw [hufEncodeStep, getElem?_eq_head?_of_drop h, List.head?_cons]

theorem hufEncodeStep_of_end (h : s.input.drop s.work.cursor = []) :
    hufEncodeStep s = .next (s.complete (.ok (s.work.out ++ s.work.writer.finish))) := by
  rw [hufEncodeStep, getElem?_eq_head?_of_drop h, List.head?_nil]

end

/-! ## The loops -/

section

variable {u : State} {r : Result} (hr : u.running = true) (hi : u.inputs = [])
include hr hi

/-- The turns that count the rest of the input (R202). -/
theorem codecGives_hufCount {w : Work} {rest : List Byte} (hp : w.phase = .hufCount)
    (hrest : u.input.drop w.cursor = rest)
    (h : CodecGives u { w with freq := rest.foldl FreqTable.bump w.freq, cursor := w.cursor + rest.length } r) :
    CodecGives u w r := by
  induction rest generalizing w with
  | nil => exact h
  | cons v rest ih =>
    refine .of_turn ((step_of_hufCount (s := u.setWork w) hr hi hp).trans (hufCountStep_of_byte hrest))
      (ih hp (drop_succ_of_drop_eq_cons hrest) ?_)
    rwa [List.length_cons, Nat.add_comm rest.length, ← Nat.add_assoc] at h

/-- The turns that merge, in either direction (R205). -/
theorem codecGives_hufMerge (fuel : Nat) {w : Work} (hp : w.phase = .hufMerge)
    (h : CodecGives u { w with
      nodes := (mergeAll fuel w.nodes w.active).1, active := (mergeAll fuel w.nodes w.active).2 } r) :
    CodecGives u w r := by
  induction fuel generalizing w with
  | zero => exact h
  | succ fuel ih =>
    rw [mergeAll] at h
    split at h
    next more =>
      exact .of_turn ((step_of_hufMerge (s := u.setWork w) hr hi hp).trans (if_pos more)) (ih (w := { w with
        nodes := (mergeLeast w.nodes w.active).1, active := (mergeLeast w.nodes w.active).2 }) hp h)
    next => exact h

/-- The turns that encode the rest of the input (R211). -/
theorem codecGives_hufEncode {w : Work} {rest : List Byte} (hp : w.phase = .hufEncode)
    (hrest : u.input.drop w.cursor = rest) :
    CodecGives u w
      (.ok (w.out ++ (rest.foldl (fun wr v => wr.writeBits (w.codes.at v)) w.writer).finish)) := by
  induction rest generalizing w with
  | nil =>
    exact .of_complete ((step_of_hufEncode (s := u.setWork w) hr hi hp).trans (hufEncodeStep_of_end hrest))
  | cons v rest ih =>
    exact .of_turn ((step_of_hufEncode (s := u.setWork w) hr hi hp).trans (hufEncodeStep_of_byte hrest))
      (ih (w := { w with writer := w.writer.writeBits (w.codes.at v), cursor := w.cursor + 1 }) hp
        (drop_succ_of_drop_eq_cons hrest))

/-- The turns after the tree is built: its code table, and the encode pass (R209, R211). -/
theorem codecGives_hufBuilt (hmode : u.latch.mode = .compress) {w : Work} (hp : w.phase = .hufMerge)
    (hactive : w.active.length ≤ 1) :
    CodecGives u w (.ok (w.out ++ encodePayload (codeTable w.nodes (rootOf w.active)) u.input)) :=
  .of_turn ((step_of_hufMerge (s := u.setWork w) hr hi hp).trans (hufMergeStep_of_compress hmode hactive))
    (codecGives_hufEncode hr hi rfl rfl)

/-- The turns from the placed leaves on. -/
theorem codecGives_hufPlaced (hmode : u.latch.mode = .compress) {w : Work} (hp : w.phase = .hufMerge)
    (hnodes : w.nodes = leaves w.freq) (hactive : w.active = List.range (leaves w.freq).length) :
    CodecGives u w
      (.ok (w.out ++ encodePayload (codeTable (buildTree w.freq).1 (buildTree w.freq).2) u.input)) := by
  have merged : (mergeAll w.nodes.length w.nodes w.active).2.length ≤ 1 :=
    mergeAll_active_length_le (by rw [hactive, hnodes, List.length_range]; exact Nat.le_succ _)
  rw [buildTree, ← hactive, ← hnodes]
  exact codecGives_hufMerge hr hi w.nodes.length hp (codecGives_hufBuilt hr hi hmode hp merged)

/-- The turns of HUF.C after the input is counted. -/
theorem codecGives_hufCounted (hmode : u.latch.mode = .compress) {w : Work} (hp : w.phase = .hufCount)
    (hend : u.input.drop w.cursor = []) (hfreq : w.freq = freqTable u.input) :
    CodecGives u w (.ok (hufCompress u.input)) := by
  obtain hk | hk := Nat.lt_or_ge 1 (freqTable u.input).symbols.length
  · rw [hufCompress_of_two_le hk]
    rw [← hfreq] at hk ⊢
    exact .of_turn ((step_of_hufCount (s := u.setWork w) hr hi hp).trans (hufCountStep_of_two_le hend hk))
      (codecGives_hufPlaced hr hi hmode rfl rfl rfl)
  · rw [hufCompress_of_le_one hk]
    rw [← hfreq] at hk ⊢
    exact .of_complete ((step_of_hufCount (s := u.setWork w) hr hi hp).trans (hufCountStep_of_le_one hend hk))

/-- The turns of HUF.C make up `huf_compress`. -/
theorem codecGives_hufC (hmode : u.latch.mode = .compress) :
    CodecGives u (Work.init .hufCount) (.ok (hufCompress u.input)) := by
  refine codecGives_hufCount hr hi rfl (rest := u.input) rfl (codecGives_hufCounted hr hi hmode rfl ?_ rfl)
  exact List.drop_eq_nil_of_le (Nat.zero_add _).ge

end

/-- Settles O38: after START and the head of `execute` the encoder's turns compute `huf_compress`. -/
theorem huffmanCompressOperation : Obligations.HuffmanCompressOperation := by
  intro s hidle hi hlegal hlen
  have hcodec := codecGives_hufC (State.started_running hidle .compress 1) hi rfl
  exact operationEnds_of_codecGives hidle hi hlegal hlen (by decide) rfl hcodec

end Sys2Proof.Machine
end

section
/-! PROOFS. The tree walk of the decoder along code words, and the Huffman round trip (42_huffman_encoder.md R200 to
R211; 43_huffman_decoder.md R240 to R255). -/

namespace Sys2Proof.Machine

/-! ## The walk along a code word (R251) -/

section

variable {nodes : List Node} {root total start n : Nat}

/-- With all bytes output, the walk ends with success, whatever bits are left (R253). -/
theorem walkPayload_of_total_le {bits : List Bool} {x read : Nat} {out : List Byte} (h : total ≤ out.length) :
    walkPayload nodes root total start n bits x read out = .ok out := by
  cases bits <;> exact if_pos h

/-- A path to a leaf is read bit by bit; then its byte is output, and the walk goes on from the root. -/
theorem walkPayload_of_followPath {path : List Bool} {depth x read : Nat} {v : Byte} {out : List Byte}
    (hpath : followPath nodes depth x path = .leaf v) (hout : out.length < total) (rest : List Bool) :
    walkPayload nodes root total start n (path ++ rest) x read out =
      walkPayload nodes root total start n rest root (read + path.length) (out ++ [v]) := by
  induction path generalizing depth x read with
  | nil => cases hpath
  | cons b bs ih =>
    rw [List.cons_append, walkPayload, if_neg (Nat.not_le.mpr hout), List.length_cons]
    rw [followPath] at hpath
    cases hc : child nodes x b with
    | none => simp [hc] at hpath
    | some y =>
      cases hl : leafSym nodes y with
      | none =>
        simp only [hc, hl] at hpath ⊢
        rw [ih hpath, Nat.add_right_comm, Nat.add_assoc]
      | some w =>
        cases bs with
        | nil =>
          simp only [hc, hl, PathEnd.leaf.injEq] at hpath ⊢
          rw [hpath]
          rfl
        | cons _ _ => simp [hc, hl] at hpath

/-- Code words that lead to their bytes are decoded one after the other, and the bits after the last are left unread. -/
theorem walkPayload_of_codes {codes : CodeTable} {d out : List Byte} {read : Nat}
    (hcodes : ∀ v ∈ d, followPath nodes 0 root (codes.at v) = .leaf v) (htotal : total = out.length + d.length)
    (rest : List Bool) :
    walkPayload nodes root total start n (d.flatMap codes.at ++ rest) root read out = .ok (out ++ d) := by
  induction d generalizing out read with
  | nil => rw [walkPayload_of_total_le htotal.le, List.append_nil]
  | cons v d ih =>
    obtain ⟨hv, hd⟩ := List.forall_mem_cons.mp hcodes
    rw [List.length_cons] at htotal
    rw [List.flatMap_cons, List.append_assoc, walkPayload_of_followPath hv (by omega), ih hd, List.append_assoc,
      List.singleton_append]
    rw [List.length_append, List.length_singleton]
    omega

end

/-! ## The entries that the encoder writes (R210) -/

/-- The header entries of a frequency table: each distinct byte, ascending, with its frequency. -/
def FreqTable.entries (t : FreqTable) : List (Byte × Word) := t.symbols.map fun v => (v, t.at v)

@[simp] theorem FreqTable.entries_length (t : FreqTable) : t.entries.length = t.symbols.length := List.length_map _

theorem FreqTable.entries_nodup (t : FreqTable) : (t.entries.map Prod.fst).Nodup := by
  rw [FreqTable.entries, List.map_map]
  exact (List.map_id _).symm ▸ t.symbols_nodup

theorem FreqTable.ne_zero_of_mem_entries {t : FreqTable} {e : Byte × Word} (h : e ∈ t.entries) : e.2 ≠ 0 := by
  obtain ⟨v, hv, rfl⟩ := List.mem_map.mp h
  exact (t.mem_symbols_iff v).mp hv

theorem hufHeaderBytes_append (t : FreqTable) (payload : List Byte) :
    hufHeaderBytes t ++ payload = hufContainer t.entries payload := by
  rw [hufHeaderBytes, hufContainer, FreqTable.entries_length, FreqTable.entries, List.flatMap_map]

/-- Storing entries taken from a table makes the counters of their values those of the table. -/
theorem FreqTable.at_foldl_put (t t₀ : FreqTable) (vs : List Byte) (w : Byte) :
    ((vs.map fun v => (v, t.at v)).foldl (fun t e => t.put e.1 e.2) t₀).at w = if w ∈ vs then t.at w else t₀.at w := by
  induction vs generalizing t₀ with
  | nil => rfl
  | cons v vs ih =>
    rw [List.map_cons, List.foldl_cons, ih]
    by_cases hw : w ∈ vs
    · rw [if_pos hw, if_pos (List.mem_cons_of_mem v hw)]
    by_cases hv : w = v
    · rw [if_neg hw, hv, FreqTable.at_put_same, if_pos List.mem_cons_self]
    · rw [if_neg hw, FreqTable.at_put_other _ _ hv, if_neg (List.not_mem_cons_of_ne_of_not_mem hv hw)]

/-- The decoder reads the encoder's table back (R246). -/
theorem entryTable_entries (t : FreqTable) : entryTable t.entries = t := by
  refine FreqTable.ext fun w => ?_
  rw [entryTable, FreqTable.entries, FreqTable.at_foldl_put]
  split
  next => rfl
  next hw => rw [FreqTable.at_zero, not_not.mp (mt (t.mem_symbols_iff w).mpr hw)]

/-- The frequencies of an input add up to its length (R250). -/
theorem freqTable_total {d : List Byte} (hd : d.length ≤ 2 ^ 32 - 1) : (freqTable d).total = d.length := by
  have hfin : d.toFinset = (freqTable d).symbols.toFinset := by
    ext v
    rw [List.mem_toFinset, List.mem_toFinset, mem_symbols_freqTable_iff hd]
  rw [← List.sum_toFinset_count_eq_length d, hfin, List.sum_toFinset _ (freqTable d).symbols_nodup]
  simp only [FreqTable.total, freqTable_at_toNat hd]

/-! ## The round trip (R255) -/

/-- With two distinct bytes or more: the decoder rebuilds the encoder's tree and walks it along the code words. -/
theorem hufDecompress_hufCompress_of_two_le {d : List Byte} (hd : d.length ≤ 2 ^ 32 - 1)
    (hk : 2 ≤ (freqTable d).symbols.length) : hufDecompress (hufCompress d) = .ok d := by
  have hcodes (v : Byte) (hv : v ∈ d) := (forest_buildTree (t := freqTable d) (by omega)).followPath_codeTable hk
    ((mem_symbols_freqTable_iff hd v).mpr hv) 0
  obtain ⟨pad, -, hbits⟩ := bitsOf_finish_writeBits
    (d.flatMap (codeTable (buildTree (freqTable d)).1 (buildTree (freqTable d)).2).at)
  rw [hufCompress_of_two_le hk, hufHeaderBytes_append, hufDecompress_of_two_le (FreqTable.entries_nodup _)
    (fun _ => FreqTable.ne_zero_of_mem_entries) (by rwa [FreqTable.entries_length]), entryTable_entries,
    encodePayload_eq, hbits]
  exact walkPayload_of_codes hcodes ((freqTable_total hd).trans (Nat.zero_add _).symm) _

/-- Settles O45: no byte gives an empty header, one distinct byte a single entry (O58), and more a payload. -/
theorem huffmanRoundTrip : Obligations.HuffmanRoundTrip := by
  intro d hd
  have hmem := mem_symbols_freqTable_iff hd
  match hs : (freqTable d).symbols with
  | [] =>
    have hnil : d = [] := List.eq_nil_iff_forall_not_mem.mpr fun v hv => List.not_mem_nil (hs ▸ (hmem v).mpr hv)
    have hempty : hufCompress d = [0, 0] := by
      rw [hufCompress_of_le_one (by simp [hs]), hufHeaderBytes, hs]
      rfl
    rw [hempty, hnil]
    rfl
  | [v] =>
    have hcopies : d = List.replicate d.length v := List.eq_replicate_of_mem fun w hw =>
      List.mem_singleton.mp (hs ▸ (hmem w).mpr hw)
    have hpos : 1 ≤ d.length := List.length_pos_of_mem ((hmem v).mp (hs ▸ List.mem_singleton_self v))
    obtain ⟨hcompress, hdecompress⟩ := singleByteContainer v d.length hpos hd
    rw [hcopies, hcompress, hdecompress]
  | v :: w :: rest => exact hufDecompress_hufCompress_of_two_le hd (by simp [hs])

end Sys2Proof.Machine
end

section
/-! PROOFS. The header of a Huffman container in the engine: what its two fields mean, and the turn that reads the count
(43_huffman_decoder.md R240 to R246). -/

namespace Sys2Proof.Machine

/-! ## HUF.HDR.COUNT (R241 to R244) -/

/-- An empty result fits in every OUT. -/
theorem State.complete_nil (s : State) : s.complete (.ok []) = s.completeOk [] := by
  rw [State.complete, capCheck, List.length_nil, if_neg (Nat.not_lt_zero _)]

theorem State.input_length (s : State) : s.input.length = s.latch.len.toNat := by
  rw [State.input, List.length_map, List.length_range]

section

variable {s : State} {count : BitVec 16}

theorem execHufHdrCount_of_empty (hk : count.toNat = 0) (hn : s.latch.len.toNat ≤ 2) :
    exec (.hufHdrCount count) s = .next (s.complete (.ok [])) := by
  simp only [exec, execHufHdrCount, if_pos hk, if_neg (Nat.not_lt.mpr hn)]

theorem execHufHdrCount_of_trailing (hk : count.toNat = 0) (hn : 2 < s.latch.len.toNat) :
    exec (.hufHdrCount count) s = .next (s.takeError .malformedHeader 2 0) := by
  simp only [exec, execHufHdrCount, if_pos hk, if_pos hn, State.raise_eq]

theorem execHufHdrCount_of_tooMany (hk : 256 < count.toNat) :
    exec (.hufHdrCount count) s = .next (s.takeError .malformedHeader 0 0) := by
  simp only [exec, execHufHdrCount, if_neg (Nat.ne_of_gt (Nat.zero_lt_of_lt hk)), if_pos hk, State.raise_eq]

theorem execHufHdrCount_of_fewEntries (hk : count.toNat ≠ 0) (hmany : count.toNat ≤ 256)
    (hn : s.latch.len.toNat < headerEnd count.toNat) :
    exec (.hufHdrCount count) s =
      .next (s.takeError .malformedHeader (2 + 5 * ((s.latch.len.toNat - 2) / 5)) 0) := by
  simp only [exec, execHufHdrCount, if_neg hk, if_neg (Nat.not_lt.mpr hmany), if_pos hn, State.raise_eq]

theorem execHufHdrCount_of_whole (hk : count.toNat ≠ 0) (hmany : count.toNat ≤ 256)
    (hn : headerEnd count.toNat ≤ s.latch.len.toNat) :
    exec (.hufHdrCount count) s = .next (s.setWork { s.work with
      count := count.toNat, entry := 0, cursor := 2, freq := FreqTable.zero, phase := .hufEntries }) := by
  simp only [exec, execHufHdrCount, if_neg hk, if_neg (Nat.not_lt.mpr hmany), if_neg (Nat.not_lt.mpr hn)]

end

section

variable {s : State}

theorem State.source_of_hufHeader (hp : s.work.phase = .hufHeader) : s.source = some (.hufCount s.input) := by
  rw [State.source, hp]

variable (hr : s.running = true) (hi : s.inputs = []) (hp : s.work.phase = .hufHeader)
include hr hi hp

theorem step_of_hufHeader (h : 2 ≤ s.input.length) :
    step s = exec (.hufHdrCount (be16 (byteAt s.input 0) (byteAt s.input 1))) s := by
  refine step_of_decoded hr hi (State.source_of_hufHeader hp) ?_
  match s.input, h with
  | _ :: _ :: _, _ => rfl

/-- A container too short for unique_count (R241). -/
theorem step_of_hufHeader_short (h : s.input.length < 2) : step s = .next (s.takeError .malformedHeader 0 0) := by
  refine step_of_malformed hr hi (State.source_of_hufHeader hp) (e := .truncatedCount) ?_
  match s.input, h with
  | [], _ => rfl
  | [_], _ => rfl

end

/-- Settles O33: one equation per check of the header, and the turn on a container without unique_count. -/
theorem huffmanCountMeaning : Obligations.HuffmanCountMeaning := by
  constructor
  · intro s count n k h2
    refine ⟨fun hk hn => ?_, fun hk hn => ?_, fun hk => ?_, fun hk hmany hn => ?_, fun hk hmany hn => ?_⟩
    · refine ⟨_, execHufHdrCount_of_empty hk hn.le, ?_, s.complete_onlyResultChanged _⟩
      rw [s.complete_nil]
      exact s.completeOk_ended (Nat.zero_le _)
    · exact ⟨_, execHufHdrCount_of_trailing hk hn, s.takeError_ended _ _ _, s.takeError_onlyResultChanged _ _ _⟩
    · exact ⟨_, execHufHdrCount_of_tooMany hk, s.takeError_ended _ _ _, s.takeError_onlyResultChanged _ _ _⟩
    · exact ⟨_, execHufHdrCount_of_fewEntries (Nat.ne_of_gt hk) hmany hn, s.takeError_ended _ _ _,
        s.takeError_onlyResultChanged _ _ _⟩
    · exact ⟨_, execHufHdrCount_of_whole (Nat.ne_of_gt hk) hmany hn, s.setWork_onlyWorkChanged _, rfl,
        FreqTable.at_zero⟩
  · intro s hr hi hp hn
    exact ⟨_, step_of_hufHeader_short hr hi hp (s.input_length.trans_lt hn), s.takeError_ended _ _ _,
      s.takeError_onlyResultChanged _ _ _⟩

/-! ## HUF.HDR.ENTRY (R245, R246) -/

section

variable {s : State} {value : Byte} {freq : Word}

theorem execHufHdrEntry_of_bad (h : freq = 0 ∨ s.work.freq.at value ≠ 0) :
    exec (.hufHdrEntry value freq) s = .next (s.takeError .malformedHeader (2 + 5 * s.work.entry) 0) :=
  if_pos h

theorem execHufHdrEntry_of_good (h : ¬ (freq = 0 ∨ s.work.freq.at value ≠ 0)) :
    exec (.hufHdrEntry value freq) s = .next (s.setWork { s.work with
      freq := s.work.freq.put value freq, entry := s.work.entry + 1, cursor := s.work.cursor + 5 }) :=
  if_neg h

end

/-- Settles O34: an entry is refused, or it sets one counter. -/
theorem huffmanEntryMeaning : Obligations.HuffmanEntryMeaning := by
  refine fun s value freq => ⟨fun hbad => ?_, fun hfreq hnew => ?_⟩
  · exact ⟨_, execHufHdrEntry_of_bad hbad, s.takeError_ended _ _ _, s.takeError_onlyResultChanged _ _ _⟩
  · exact ⟨_, execHufHdrEntry_of_good (not_or.mpr ⟨hfreq, not_not.mpr hnew⟩), s.setWork_onlyWorkChanged _, rfl,
      FreqTable.at_put_same _ _ _, fun v hv => FreqTable.at_put_other _ _ hv⟩

end Sys2Proof.Machine
end

section
/-! PROOFS. The Huffman decoder in the engine: one turn a header field, a merge, or a code word (43_huffman_decoder.md
R240 to R254). -/

namespace Sys2Proof.Machine

/-! ## The entries of a header (R244 to R246) -/

/-- The value of header entry `j` of a container. -/
def entryValue (c : List Byte) (j : Nat) : Byte := byteAt c (2 + 5 * j)

/-- The frequency of header entry `j` of a container. -/
def entryFreq (c : List Byte) (j : Nat) : Word :=
  be32 (byteAt c (3 + 5 * j)) (byteAt c (4 + 5 * j)) (byteAt c (5 + 5 * j)) (byteAt c (6 + 5 * j))

theorem readEntries_of_bad {c : List Byte} {left j : Nat} {seen : List Byte} {t : FreqTable}
    (h : entryFreq c j = 0 ∨ entryValue c j ∈ seen) : readEntries c (left + 1) j seen t = .error (2 + 5 * j) :=
  if_pos h

theorem readEntries_of_good {c : List Byte} {left j : Nat} {seen : List Byte} {t : FreqTable}
    (h : ¬ (entryFreq c j = 0 ∨ entryValue c j ∈ seen)) :
    readEntries c (left + 1) j seen t =
      readEntries c left (j + 1) (entryValue c j :: seen) (t.put (entryValue c j) (entryFreq c j)) :=
  if_neg h

theorem drop_eq_byteAt_cons {c : List Byte} {i : Nat} (h : i < c.length) :
    c.drop i = byteAt c i :: c.drop (i + 1) := by
  rw [List.drop_eq_getElem_cons h, byteAt, List.getD_eq_getElem _ _ h]

/-- An entry that is whole decodes to its value and its frequency. -/
theorem decodeHufEntry_drop {c : List Byte} {j : Nat} (h : headerEnd (j + 1) ≤ c.length) :
    decodeHufEntry (c.drop (headerEnd j)) = .ok (.hufHdrEntry (entryValue c j) (entryFreq c j)) := by
  rw [headerEnd] at h
  rw [headerEnd, drop_eq_byteAt_cons (by omega), drop_eq_byteAt_cons (by omega), drop_eq_byteAt_cons (by omega),
    drop_eq_byteAt_cons (by omega), drop_eq_byteAt_cons (by omega)]
  simp only [decodeHufEntry, entryValue, entryFreq, Nat.add_right_comm _ (5 * j), Nat.reduceAdd]

/-- The values seen are those whose counters are no longer 0, also after one more entry is stored (log 17). -/
theorem mem_cons_iff_at_put {t : FreqTable} {seen : List Byte} (hseen : ∀ w, w ∈ seen ↔ t.at w ≠ 0) (v : Byte)
    {f : Word} (hf : f ≠ 0) (w : Byte) : w ∈ v :: seen ↔ (t.put v f).at w ≠ 0 := by
  rw [List.mem_cons, hseen]
  by_cases hw : w = v
  · rw [hw, FreqTable.at_put_same]
    exact iff_of_true (.inl rfl) hf
  · rw [FreqTable.at_put_other t f hw]
    exact or_iff_right hw

/-- A table with one counter above 0 has one distinct byte. -/
theorem symbols_put_zero (v : Byte) {f : Word} (hf : f ≠ 0) : (FreqTable.zero.put v f).symbols = [v] := by
  have hseen (w : Byte) : w ∈ [] ↔ FreqTable.zero.at w ≠ 0 := by simp
  refine List.perm_singleton.mp ((List.perm_ext_iff_of_nodup (FreqTable.symbols_nodup _) (List.nodup_singleton v)).mpr
    fun w => ?_)
  rw [FreqTable.mem_symbols_iff, mem_cons_iff_at_put hseen v hf]

/-- A table read from one entry holds the one value of that entry (R248). -/
theorem symbols_of_readEntries_one {c : List Byte} {t : FreqTable} (h : readEntries c 1 0 [] FreqTable.zero = .ok t) :
    t.symbols = [byteAt c 2] := by
  by_cases hbad : entryFreq c 0 = 0 ∨ entryValue c 0 ∈ []
  · cases (readEntries_of_bad hbad).symm.trans h
  · cases (readEntries_of_good hbad).symm.trans h
    exact symbols_put_zero _ (not_or.mp hbad).1

/-! ## The turns that read the header -/

section

variable {s : State}

theorem hufHeaderDone_of_trailing (hk : s.work.count = 1) (hn : 7 < s.latch.len.toNat) :
    hufHeaderDone s = .next (s.takeError .malformedHeader 7 0) := by
  rw [hufHeaderDone, if_pos hk, if_pos hn, State.raise_eq]

theorem hufHeaderDone_of_single {v : Byte} (hk : s.work.count = 1) (hn : s.latch.len.toNat ≤ 7)
    (hv : s.work.freq.symbols = [v]) :
    hufHeaderDone s = .next (s.complete (.ok (List.replicate (s.work.freq.at v).toNat v))) := by
  rw [hufHeaderDone, if_pos hk, if_neg (Nat.not_lt.mpr hn), hv, List.flatMap_singleton]

theorem hufHeaderDone_of_ne_one (hk : s.work.count ≠ 1) : hufHeaderDone s = .next (s.setWork s.work.placeLeaves) :=
  if_neg hk

variable (hr : s.running = true) (hi : s.inputs = []) (hp : s.work.phase = .hufEntries)
include hr hi hp

theorem step_of_hufEntry (hmore : s.work.entry < s.work.count)
    (hwhole : headerEnd (s.work.entry + 1) ≤ s.input.length) :
    step s = exec (.hufHdrEntry (entryValue s.input s.work.entry) (entryFreq s.input s.work.entry)) s := by
  have hs : s.source = some (.hufEntry (s.input.drop (headerEnd s.work.entry))) := by
    rw [State.source, hp]
    exact if_pos hmore
  exact step_of_decoded hr hi hs (decodeHufEntry_drop hwhole)

theorem step_of_hufEntries_end (hend : s.work.count ≤ s.work.entry) : step s = hufHeaderDone s := by
  have nothing : s.source = none := by
    rw [State.source, hp]
    exact if_neg (Nat.not_lt.mpr hend)
  rw [step_of_no_source hr hi nothing, State.engineWork, hp]

end

/-! ## The turns of the payload (R251 to R254) -/

theorem Reader.remaining_atBit (p : List Byte) (k : Nat) :
    Reader.remaining p (Reader.atBit k) = (bitsOf p).drop k := by
  rw [Reader.remaining, Reader.bits_atBit, List.take_of_length_le]
  rw [List.length_drop, bitsOf_length]
  exact Nat.sub_le _ _

theorem add_length_le_of_drop_eq_append {bits path rest : List Bool} {read : Nat} (h : bits.drop read = path ++ rest)
    (hle : read ≤ bits.length) : read + path.length ≤ bits.length := by
  have := congrArg List.length h
  rw [List.length_drop, List.length_append] at this
  omega

/-- A code word that the decoder finds leads to a leaf, and the bits begin with it. -/
theorem followPath_of_walkCode {nodes : List Node} {depth x : Nat} {bits path : List Bool}
    (h : walkCode nodes depth x bits = .ok path) :
    ∃ v rest, bits = path ++ rest ∧ followPath nodes depth x path = .leaf v := by
  induction bits generalizing depth x path with
  | nil => cases h
  | cons b bs ih =>
    rw [walkCode] at h
    cases hc : child nodes x b with
    | none => simp [hc] at h
    | some y =>
      cases hl : leafSym nodes y with
      | some v =>
        simp only [hc, hl, Except.ok.injEq] at h
        subst h
        exact ⟨v, bs, rfl, by simp [followPath, hc, hl]⟩
      | none =>
        simp only [hc, hl] at h
        cases hw : walkCode nodes (depth + 1) y bs with
        | error e => simp [hw, Except.map] at h
        | ok q =>
          simp only [hw, Except.map, Except.ok.injEq] at h
          subst h
          obtain ⟨v, rest, rfl, hq⟩ := ih hw
          exact ⟨v, rest, rfl, by simpa only [followPath, hc, hl] using hq⟩

/-- Bits without a code word end the walk: they run out (R252), or lead to a missing child (R254). -/
theorem walkPayload_of_walkCode_error {nodes : List Node} {root total start n first read depth x : Nat}
    {bits : List Bool} {out : List Byte} {e : DecodeError} (h : walkCode nodes depth x bits = .error e)
    (hread : read = first + depth) (hout : out.length < total) :
    (e = .endOfStream ∧ walkPayload nodes root total start n bits x read out =
      .err .malformedPayload n out.length) ∨
    (∃ d, e = .missingChild d ∧ walkPayload nodes root total start n bits x read out =
      .err .malformedPayload (start + (first + d) / 8) out.length) := by
  induction bits generalizing depth x read with
  | nil =>
    cases h
    exact .inl ⟨rfl, if_neg (Nat.not_le.mpr hout)⟩
  | cons b bs ih =>
    rw [walkCode] at h
    rw [walkPayload, if_neg (Nat.not_le.mpr hout)]
    cases hc : child nodes x b with
    | none =>
      simp only [hc, Except.error.injEq] at h
      exact .inr ⟨depth, h.symm, by rw [hread]⟩
    | some y =>
      cases hl : leafSym nodes y with
      | some v => simp [hc, hl] at h
      | none =>
        simp only [hc, hl] at h
        cases hw : walkCode nodes (depth + 1) y bs with
        | ok q => simp [hw, Except.map] at h
        | error e' =>
          simp only [hw, Except.map, Except.error.injEq] at h
          subst h
          simpa only [hl] using ih hw (read := read + 1) (by omega)

section

variable {s : State} {read : Nat}

theorem State.source_of_hufPayload (hp : s.work.phase = .hufPayload) (hmore : s.work.out.length < s.work.total)
    (hread : s.work.reader = Reader.atBit read) :
    s.source = some (.hufCode s.work.nodes (rootOf s.work.active) ((bitsOf s.payload).drop read)) := by
  rw [← Reader.remaining_atBit, ← hread, State.source, hp]
  exact if_pos hmore

/-- A missing child is reported at the byte that holds the bit (R254). -/
theorem State.decodeFailed_missingChild (hread : s.work.reader = Reader.atBit read) (depth : Nat) :
    s.decodeFailed (.missingChild depth) =
      s.takeError .malformedPayload (headerEnd s.work.count + (read + depth) / 8) s.work.out.length := by
  rw [State.decodeFailed, State.bitByte, hread, Reader.atBit, Nat.div_add_mod, State.raise_eq]

variable (hr : s.running = true) (hi : s.inputs = []) (hp : s.work.phase = .hufPayload)
include hr hi hp

theorem step_of_hufPayload_end (hend : s.work.total ≤ s.work.out.length) :
    step s = .next (s.complete (.ok s.work.out)) := by
  have nothing : s.source = none := by
    rw [State.source, hp]
    exact if_neg (Nat.not_lt.mpr hend)
  rw [step_of_no_source hr hi nothing, State.engineWork, hp]

variable (hmore : s.work.out.length < s.work.total) (hread : s.work.reader = Reader.atBit read)
include hmore hread

theorem step_of_hufCode {path rest : List Bool} {v : Byte} (hbits : (bitsOf s.payload).drop read = path ++ rest)
    (hpath : followPath s.work.nodes 0 (rootOf s.work.active) path = .leaf v)
    (hle : read ≤ (bitsOf s.payload).length) :
    step s = .next (s.setWork { s.work with
      out := s.work.out ++ [v], reader := Reader.atBit (read + path.length) }) := by
  have hcode : decodeHufCode s.work.nodes (rootOf s.work.active) ((bitsOf s.payload).drop read) =
      .ok (.hufCode path) := by
    rw [decodeHufCode, hbits, walkCode_of_followPath hpath]
    rfl
  rw [step_of_decoded hr hi (State.source_of_hufPayload hp hmore hread) hcode, execHufCode_of_leaf hpath, hread,
    Reader.skip_atBit _ hle, Nat.min_eq_left (add_length_le_of_drop_eq_append hbits hle)]

theorem step_of_hufCode_error {e : DecodeError}
    (h : walkCode s.work.nodes 0 (rootOf s.work.active) ((bitsOf s.payload).drop read) = .error e) :
    step s = .next (s.decodeFailed e) :=
  step_of_malformed hr hi (State.source_of_hufPayload hp hmore hread) (congrArg (Except.map Instr.hufCode) h)

end

/-! ## The loops -/

theorem hufMergeStep_of_decompress {s : State} (hmode : s.latch.mode = .decompress)
    (hactive : s.work.active.length ≤ 1) :
    hufMergeStep s = .next (s.setWork { s.work with
      total := s.work.freq.total, reader := Reader.start, phase := .hufPayload }) := by
  rw [hufMergeStep, if_neg (by omega), hmode]

section

variable {u : State} {r : Result} (hr : u.running = true) (hi : u.inputs = [])
include hr hi

/-- The turns over the rest of the entries: the values seen are those whose counters are no longer 0 (log 17). -/
theorem codecGives_hufEntries (left : Nat) {w : Work} {seen : List Byte} (hp : w.phase = .hufEntries)
    (hcount : w.count = w.entry + left) (hwhole : headerEnd w.count ≤ u.input.length)
    (hseen : ∀ v, v ∈ seen ↔ w.freq.at v ≠ 0)
    (hbad : ∀ pos, readEntries u.input left w.entry seen w.freq = .error pos → r = .err .malformedHeader pos 0)
    (hgood : ∀ t, readEntries u.input left w.entry seen w.freq = .ok t →
      CodecGives u { w with freq := t, entry := w.entry + left, cursor := w.cursor + 5 * left } r) :
    CodecGives u w r := by
  induction left generalizing w seen with
  | zero => exact hgood w.freq rfl
  | succ left ih =>
    have hturn := step_of_hufEntry (s := u.setWork w) hr hi hp (by rw [State.setWork_work]; omega)
      (Nat.le_trans (by simp only [headerEnd, State.setWork_work]; omega) hwhole)
    by_cases h : entryFreq u.input w.entry = 0 ∨ entryValue u.input w.entry ∈ seen
    · rw [hbad _ (readEntries_of_bad h)]
      rw [hseen] at h
      exact .of_complete (hturn.trans (execHufHdrEntry_of_bad h))
    · rw [readEntries_of_good h] at hbad hgood
      rw [hseen] at h
      refine .of_turn (hturn.trans (execHufHdrEntry_of_good h)) (ih (w := { w with
        freq := w.freq.put (entryValue u.input w.entry) (entryFreq u.input w.entry), entry := w.entry + 1,
        cursor := w.cursor + 5 }) hp (by rw [hcount]; exact (Nat.succ_add_eq_add_succ _ _).symm) hwhole
        (mem_cons_iff_at_put hseen _ (not_or.mp h).1) hbad fun t ht => ?_)
      have hentry : w.entry + (left + 1) = w.entry + 1 + left := by omega
      have hcursor : w.cursor + 5 * (left + 1) = w.cursor + 5 + 5 * left := by omega
      exact hcursor ▸ hentry ▸ hgood t ht

/-- The turn with all bytes output (R253). -/
theorem codecGives_hufPayload_end {w : Work} (hp : w.phase = .hufPayload) (hend : w.total ≤ w.out.length)
    (start n : Nat) (bits : List Bool) (x read : Nat) :
    CodecGives u w (walkPayload w.nodes (rootOf w.active) w.total start n bits x read w.out) := by
  rw [walkPayload_of_total_le hend]
  exact .of_complete (step_of_hufPayload_end (s := u.setWork w) hr hi hp hend)

/-- The turns over the rest of the payload, a code word each, make up the tree walk of R240. -/
theorem codecGives_hufPayload (left : Nat) {w : Work} {read : Nat} (hp : w.phase = .hufPayload)
    (hread : w.reader = Reader.atBit read) (hle : read ≤ (bitsOf (u.input.drop (headerEnd w.count))).length)
    (hleft : w.total ≤ w.out.length + left) :
    CodecGives u w (walkPayload w.nodes (rootOf w.active) w.total (headerEnd w.count) u.input.length
      ((bitsOf (u.input.drop (headerEnd w.count))).drop read) (rootOf w.active) read w.out) := by
  induction left generalizing w read with
  | zero => exact codecGives_hufPayload_end hr hi hp hleft _ _ _ _ _
  | succ left ih =>
    by_cases hend : w.total ≤ w.out.length
    · exact codecGives_hufPayload_end hr hi hp hend _ _ _ _ _
    have hmore := Nat.lt_of_not_le hend
    cases hw : walkCode w.nodes 0 (rootOf w.active) ((bitsOf (u.input.drop (headerEnd w.count))).drop read) with
    | ok path =>
      obtain ⟨v, rest, hbits, hpath⟩ := followPath_of_walkCode hw
      have hrest : (bitsOf (u.input.drop (headerEnd w.count))).drop (read + path.length) = rest := by
        rw [← List.drop_drop, hbits, List.drop_left]
      have hfewer : w.total ≤ (w.out ++ [v]).length + left := by
        rw [List.length_append, List.length_singleton]
        omega
      rw [hbits, walkPayload_of_followPath hpath hmore, ← hrest]
      exact .of_turn (step_of_hufCode (s := u.setWork w) hr hi hp hmore hread hbits hpath hle)
        (ih (w := { w with out := w.out ++ [v], reader := Reader.atBit (read + path.length) }) hp rfl
          (add_length_le_of_drop_eq_append hbits hle) hfewer)
    | error e =>
      have hturn := step_of_hufCode_error (s := u.setWork w) hr hi hp hmore hread hw
      obtain ⟨rfl, hgives⟩ | ⟨depth, rfl, hgives⟩ := walkPayload_of_walkCode_error (root := rootOf w.active)
        (start := headerEnd w.count) (n := u.input.length) (first := read) hw (Nat.add_zero read).symm hmore
      · rw [hgives, u.input_length]
        exact .of_complete hturn
      · rw [hgives]
        exact .of_complete (hturn.trans (congrArg _ (State.decodeFailed_missingChild hread depth)))

/-- The turns after the tree is built (R250, R251). -/
theorem codecGives_hufTreeBuilt (hmode : u.latch.mode = .decompress) {w : Work} (hp : w.phase = .hufMerge)
    (hactive : w.active.length ≤ 1) (hout : w.out = []) :
    CodecGives u w (walkPayload w.nodes (rootOf w.active) w.freq.total (headerEnd w.count) u.input.length
      (bitsOf (u.input.drop (headerEnd w.count))) (rootOf w.active) 0 []) := by
  rw [← hout]
  exact .of_turn ((step_of_hufMerge (s := u.setWork w) hr hi hp).trans (hufMergeStep_of_decompress hmode hactive))
    (codecGives_hufPayload hr hi w.freq.total (read := 0) rfl rfl (Nat.zero_le _) (Nat.le_add_left _ _))

/-- The turns after a header of two entries or more: the tree is built and the payload walked (R249). -/
theorem codecGives_hufTree (hmode : u.latch.mode = .decompress) {w : Work} (hp : w.phase = .hufEntries)
    (hend : w.count ≤ w.entry) (hk : w.count ≠ 1) (hout : w.out = []) :
    CodecGives u w (walkPayload (buildTree w.freq).1 (buildTree w.freq).2 w.freq.total (headerEnd w.count)
      u.input.length (bitsOf (u.input.drop (headerEnd w.count))) (buildTree w.freq).2 0 []) := by
  have merged : (mergeAll (leaves w.freq).length (leaves w.freq) (List.range (leaves w.freq).length)).2.length ≤ 1 :=
    mergeAll_active_length_le (by rw [List.length_range]; exact Nat.le_succ _)
  exact .of_turn ((step_of_hufEntries_end (s := u.setWork w) hr hi hp hend).trans (hufHeaderDone_of_ne_one hk))
    (codecGives_hufMerge hr hi (leaves w.freq).length rfl (codecGives_hufTreeBuilt hr hi hmode rfl merged hout))

/-- The turns after the entries are read (R247 to R251). -/
theorem codecGives_hufHeaderDone (hmode : u.latch.mode = .decompress) {w : Work} (hp : w.phase = .hufEntries)
    (hend : w.count ≤ w.entry) (hout : w.out = [])
    (hfreq : readEntries u.input w.count 0 [] FreqTable.zero = .ok w.freq) :
    CodecGives u w
      (if w.count = 1 then
        if 7 < u.input.length then .err .malformedHeader 7 0
        else .ok (List.replicate (w.freq.at (byteAt u.input 2)).toNat (byteAt u.input 2))
      else walkPayload (buildTree w.freq).1 (buildTree w.freq).2 w.freq.total (headerEnd w.count) u.input.length
        (bitsOf (u.input.drop (headerEnd w.count))) (buildTree w.freq).2 0 []) := by
  have hturn := step_of_hufEntries_end (s := u.setWork w) hr hi hp hend
  by_cases hk : w.count = 1
  · rw [if_pos hk, u.input_length]
    by_cases hn : 7 < u.latch.len.toNat
    · rw [if_pos hn]
      exact .of_complete (hturn.trans (hufHeaderDone_of_trailing hk hn))
    · rw [if_neg hn]
      rw [hk] at hfreq
      exact .of_complete (hturn.trans
        (hufHeaderDone_of_single hk (Nat.le_of_not_lt hn) (symbols_of_readEntries_one hfreq)))
  · rw [if_neg hk]
    exact codecGives_hufTree hr hi hmode hp hend hk hout

/-- The turns of HUF.D make up `huf_decompress`: the checks of the header in the order of R240, then its entries. -/
theorem codecGives_hufD (hmode : u.latch.mode = .decompress) :
    CodecGives u (Work.init .hufHeader) (hufDecompress u.input) := by
  have hlen := u.input_length
  by_cases hshort : u.input.length < 2
  · rw [hufDecompress, if_pos hshort]
    exact .of_complete (step_of_hufHeader_short (s := u.setWork _) hr hi rfl hshort)
  have hturn : step (u.setWork (Work.init .hufHeader)) =
      exec (.hufHdrCount (be16 (byteAt u.input 0) (byteAt u.input 1))) (u.setWork (Work.init .hufHeader)) :=
    step_of_hufHeader (s := u.setWork _) hr hi rfl (Nat.le_of_not_lt hshort)
  rw [hufDecompress, if_neg hshort]
  generalize be16 (byteAt u.input 0) (byteAt u.input 1) = count at hturn ⊢
  dsimp only
  split
  next hk =>
    split
    next hn => exact .of_complete (hturn.trans (execHufHdrCount_of_trailing hk (hlen ▸ hn)))
    next hn => exact .of_complete (hturn.trans (execHufHdrCount_of_empty hk (hlen ▸ Nat.le_of_not_lt hn)))
  next hk =>
  split
  next hmany => exact .of_complete (hturn.trans (execHufHdrCount_of_tooMany hmany))
  next hmany =>
  split
  next hn =>
    rw [hlen] at hn ⊢
    exact .of_complete (hturn.trans (execHufHdrCount_of_fewEntries hk (Nat.le_of_not_lt hmany) hn))
  next hn =>
    have hwhole := Nat.le_of_not_lt hn
    refine .of_turn (hturn.trans (execHufHdrCount_of_whole hk (Nat.le_of_not_lt hmany) (hlen ▸ hwhole)))
      (codecGives_hufEntries hr hi count.toNat (seen := []) rfl (Nat.zero_add _).symm hwhole (by simp)
        (fun pos hbad => ?_) fun t hgood => ?_)
    · rw [show readEntries u.input count.toNat 0 [] FreqTable.zero = .error pos from hbad]
    · rw [show readEntries u.input count.toNat 0 [] FreqTable.zero = .ok t from hgood]
      exact codecGives_hufHeaderDone hr hi hmode rfl (Nat.zero_add _).ge rfl hgood

end

/-- Settles O39: after START and the head of `execute` the decoder's turns compute `huf_decompress`. -/
theorem huffmanDecompressOperation : Obligations.HuffmanDecompressOperation := by
  intro s hidle hi hlegal hlen
  have hcodec := codecGives_hufD (State.started_running hidle .decompress 1) hi rfl
  exact operationEnds_of_codecGives hidle hi hlegal hlen (by decide) rfl hcodec

end Sys2Proof.Machine
end

section
/-! PROOFS. The match finder: keys, extension, the scan of a bucket, and the dictionary that a lookup leaves
(44_lz77_match_finder.md R280 to R288). -/

namespace Sys2Proof.Machine

/-! ## Keys (R281) -/

theorem lzKey_of_getElem? {d : List Byte} {q : Nat} {a b c : Byte} (ha : d[q]? = some a) (hb : d[q + 1]? = some b)
    (hc : d[q + 2]? = some c) : lzKey d q = some (a.toNat * 65536 + b.toNat * 256 + c.toNat) := by
  have hdrop : d.drop q = a :: b :: c :: d.drop (q + 3) := by
    simp [List.drop_eq_getElem?_toList_append (i := q), List.drop_eq_getElem?_toList_append (i := q + 1),
      List.drop_eq_getElem?_toList_append (i := q + 2), ha, hb, hc]
  rw [lzKey, hdrop]
  refine congrArg some ?_
  rw [toNat_append_eq, toNat_append_eq]
  omega

theorem lzKey_eq_none_iff (d : List Byte) (q : Nat) : lzKey d q = none ↔ d.length < q + 3 := by
  have hlen : (d.drop q).length = d.length - q := List.length_drop
  unfold lzKey
  split
  next hdrop =>
    simp only [hdrop, List.length_cons] at hlen
    exact iff_of_false (Option.some_ne_none _) (by omega)
  next hshort =>
    refine iff_of_true rfl ?_
    match hdrop : d.drop q with
    | [] | [_] | [_, _] =>
      simp only [hdrop, List.length_cons, List.length_nil] at hlen
      omega
    | a :: b :: c :: rest => exact absurd hdrop (hshort a b c rest)

theorem le_length_of_lzKey {d : List Byte} {q key : Nat} (h : lzKey d q = some key) : q + 3 ≤ d.length :=
  Nat.le_of_not_lt fun hlt => by simp [(lzKey_eq_none_iff d q).mpr hlt] at h

/-! ## Extension (R287) -/

theorem matchLength_cons_self (cap : Nat) (a : Byte) (as bs : List Byte) :
    matchLength (cap + 1) (a :: as) (a :: bs) = matchLength cap as bs + 1 := by
  rw [matchLength, if_pos rfl, Nat.add_comm]

theorem matchLength_cons_of_ne {a b : Byte} (h : a ≠ b) (cap : Nat) (as bs : List Byte) :
    matchLength cap (a :: as) (b :: bs) = 0 := by
  cases cap with
  | zero => rfl
  | succ cap => rw [matchLength, if_neg h]

theorem matchLength_le (cap : Nat) (as bs : List Byte) : matchLength cap as bs ≤ cap := by
  induction cap, as, bs using matchLength.induct with
  | case1 | case2 | case3 => exact Nat.zero_le _
  | case4 cap a as bs ih =>
    rw [matchLength_cons_self]
    exact Nat.succ_le_succ ih
  | case5 cap a as b bs h =>
    rw [matchLength_cons_of_ne h]
    exact Nat.zero_le _

/-- The bytes counted are equal. -/
theorem getElem?_of_lt_matchLength {cap k : Nat} {as bs : List Byte} (hk : k < matchLength cap as bs) :
    k < bs.length ∧ as[k]? = bs[k]? := by
  induction cap, as, bs using matchLength.induct generalizing k with
  | case1 | case2 | case3 => exact absurd hk (Nat.not_lt_zero k)
  | case4 cap a as bs ih =>
    rw [matchLength_cons_self] at hk
    cases k with
    | zero => exact ⟨Nat.zero_lt_succ _, rfl⟩
    | succ k =>
      obtain ⟨hlt, heq⟩ := ih (Nat.lt_of_succ_lt_succ hk)
      exact ⟨Nat.succ_lt_succ hlt, heq⟩
  | case5 cap a as b bs h =>
    rw [matchLength_cons_of_ne h] at hk
    exact absurd hk (Nat.not_lt_zero k)

/-- The count stops at the cap, at the end, or at two bytes that differ. -/
theorem matchLength_stops (cap : Nat) (as bs : List Byte) : matchLength cap as bs = cap ∨
    bs.length ≤ matchLength cap as bs ∨ as[matchLength cap as bs]? ≠ bs[matchLength cap as bs]? := by
  induction cap, as, bs using matchLength.induct with
  | case1 => exact .inl rfl
  | case2 cap bs =>
    cases bs with
    | nil => exact .inr (.inl (Nat.zero_le _))
    | cons b bs => exact .inr (.inr nofun)
  | case3 => exact .inr (.inl (Nat.zero_le _))
  | case4 cap a as bs ih =>
    rw [matchLength_cons_self]
    exact ih.imp (congrArg (· + 1)) (Or.imp_left Nat.succ_le_succ)
  | case5 cap a as b bs h =>
    rw [matchLength_cons_of_ne h]
    exact .inr (.inr fun heq => h (Option.some.inj heq))

/-! ## The scan of a bucket (R285, R286, R288) -/

/-- `p` is in range for a match at `i` (R286). -/
def inRange (i p : Nat) : Bool := decide (p < i ∧ i - p ≤ Config.maxOffset)

/-- What a scan at `i` makes of the position `p`: its (length, offset) (R287). -/
def candidate (d : List Byte) (i p : Nat) : Nat × Nat :=
  (matchLength Config.maxMatch (d.drop p) (d.drop i), i - p)

/-- The best so far and the next candidate: the first one stays unless the next is longer (R288). -/
def longer (m n : Nat × Nat) : Nat × Nat := if m.1 < n.1 then n else m

theorem inRange_iff (i p : Nat) : inRange i p = true ↔ p < i ∧ i - p ≤ 4095 := decide_eq_true_iff

theorem candidate_length_le (d : List Byte) (i p : Nat) : (candidate d i p).1 ≤ Config.maxMatch := matchLength_le _ _ _

theorem longer_of_lt {m n : Nat × Nat} (h : m.1 < n.1) : longer m n = n := if_pos h

theorem longer_of_le {m n : Nat × Nat} (h : n.1 ≤ m.1) : longer m n = m := if_neg (Nat.not_lt.mpr h)

theorem foldl_longer_of_le {m : Nat × Nat} {ns : List (Nat × Nat)} (h : ∀ n ∈ ns, n.1 ≤ m.1) :
    ns.foldl longer m = m := by
  induction ns with
  | nil => rfl
  | cons n ns ih =>
    rw [List.foldl_cons, longer_of_le (h n List.mem_cons_self)]
    exact ih fun n' hn' => h n' (List.mem_cons_of_mem n hn')

theorem scanBucket_cons_of_inRange {i p : Nat} (h : inRange i p = true) (d : List Byte) (ps : List Nat)
    (best : Nat × Nat) : scanBucket d i (p :: ps) best =
      if (longer best (candidate d i p)).1 = Config.maxMatch then longer best (candidate d i p)
      else scanBucket d i ps (longer best (candidate d i p)) := by
  rw [scanBucket, if_pos (of_decide_eq_true h)]
  rfl

theorem scanBucket_cons_of_not_inRange {i p : Nat} (h : ¬ inRange i p = true) (d : List Byte) (ps : List Nat)
    (best : Nat × Nat) : scanBucket d i (p :: ps) best = scanBucket d i ps best :=
  if_neg fun hp => h (decide_eq_true hp)

/-- The scan is a fold over the candidates in range: to stop at a match of greatest length leaves nothing out. -/
theorem scanBucket_eq_foldl (d : List Byte) (i : Nat) (ps : List Nat) (best : Nat × Nat) :
    scanBucket d i ps best = ((ps.filter (inRange i)).map (candidate d i)).foldl longer best := by
  induction ps generalizing best with
  | nil => rfl
  | cons p ps ih =>
    by_cases hp : inRange i p = true
    · rw [scanBucket_cons_of_inRange hp, List.filter_cons_of_pos hp, List.map_cons, List.foldl_cons, ih]
      split
      next hmax =>
        refine (foldl_longer_of_le fun n hn => ?_).symm
        obtain ⟨q, -, rfl⟩ := List.mem_map.mp hn
        exact hmax ▸ candidate_length_le d i q
      next => rfl
    · rw [scanBucket_cons_of_not_inRange hp, List.filter_cons_of_neg hp, ih]

/-- The positions that a scan skips can as well be taken out before it (R283). -/
theorem scanBucket_filter (d : List Byte) (i : Nat) {keep : Nat → Bool} (ps : List Nat) (best : Nat × Nat)
    (h : ∀ p, inRange i p = true → keep p = true) : scanBucket d i (ps.filter keep) best = scanBucket d i ps best := by
  have hsame : (ps.filter keep).filter (inRange i) = ps.filter (inRange i) := by
    rw [List.filter_filter]
    exact List.filter_congr fun p _ => by
      cases hp : inRange i p with
      | true => rw [h p hp, Bool.and_self]
      | false => rfl
  rw [scanBucket_eq_foldl, scanBucket_eq_foldl, hsame]

theorem foldl_longer_mem (m : Nat × Nat) (ns : List (Nat × Nat)) : ns.foldl longer m = m ∨ ns.foldl longer m ∈ ns := by
  induction ns generalizing m with
  | nil => exact .inl rfl
  | cons n ns ih =>
    obtain heq | hmem := ih (longer m n)
    · by_cases h : m.1 < n.1
      · exact .inr (List.mem_cons.mpr (.inl (heq.trans (longer_of_lt h))))
      · exact .inl (heq.trans (longer_of_le (Nat.le_of_not_lt h)))
    · exact .inr (List.mem_cons_of_mem n hmem)

/-- `r` is at least as long as `m`, and as near if it is no longer (R288). -/
def AsGood (r m : Nat × Nat) : Prop := m.1 ≤ r.1 ∧ (m.1 = r.1 → r.2 ≤ m.2)

theorem AsGood.refl (m : Nat × Nat) : AsGood m m := ⟨Nat.le_refl _, fun _ => Nat.le_refl _⟩

theorem AsGood.trans {r m n : Nat × Nat} (h : AsGood r m) (h' : AsGood m n) : AsGood r n :=
  ⟨h'.1.trans h.1, fun heq => (h.2 (Nat.le_antisymm h.1 (heq ▸ h'.1))).trans
    (h'.2 (Nat.le_antisymm h'.1 (heq ▸ h.1)))⟩

theorem longer_asGood {m n : Nat × Nat} (h : m.2 ≤ n.2) : AsGood (longer m n) m ∧ AsGood (longer m n) n := by
  by_cases hlt : m.1 < n.1
  · rw [longer_of_lt hlt]
    exact ⟨⟨Nat.le_of_lt hlt, fun heq => absurd heq (Nat.ne_of_lt hlt)⟩, .refl n⟩
  · rw [longer_of_le (Nat.le_of_not_lt hlt)]
    exact ⟨.refl m, Nat.le_of_not_lt hlt, fun _ => h⟩

/-- Over candidates in order of their offsets the fold ends with the best of them. -/
theorem foldl_longer_asGood {m : Nat × Nat} {ns : List (Nat × Nat)} (h : (m :: ns).Pairwise (fun a b => a.2 ≤ b.2)) :
    ∀ n ∈ m :: ns, AsGood (ns.foldl longer m) n := by
  induction ns generalizing m with
  | nil => simpa using AsGood.refl m
  | cons n ns ih =>
    rw [List.pairwise_cons, List.forall_mem_cons, List.pairwise_cons] at h
    obtain ⟨⟨hmn, hm⟩, hn, hns⟩ := h
    have hlonger : ∀ n' ∈ ns, (longer m n).2 ≤ n'.2 := by
      unfold longer
      split
      · exact hn
      · exact hm
    obtain ⟨hgood, hrest⟩ := List.forall_mem_cons.mp (ih (List.pairwise_cons.mpr ⟨hlonger, hns⟩))
    obtain ⟨hgoodm, hgoodn⟩ := longer_asGood hmn
    exact List.forall_mem_cons.mpr ⟨hgood.trans hgoodm, List.forall_mem_cons.mpr ⟨hgood.trans hgoodn, hrest⟩⟩

theorem scanBucket_mem (d : List Byte) (i : Nat) (ps : List Nat) : scanBucket d i ps (0, 0) = (0, 0) ∨
    ∃ p ∈ ps, inRange i p = true ∧ scanBucket d i ps (0, 0) = candidate d i p := by
  rw [scanBucket_eq_foldl]
  refine (foldl_longer_mem _ _).imp_right fun hmem => ?_
  obtain ⟨p, hp, heq⟩ := List.mem_map.mp hmem
  obtain ⟨hmem, hrange⟩ := List.mem_filter.mp hp
  exact ⟨p, hmem, hrange, heq.symm⟩

/-- A scan from the most recent position down finds the best candidate. -/
theorem scanBucket_asGood (d : List Byte) {i p : Nat} {ps : List Nat} (hps : ps.Pairwise (· > ·)) (hp : p ∈ ps)
    (hrange : inRange i p = true) : AsGood (scanBucket d i ps (0, 0)) (candidate d i p) := by
  have hoffsets : ((ps.filter (inRange i)).map (candidate d i)).Pairwise (fun a b => a.2 ≤ b.2) :=
    List.pairwise_map.mpr ((hps.filter _).imp fun h => Nat.sub_le_sub_left (Nat.le_of_lt h) i)
  rw [scanBucket_eq_foldl]
  exact foldl_longer_asGood (List.pairwise_cons.mpr ⟨fun _ _ => Nat.zero_le _, hoffsets⟩) _
    (List.mem_cons_of_mem _ (List.mem_map_of_mem (List.mem_filter.mpr ⟨hp, hrange⟩)))

/-! ## Pruning (R283) -/

theorem Table.find_map {β : Type} (f : β → β) (key : Nat) (m : List (Nat × β)) :
    Table.find key (m.map (fun e => (e.1, f e.2))) = (Table.find key m).map f := by
  induction m with
  | nil => rfl
  | cons e m ih =>
    simp only [List.map_cons, Table.find, ih]
    split <;> rfl

/-- An entry taken out of a canonical table leaves nothing at its key. -/
theorem Table.find_filter {β : Type} (keep : β → Bool) (key : Nat) {lo : Nat} {m : List (Nat × β)}
    (hm : Table.risingFrom lo m = true) :
    Table.find key (m.filter (fun e => keep e.2)) = (Table.find key m).filter keep := by
  induction m generalizing lo with
  | nil => rfl
  | cons e m ih =>
    obtain ⟨j, v⟩ := e
    simp only [Table.risingFrom, Bool.and_eq_true, decide_eq_true_eq] at hm
    by_cases hj : j = key
    · subst hj
      cases hv : keep v with
      | true => simp [Table.find, Option.filter, hv]
      | false => simp [Table.find, Option.filter, hv, ih hm.2, Table.find_below (Nat.lt_succ_self j) hm.2]
    · cases hv : keep v <;> simp [Table.find, hv, hj, ih hm.2]

/-- What pruning at `i` keeps of a bucket (R283). -/
def inWindow (i p : Nat) : Bool := decide (i ≤ p + Config.window)

theorem inWindow_iff (i p : Nat) : inWindow i p = true ↔ i ≤ p + 4096 := decide_eq_true_iff

theorem inWindow_of_inRange {i p : Nat} (h : inRange i p = true) : inWindow i p = true := by
  rw [inRange_iff] at h
  rw [inWindow_iff]
  omega

theorem Dict.bucket_prune {dict : Dict} (h : Table.risingFrom 0 dict = true) (i key : Nat) :
    (dict.prune i).bucket key = (dict.bucket key).filter (inWindow i) := by
  have hfind : Table.find key (dict.prune i) =
      ((Table.find key dict).map (List.filter (inWindow i))).filter (fun ps => !ps.isEmpty) :=
    (Table.find_filter (fun ps : List Nat => !ps.isEmpty) key (Table.risingFrom_map _ h)).trans
      (congrArg (Option.filter _) (Table.find_map (List.filter (inWindow i)) key dict))
  rw [Dict.bucket, Dict.bucket, hfind]
  cases Table.find key dict with
  | none => rfl
  | some ps =>
    cases hps : ps.filter (inWindow i) with
    | nil => simp [Option.filter, hps]
    | cons p rest => simp [Option.filter, hps]

theorem Dict.mem_bucket_prune {dict : Dict} (h : Table.risingFrom 0 dict = true) (i key p : Nat) :
    p ∈ (dict.prune i).bucket key ↔ p ∈ dict.bucket key ∧ i ≤ p + 4096 := by
  rw [Dict.bucket_prune h, List.mem_filter, inWindow_iff]

theorem lookupDict_of_le {d : List Byte} {i : Nat} (h : i + 3 ≤ d.length) (dict : Dict) :
    lookupDict d dict i = dict.prune i := if_neg (by omega)

theorem lookupDict_of_lt {d : List Byte} {i : Nat} (h : d.length < i + 3) (dict : Dict) :
    lookupDict d dict i = dict := if_pos (by omega)

/-! ## The match found (R285) -/

theorem findMatch_of_lt {d : List Byte} {i : Nat} (h : d.length < i + 3) (dict : Dict) : findMatch d dict i = (0, 0) :=
  if_pos (by omega)

theorem findMatch_of_key {d : List Byte} {dict : Dict} (h : Table.risingFrom 0 dict = true) {i key : Nat}
    (hkey : lzKey d i = some key) : findMatch d dict i = scanBucket d i (dict.bucket key).reverse (0, 0) := by
  have hlen := le_length_of_lzKey hkey
  rw [findMatch, if_neg (by omega), hkey]
  dsimp only
  rw [Dict.bucket_prune h, ← List.filter_reverse]
  exact scanBucket_filter d i _ _ fun p => inWindow_of_inRange

/-- What is found is nothing, or a candidate in range (R286). -/
theorem findMatch_cases (d : List Byte) {dict : Dict} (h : Table.risingFrom 0 dict = true) (i : Nat) :
    findMatch d dict i = (0, 0) ∨ ∃ key, lzKey d i = some key ∧
      ∃ p ∈ dict.bucket key, p < i ∧ i - p ≤ 4095 ∧ findMatch d dict i = candidate d i p := by
  cases hkey : lzKey d i with
  | none => exact .inl (findMatch_of_lt ((lzKey_eq_none_iff d i).mp hkey) dict)
  | some key =>
    rw [findMatch_of_key h hkey]
    refine (scanBucket_mem d i _).imp_right ?_
    rintro ⟨p, hp, hrange, heq⟩
    obtain ⟨hlt, hle⟩ := (inRange_iff i p).mp hrange
    exact ⟨key, rfl, p, List.mem_reverse.mp hp, hlt, hle, heq⟩

theorem findMatch_asGood {d : List Byte} {dict : Dict} (h : Table.risingFrom 0 dict = true) {i key p : Nat}
    (hkey : lzKey d i = some key) (hbucket : (dict.bucket key).Pairwise (· < ·)) (hp : p ∈ dict.bucket key)
    (hlt : p < i) (hle : i - p ≤ 4095) : AsGood (findMatch d dict i) (candidate d i p) := by
  rw [findMatch_of_key h hkey]
  exact scanBucket_asGood d (List.pairwise_reverse.mpr hbucket) (List.mem_reverse.mpr hp)
    ((inRange_iff i p).mpr ⟨hlt, hle⟩)

/-- Pruning at an earlier position takes out nothing that a later lookup would keep. -/
theorem findMatch_prune (d : List Byte) {dict : Dict} (h : Table.risingFrom 0 dict = true) {i j : Nat} (hji : j ≤ i) :
    findMatch d (dict.prune j) i = findMatch d dict i := by
  cases hkey : lzKey d i with
  | none =>
    have hlen := (lzKey_eq_none_iff d i).mp hkey
    rw [findMatch_of_lt hlen, findMatch_of_lt hlen]
  | some key =>
    rw [findMatch_of_key (Dict.prune_rising j h) hkey, findMatch_of_key h hkey, Dict.bucket_prune h,
      ← List.filter_reverse]
    refine scanBucket_filter d i _ _ fun p hp => ?_
    have hwindow := (inWindow_iff i p).mp (inWindow_of_inRange hp)
    exact (inWindow_iff j p).mpr (hji.trans hwindow)

/-- Settles O53: pruning at `i` keeps what is in the window, and every candidate in range is. -/
theorem pruningChangesNoMatch : Obligations.PruningChangesNoMatch := by
  intro d dict i j h hji
  refine ⟨fun hlen key p => ?_, fun key => findMatch_of_key h, findMatch_prune d h hji⟩
  rw [lookupDict_of_le (by omega), Dict.mem_bucket_prune h, Nat.not_lt]

/-- Settles O52: the key's bytes, the extension byte by byte, and the scan as a fold over candidates in order of
their offsets. -/
theorem matchFinderTakesTheBest : Obligations.MatchFinderTakesTheBest := by
  intro d dict i
  refine ⟨fun hlen => ⟨findMatch_of_lt hlen dict, (lzKey_eq_none_iff d i).mpr hlen⟩,
    fun a b c => lzKey_of_getElem?, fun p hp => ⟨matchLength_le _ _ _, fun k hk => ?_, ?_⟩,
    fun key h hbucket hkey => ⟨fun p => findMatch_asGood h hkey hbucket, ?_⟩⟩
  · obtain ⟨hlt, heq⟩ := getElem?_of_lt_matchLength hk
    rw [List.length_drop] at hlt
    rw [List.getElem?_drop, List.getElem?_drop] at heq
    exact ⟨Nat.add_lt_of_lt_sub' hlt, heq⟩
  · have hstops := matchLength_stops 10 (d.drop p) (d.drop i)
    rw [List.length_drop, List.getElem?_drop, List.getElem?_drop] at hstops
    exact hstops.imp_right (Or.imp_left Nat.sub_le_iff_le_add'.mp)
  · obtain hnone | ⟨key', hkey', hfound⟩ := findMatch_cases d h i
    · exact .inl hnone
    · cases hkey.symm.trans hkey'
      exact .inr hfound

end Sys2Proof.Machine
end

section
/-! PROOFS. One position of the LZ77 encoder: what registration adds to the dictionary, and the token that stands for
the match found or for the byte itself (44_lz77_match_finder.md R282, R284; 45_lz77_encoder.md R310 to R314). -/

namespace Sys2Proof.Machine

/-! ## Registration (R282, R314) -/

theorem Dict.bucket_put (dict : Dict) (key k : Nat) (ps : List Nat) :
    Dict.bucket (Table.put key ps dict) k = if key = k then ps else dict.bucket k := by
  unfold Dict.bucket
  split
  next heq => rw [heq, Table.find_put_self, Option.getD_some]
  next hne => rw [Table.find_put_other ps dict (Ne.symm hne)]

/-- A registered position stands last in the bucket of its key (R282). -/
theorem Dict.bucket_register (d : List Byte) (dict : Dict) (q key : Nat) :
    (Dict.register d dict q).bucket key = dict.bucket key ++ [q].filter (fun p => lzKey d p = some key) := by
  rw [Dict.register]
  cases hkey : lzKey d q with
  | none => simp [hkey]
  | some k =>
    dsimp only
    rw [Dict.bucket_put]
    split
    next heq => simp [hkey, heq]
    next hne => simp [hkey, hne]

theorem Dict.registerRange_succ (d : List Byte) (dict : Dict) (q len : Nat) :
    dict.registerRange d q (len + 1) = Dict.register d (dict.registerRange d q len) (q + len) := by
  simp only [Dict.registerRange, List.range_succ, List.foldl_append, List.foldl_cons, List.foldl_nil]

/-- Registered positions stand last in the buckets of their keys, in order (R284). -/
theorem Dict.bucket_registerRange (d : List Byte) (dict : Dict) (q len key : Nat) :
    (dict.registerRange d q len).bucket key =
      dict.bucket key ++ (List.range' q len).filter (fun p => lzKey d p = some key) := by
  induction len with
  | zero => exact (List.append_nil _).symm
  | succ len ih =>
    rw [Dict.registerRange_succ, Dict.bucket_register, ih, List.range'_1_concat, List.filter_append, List.append_assoc]

theorem Dict.mem_bucket_registerRange (d : List Byte) (dict : Dict) (q len key p : Nat) :
    p ∈ (dict.registerRange d q len).bucket key ↔
      p ∈ dict.bucket key ∨ (q ≤ p ∧ p < q + len ∧ lzKey d p = some key) := by
  rw [Dict.bucket_registerRange, List.mem_append, List.mem_filter, List.mem_range'_1, decide_eq_true_iff, and_assoc]

/-- Positions registered after every position of a bucket keep it in rising order (R284). -/
theorem Dict.bucket_registerRange_pairwise (d : List Byte) {dict : Dict} {q key : Nat} (len : Nat)
    (hbucket : (dict.bucket key).Pairwise (· < ·)) (hbelow : ∀ p ∈ dict.bucket key, p < q) :
    ((dict.registerRange d q len).bucket key).Pairwise (· < ·) := by
  rw [Dict.bucket_registerRange, List.pairwise_append]
  refine ⟨hbucket, List.Pairwise.filter _ List.pairwise_lt_range', fun p hp p' hp' => ?_⟩
  exact Nat.lt_of_lt_of_le (hbelow p hp) (List.mem_range'_1.mp (List.mem_of_mem_filter hp')).1

/-! ## The dictionary after a lookup (R283) -/

theorem mem_bucket_lookupDict (d : List Byte) {dict : Dict} (h : Table.risingFrom 0 dict = true) (i key p : Nat) :
    p ∈ (lookupDict d dict i).bucket key ↔ p ∈ dict.bucket key ∧ (i + 3 ≤ d.length → i ≤ p + 4096) := by
  by_cases hlen : i + 3 ≤ d.length
  · simp only [lookupDict_of_le hlen, Dict.mem_bucket_prune h, hlen, true_imp_iff]
  · simp only [lookupDict_of_lt (Nat.lt_of_not_le hlen), hlen, false_imp_iff, and_true]

theorem lookupDict_bucket_pairwise (d : List Byte) {dict : Dict} (h : Table.risingFrom 0 dict = true) (i : Nat)
    {key : Nat} (hbucket : (dict.bucket key).Pairwise (· < ·)) :
    ((lookupDict d dict i).bucket key).Pairwise (· < ·) := by
  unfold lookupDict
  split
  · exact hbucket
  · rw [Dict.bucket_prune h]
    exact hbucket.filter _

/-! ## Tokens (R311 to R313) -/

theorem usableMatch_iff (m : Nat × Nat) :
    usableMatch m = true ↔ 3 ≤ m.1 ∧ ¬ (m.1 = 3 ∧ 128 ≤ m.2 ∧ m.2 ≤ 255) := by
  simp only [usableMatch, Bool.and_eq_true, Bool.not_eq_true', Bool.and_eq_false_iff, decide_eq_true_eq,
    decide_eq_false_iff_not]
  change 3 ≤ m.1 ∧ _ ↔ _
  omega

/-- The bit fields of R122 put side by side. -/
theorem matchToken_fields {l h : Nat} (hl : l < 8) (hh : h < 16) : 0x80 ||| l <<< 4 ||| h = 0x80 + l * 16 + h := by
  have hlen : l <<< 4 < 2 ^ 7 := by
    rw [Nat.shiftLeft_eq]
    omega
  have htop : 0x80 + l <<< 4 = 0x80 ||| l <<< 4 := Nat.shiftLeft_add_eq_or_of_lt hlen 1
  have hhigh : 0x80 + l <<< 4 = (8 + l) <<< 4 := by
    rw [Nat.shiftLeft_eq, Nat.shiftLeft_eq]
    omega
  rw [← htop, hhigh, ← Nat.shiftLeft_add_eq_or_of_lt hh, Nat.shiftLeft_eq]
  omega

/-- The two bytes of a match token (R122, R311). -/
theorem matchToken_eq {len off : Nat} (h3 : 3 ≤ len) (h10 : len ≤ 10) (hoff : off ≤ 4095) :
    matchToken len off = [matchByte (BitVec.ofNat 3 (len - 3)) (BitVec.ofNat 4 (off / 256)), BitVec.ofNat 8 off] := by
  have hhigh : BitVec.ofNat 8 (0x80 ||| (len - 3) <<< 4 ||| off >>> 8) =
      matchByte (BitVec.ofNat 3 (len - 3)) (BitVec.ofNat 4 (off / 256)) := by
    apply BitVec.eq_of_toNat_eq
    rw [matchByte_toNat, Nat.shiftRight_eq_div_pow, matchToken_fields (by omega) (by omega)]
    simp only [BitVec.toNat_ofNat]
    omega
  have hlow : BitVec.ofNat 8 (off &&& 0xFF) = BitVec.ofNat 8 off := by
    apply BitVec.eq_of_toNat_eq
    rw [show off &&& 0xFF = off % 2 ^ 8 from Nat.and_two_pow_sub_one_eq_mod off 8]
    simp
  rw [matchToken, Config.minMatch, hhigh, hlow]

/-- `bs` is a whole token: whatever follows, the decoder reads `j` and these bytes. -/
def IsToken (bs : List Byte) (j : Instr) : Prop :=
  (∀ rest, decodeLz (bs ++ rest) = .ok j) ∧ j.byteLength = bs.length

/-- A match token decodes to its length and offset; at a first byte equal to the escape it is the short form, which
reaches offsets below 128 alone, and so R312 demotes the others. -/
theorem matchToken_isToken {m : Nat × Nat} (husable : usableMatch m = true) (h10 : m.1 ≤ 10) (hoff : m.2 ≤ 4095) :
    ∃ j, IsToken (matchToken m.1 m.2) j ∧ ((∃ o, j = .lzMatch3s o ∧ m.1 = 3 ∧ o.toNat = m.2) ∨
      (∃ l h o, j = .lzMatch l h o ∧ matchLen l = m.1 ∧ matchOff h o = m.2)) := by
  obtain ⟨h3, hdemoted⟩ := (usableMatch_iff m).mp husable
  have hlow : (BitVec.ofNat 8 m.2).toNat = m.2 % 256 := BitVec.toNat_ofNat _ _
  have hlen : (BitVec.ofNat 3 (m.1 - 3)).toNat = m.1 - 3 := by
    rw [BitVec.toNat_ofNat]
    omega
  have hhigh : (BitVec.ofNat 4 (m.2 / 256)).toNat = m.2 / 256 := by
    rw [BitVec.toNat_ofNat]
    omega
  rw [matchToken_eq h3 h10 hoff]
  by_cases hescape : matchByte (BitVec.ofNat 3 (m.1 - 3)) (BitVec.ofNat 4 (m.2 / 256)) = Config.escape
  · have hfields : m.1 - 3 = 0 ∧ m.2 / 256 = 0 := by
      rw [matchByte_eq_escape_iff, ← BitVec.toNat_inj, ← BitVec.toNat_inj, hlen, hhigh] at hescape
      exact hescape
    obtain ⟨o, ho, hnat⟩ := exists_byteOf_of_lt (b := BitVec.ofNat 8 m.2) (by omega)
    rw [hescape, ho]
    exact ⟨.lzMatch3s o, ⟨decodeLz_match3s o, rfl⟩, .inl ⟨o, rfl, by omega, by omega⟩⟩
  · refine ⟨_, ⟨decodeLz_match hescape _, rfl⟩, .inr ⟨_, _, _, rfl, ?_, ?_⟩⟩
    · rw [matchLen, hlen, Config.minMatch]
      omega
    · rw [matchOff_eq, hhigh, hlow]
      omega

/-- A literal token decodes to its byte (R313). -/
theorem lzLiteral_isToken (v : Byte) : ∃ j, IsToken (lzLiteral v) j ∧
    (v.toNat < 0x80 → ∃ x, j = .lzLit x ∧ literalByte x = v) ∧
    (0x80 ≤ v.toNat → ∃ x, j = .lzEsc x ∧ escapedByte x = v) := by
  obtain hlt | hle := Nat.lt_or_ge v.toNat 0x80
  · obtain ⟨x, rfl, -⟩ := exists_byteOf_of_lt hlt
    have hliteral : lzLiteral (byteOf false x) = [byteOf false x] := by rw [lzLiteral, byteOf_msb]; rfl
    rw [hliteral]
    exact ⟨.lzLit x, ⟨decodeLz_lit x, rfl⟩, fun _ => ⟨x, rfl, rfl⟩, fun h => absurd hlt (Nat.not_lt.mpr h)⟩
  · obtain ⟨x, rfl, -⟩ := exists_byteOf_of_le hle
    have hliteral : lzLiteral (byteOf true x) = [Config.escape, byteOf true x] := by rw [lzLiteral, byteOf_msb]; rfl
    rw [hliteral]
    exact ⟨.lzEsc x, ⟨decodeLz_esc x, rfl⟩, fun h => absurd h (Nat.not_lt.mpr hle), fun _ => ⟨x, rfl, rfl⟩⟩

/-! ## One position (R310) -/

theorem lzToken_of_usable {d : List Byte} {dict : Dict} {i : Nat} (h : usableMatch (findMatch d dict i) = true)
    (v : Byte) : lzToken d dict i v = (matchToken (findMatch d dict i).1 (findMatch d dict i).2,
      (findMatch d dict i).1, (lookupDict d dict i).registerRange d i (findMatch d dict i).1) := if_pos h

theorem lzToken_of_not_usable {d : List Byte} {dict : Dict} {i : Nat} (h : ¬ usableMatch (findMatch d dict i) = true)
    (v : Byte) : lzToken d dict i v = (lzLiteral v, 1, (lookupDict d dict i).registerRange d i 1) := if_neg h

/-- The bytes consumed are registered, be they a match or a literal (R314). -/
theorem lzToken_dict (d : List Byte) (dict : Dict) (i : Nat) (v : Byte) :
    (lzToken d dict i v).2.2 = (lookupDict d dict i).registerRange d i (lzToken d dict i v).2.1 := by
  by_cases h : usableMatch (findMatch d dict i) = true
  · rw [lzToken_of_usable h]
  · rw [lzToken_of_not_usable h]

/-- The fields of a match token hold every match that is found. -/
theorem findMatch_le (d : List Byte) {dict : Dict} (h : Table.risingFrom 0 dict = true) (i : Nat) :
    (findMatch d dict i).1 ≤ 10 ∧ (findMatch d dict i).2 ≤ 4095 := by
  obtain heq | ⟨key, -, p, -, -, hoff, heq⟩ := findMatch_cases d h i
  · rw [heq]
    exact ⟨Nat.zero_le _, Nat.zero_le _⟩
  · rw [heq]
    exact ⟨candidate_length_le d i p, hoff⟩

theorem mem_bucket_lzToken (d : List Byte) {dict : Dict} (h : Table.risingFrom 0 dict = true) (i : Nat) (v : Byte)
    (key p : Nat) : p ∈ (lzToken d dict i v).2.2.bucket key ↔
      (p ∈ dict.bucket key ∧ (i + 3 ≤ d.length → i ≤ p + 4096)) ∨
        (i ≤ p ∧ p < i + (lzToken d dict i v).2.1 ∧ lzKey d p = some key) := by
  rw [lzToken_dict, Dict.mem_bucket_registerRange, mem_bucket_lookupDict d h]

theorem lzToken_dictOf {d : List Byte} {dict : Dict} {i : Nat} (h : DictOf d i dict) (v : Byte) :
    DictOf d (i + (lzToken d dict i v).2.1) (lzToken d dict i v).2.2 := by
  obtain ⟨hrising, hdict⟩ := h
  refine ⟨lzToken_rising d i v hrising, fun key p hp => ?_⟩
  obtain ⟨hold, -⟩ | ⟨-, hlt, hkey⟩ := (mem_bucket_lzToken d hrising i v key p).mp hp
  · obtain ⟨hlt, hkey⟩ := hdict key p hold
    exact ⟨Nat.lt_add_right _ hlt, hkey⟩
  · exact ⟨hlt, hkey⟩

theorem lzToken_bucket_pairwise {d : List Byte} {dict : Dict} {i key : Nat} (h : DictOf d i dict) (v : Byte)
    (hbucket : (dict.bucket key).Pairwise (· < ·)) : ((lzToken d dict i v).2.2.bucket key).Pairwise (· < ·) := by
  obtain ⟨hrising, hdict⟩ := h
  rw [lzToken_dict]
  exact Dict.bucket_registerRange_pairwise d _ (lookupDict_bucket_pairwise d hrising i hbucket)
    fun p hp => (hdict key p ((mem_bucket_lookupDict d hrising i key p).mp hp).1).1

/-- Settles O51: registration appends the consumed positions to what the lookup left, and the token is a whole one of
the kind that the usability of the match decides. -/
theorem lzEncoderTokens : Obligations.LzEncoderTokens := by
  intro d dict i v h _
  have ⟨hrising, _⟩ := h
  refine ⟨lzToken_dictOf h v, mem_bucket_lzToken d hrising i v,
    fun hbucket key => lzToken_bucket_pairwise h v (hbucket key), fun rest => ?_⟩
  rw [← usableMatch_iff]
  by_cases husable : usableMatch (findMatch d dict i) = true
  · obtain ⟨hlen, hoff⟩ := findMatch_le d hrising i
    obtain ⟨j, ⟨hdecode, hbytes⟩, hmatch⟩ := matchToken_isToken husable hlen hoff
    rw [lzToken_of_usable husable]
    exact ⟨j, hdecode rest, hbytes, fun _ => ⟨rfl, hmatch⟩, fun hnot => absurd husable hnot⟩
  · obtain ⟨j, ⟨hdecode, hbytes⟩, hliteral⟩ := lzLiteral_isToken v
    rw [lzToken_of_not_usable husable]
    exact ⟨j, hdecode rest, hbytes, fun hyes => absurd hyes husable, fun _ => ⟨rfl, hliteral⟩⟩

end Sys2Proof.Machine
end

section
/-! PROOFS. The loop of `lz_compress`: what a round consumes and emits, and the length of the output
(45_lz77_encoder.md R310, R311, R313, R316). -/

namespace Sys2Proof.Machine

/-! ## The loop (R310) -/

section

variable {d : List Byte} {fuel i : Nat} {dict : Dict} {out : List Byte}

theorem lzCompressFrom_end (h : d[i]? = none) : lzCompressFrom d fuel i dict out = out := by
  cases fuel with
  | zero => rfl
  | succ fuel => rw [lzCompressFrom, h]

theorem lzCompressFrom_token {v : Byte} (h : d[i]? = some v) :
    lzCompressFrom d (fuel + 1) i dict out =
      lzCompressFrom d fuel (i + (lzToken d dict i v).2.1) (lzToken d dict i v).2.2
        (out ++ (lzToken d dict i v).1) := by
  rw [lzCompressFrom, h]

end

/-- What a round emits does not depend on what was emitted before it. -/
theorem lzCompressFrom_append (d : List Byte) (fuel i : Nat) (dict : Dict) (out : List Byte) :
    lzCompressFrom d fuel i dict out = out ++ lzCompressFrom d fuel i dict [] := by
  induction fuel generalizing i dict out with
  | zero => exact out.append_nil.symm
  | succ fuel ih =>
    cases h : d[i]? with
    | none => rw [lzCompressFrom_end h, lzCompressFrom_end h, List.append_nil]
    | some v =>
      rw [lzCompressFrom_token h, lzCompressFrom_token h, ih _ _ (out ++ _), ih _ _ ([] ++ _), List.nil_append,
        List.append_assoc]

/-- Every round consumes a byte: a match that is used has the least length. -/
theorem lzToken_consumes (d : List Byte) (dict : Dict) (i : Nat) (v : Byte) : 1 ≤ (lzToken d dict i v).2.1 := by
  by_cases h : usableMatch (findMatch d dict i) = true
  · rw [lzToken_of_usable h]
    exact Nat.le_trans (by decide) ((usableMatch_iff _).mp h).1
  · rw [lzToken_of_not_usable h]

/-! ## Literals (R313) -/

theorem lzLiteral_of_lt {v : Byte} (h : v.toNat < 0x80) : lzLiteral v = [v] := by
  obtain ⟨low, rfl, -⟩ := exists_byteOf_of_lt h
  rw [lzLiteral, byteOf_msb, if_neg Bool.false_ne_true]

theorem lzLiteral_of_le {v : Byte} (h : 0x80 ≤ v.toNat) : lzLiteral v = [Config.escape, v] := by
  obtain ⟨low, rfl, -⟩ := exists_byteOf_of_le h
  rw [lzLiteral, byteOf_msb, if_pos rfl]

theorem lzLiteral_length (v : Byte) : 1 ≤ (lzLiteral v).length ∧ (lzLiteral v).length ≤ 2 := by
  obtain h | h := Nat.lt_or_ge v.toNat 0x80
  · rw [lzLiteral_of_lt h]
    exact ⟨Nat.le_refl 1, Nat.le_succ 1⟩
  · rw [lzLiteral_of_le h]
    exact ⟨Nat.le_succ 1, Nat.le_refl 2⟩

/-! ## Length of the output (R316) -/

theorem lzToken_length (d : List Byte) (dict : Dict) (i : Nat) (v : Byte) :
    1 ≤ (lzToken d dict i v).1.length ∧ (lzToken d dict i v).1.length ≤ 2 := by
  by_cases h : usableMatch (findMatch d dict i) = true
  · rw [lzToken_of_usable h]
    exact ⟨Nat.le_succ 1, Nat.le_refl 2⟩
  · rw [lzToken_of_not_usable h]
    exact lzLiteral_length v

theorem lzCompressFrom_length_le (d : List Byte) (fuel i : Nat) (dict : Dict) (out : List Byte) :
    (lzCompressFrom d fuel i dict out).length ≤ out.length + 2 * fuel := by
  induction fuel generalizing i dict out with
  | zero => exact Nat.le_refl _
  | succ fuel ih =>
    cases h : d[i]? with
    | none =>
      rw [lzCompressFrom_end h]
      exact Nat.le_add_right _ _
    | some v =>
      have hrest := ih (i + (lzToken d dict i v).2.1) (lzToken d dict i v).2.2 (out ++ (lzToken d dict i v).1)
      have htoken := (lzToken_length d dict i v).2
      rw [List.length_append] at hrest
      rw [lzCompressFrom_token h]
      omega

/-- Positions of one key have the same three bytes (R281). -/
theorem take_three_eq_of_lzKey {d : List Byte} {p q key : Nat} (hp : lzKey d p = some key) (hq : lzKey d q = some key) :
    (d.drop p).take 3 = (d.drop q).take 3 := by
  unfold lzKey at hp hq
  split at hp
  next a b c _ hdp =>
    split at hq
    next a' b' c' _ hdq =>
      have hkey := Option.some.inj (hp.trans hq.symm)
      simp only [toNat_append_eq] at hkey
      have ha : a = a' := BitVec.eq_of_toNat_eq (by omega)
      have hb : b = b' := BitVec.eq_of_toNat_eq (by omega)
      have hc : c = c' := BitVec.eq_of_toNat_eq (by omega)
      rw [hdp, hdq, ha, hb, hc]
      rfl
    next => cases hq
  next => cases hp

/-- A position whose three bytes stand nowhere before it has no match. -/
theorem findMatch_of_no_repeat {d : List Byte} {dict : Dict} {i : Nat} (h : DictOf d i dict)
    (hnew : ∀ p < i, i + 3 ≤ d.length → (d.drop p).take 3 ≠ (d.drop i).take 3) : findMatch d dict i = (0, 0) := by
  obtain ⟨hrising, hdict⟩ := h
  obtain hnone | ⟨key, hkey, p, hp, hlt, -, -⟩ := findMatch_cases d hrising i
  · exact hnone
  · exact absurd (take_three_eq_of_lzKey (hdict key p hp).2 hkey) (hnew p hlt (le_length_of_lzKey hkey))

/-- Without a match and with bytes of 0x80 and above alone, every round emits two bytes for one. -/
theorem lzCompressFrom_length_of_no_repeat {d : List Byte} (hhigh : ∀ b ∈ d, 0x80 ≤ b.toNat)
    (hnew : ∀ i j, i < j → j + 3 ≤ d.length → (d.drop i).take 3 ≠ (d.drop j).take 3) {fuel i : Nat} {dict : Dict}
    (hdict : DictOf d i dict) (hfuel : i + fuel = d.length) (out : List Byte) :
    (lzCompressFrom d fuel i dict out).length = out.length + 2 * fuel := by
  induction fuel generalizing i dict out with
  | zero => rfl
  | succ fuel ih =>
    have hi : i < d.length := by omega
    have hliteral : ¬ usableMatch (findMatch d dict i) = true := by
      rw [findMatch_of_no_repeat hdict fun p hp => hnew p i hp]
      decide
    have hnext : DictOf d (i + 1) ((lookupDict d dict i).registerRange d i 1) := by
      simpa only [lzToken_of_not_usable hliteral] using lzToken_dictOf hdict d[i]
    rw [lzCompressFrom_token (List.getElem?_eq_getElem hi), lzToken_of_not_usable hliteral, ih hnext (by omega),
      lzLiteral_of_le (hhigh _ (List.getElem_mem hi)), List.length_append, List.length_cons, List.length_singleton]
    omega

theorem DictOf.nil (d : List Byte) : DictOf d 0 [] := ⟨rfl, fun _ _ => nofun⟩

/-- Settles O49: a round emits at most two bytes, and consumes one when it emits two for a literal. -/
theorem lzOutputBound : Obligations.LzOutputBound := by
  intro d
  refine ⟨?_, fun hhigh hnew => ?_⟩
  · exact (lzCompressFrom_length_le d d.length 0 [] []).trans_eq (Nat.zero_add _)
  · exact (lzCompressFrom_length_of_no_repeat hhigh hnew (DictOf.nil d) (Nat.zero_add _) []).trans (Nat.zero_add _)

end Sys2Proof.Machine
end

section
/-! PROOFS. The LZ77 round trip: a match is a repeat of bytes already output, and the decoder undoes the encoder's
tokens one by one (44_lz77_match_finder.md R287; 45_lz77_encoder.md R311, R313, R317; 46_lz77_decoder.md R330 to R336). -/

namespace Sys2Proof.Machine

/-! ## Matches are repeats (R286, R287) -/

/-- The `len` bytes of `d` at `i` are those `off` places before them. -/
structure RepeatAt (d : List Byte) (i len off : Nat) : Prop where
  pos : 1 ≤ off
  before : off ≤ i
  inside : i + len ≤ d.length
  same : ∀ k < len, d[i - off + k]? = d[i + k]?

theorem candidate_repeatAt {d : List Byte} {i p : Nat} (h : p < i) (hi : i ≤ d.length) :
    RepeatAt d i (candidate d i p).1 (candidate d i p).2 := by
  have hequal (k : Nat) (hk : k < (candidate d i p).1) : i + k < d.length ∧ d[p + k]? = d[i + k]? := by
    have hbytes := getElem?_of_lt_matchLength hk
    rw [List.length_drop, List.getElem?_drop, List.getElem?_drop] at hbytes
    exact ⟨Nat.add_lt_of_lt_sub' hbytes.1, hbytes.2⟩
  refine ⟨Nat.sub_pos_of_lt h, Nat.sub_le i p, ?_, fun k hk => ?_⟩
  · cases hlen : (candidate d i p).1 with
    | zero => exact hi
    | succ k => exact (hequal k (hlen ▸ Nat.lt_succ_self k)).1
  · rw [candidate, Nat.sub_sub_self (Nat.le_of_lt h)]
    exact (hequal k hk).2

theorem findMatch_repeatAt {d : List Byte} {dict : Dict} (h : Table.risingFrom 0 dict = true) {i : Nat}
    (husable : usableMatch (findMatch d dict i) = true) :
    RepeatAt d i (findMatch d dict i).1 (findMatch d dict i).2 := by
  obtain hnone | ⟨key, hkey, p, -, hlt, -, hfound⟩ := findMatch_cases d h i
  · rw [hnone] at husable
    exact absurd husable (by decide)
  · rw [hfound]
    exact candidate_repeatAt hlt ((Nat.le_add_right i 3).trans (le_length_of_lzKey hkey))

/-- Copying back appends the repeated bytes, be they old or themselves copied (R336). -/
theorem RepeatAt.copyBack_take {d : List Byte} {i len off : Nat} (h : RepeatAt d i len off) :
    copyBack off len (d.take i) = d.take (i + len) := by
  induction len generalizing i with
  | zero => rfl
  | succ len ih =>
    obtain ⟨hpos, hbefore, hinside, hsame⟩ := h
    have hlen : (d.take i).length = i := List.length_take_of_le (by omega)
    have hfirst : d[i - off]? = d[i]? := hsame 0 (Nat.succ_pos len)
    have hbyte : (d.take i).getD (i - off) 0 = d[i] := by
      rw [List.getD_eq_getElem?_getD, List.getElem?_take_of_lt (by omega), hfirst, List.getElem?_eq_getElem (by omega),
        Option.getD_some]
    have hnext : RepeatAt d (i + 1) len off := by
      refine ⟨hpos, by omega, by omega, fun k hk => ?_⟩
      have := hsame (k + 1) (by omega)
      rwa [show i + 1 - off + k = i - off + (k + 1) by omega, Nat.add_right_comm]
    rw [copyBack, hlen, hbyte, List.take_concat_get', ih hnext, Nat.add_right_comm, Nat.add_assoc]

/-! ## The loop of `lz_decompress` (R330 to R336) -/

section

variable {d rest : List Byte} {i fuel : Nat} {out : List Byte}

theorem lzDecompressFrom_end (h : d.drop i = []) : lzDecompressFrom d fuel i out = .ok out := by
  cases fuel <;> simp [lzDecompressFrom, h]

theorem lzDecompressFrom_plain {b : Byte} (h : d.drop i = b :: rest) (hb : b.toNat < 128) :
    lzDecompressFrom d (fuel + 1) i out = lzDecompressFrom d fuel (i + 1) (out ++ [b]) := by
  simp [lzDecompressFrom, h, hb]

theorem lzDecompressFrom_escaped {b : Byte} (h : d.drop i = Config.escape :: b :: rest) (hb : 128 ≤ b.toNat) :
    lzDecompressFrom d (fuel + 1) i out = lzDecompressFrom d fuel (i + 2) (out ++ [b]) := by
  simp [lzDecompressFrom, h, hb, Config.escape]

theorem lzDecompressFrom_match {b1 b2 : Byte} {len off : Nat} (h : d.drop i = b1 :: b2 :: rest)
    (hb1 : 128 ≤ b1.toNat) (hnot : ¬ (b1.toNat = 128 ∧ 128 ≤ b2.toNat)) (hlen : b1.toNat / 16 % 8 + 3 = len)
    (hoff : b1.toNat % 16 * 256 + b2.toNat = off) (hpos : 1 ≤ off) (hback : off ≤ out.length) :
    lzDecompressFrom d (fuel + 1) i out = lzDecompressFrom d fuel (i + 2) (copyBack off len out) := by
  have hok : ¬ (off = 0 ∨ out.length < off) := by omega
  simp [lzDecompressFrom, h, Nat.not_lt.mpr hb1, hnot, hlen, hoff, hok]

/-! ## The tokens of the encoder, undone -/

theorem lzDecompressFrom_lzLiteral {v : Byte} (h : d.drop i = lzLiteral v ++ rest) :
    lzDecompressFrom d (fuel + 1) i out = lzDecompressFrom d fuel (i + (lzLiteral v).length) (out ++ [v]) := by
  obtain hv | hv := Nat.lt_or_ge v.toNat 0x80
  · rw [lzLiteral_of_lt hv] at h ⊢
    exact lzDecompressFrom_plain h hv
  · rw [lzLiteral_of_le hv] at h ⊢
    exact lzDecompressFrom_escaped h hv

/-- A usable match is never read as an escaped literal: R312 demotes the matches whose token would be. -/
theorem lzDecompressFrom_matchToken {m : Nat × Nat} (husable : usableMatch m = true) (h10 : m.1 ≤ 10)
    (hoff : m.2 ≤ 4095) (hpos : 1 ≤ m.2) (hback : m.2 ≤ out.length) (h : d.drop i = matchToken m.1 m.2 ++ rest) :
    lzDecompressFrom d (fuel + 1) i out = lzDecompressFrom d fuel (i + 2) (copyBack m.2 m.1 out) := by
  obtain ⟨h3, hdemoted⟩ := (usableMatch_iff m).mp husable
  rw [matchToken_eq h3 h10 hoff] at h
  have hb1 : (matchByte (BitVec.ofNat 3 (m.1 - 3)) (BitVec.ofNat 4 (m.2 / 256))).toNat =
      128 + (m.1 - 3) * 16 + m.2 / 256 := by
    rw [matchByte_toNat, BitVec.toNat_ofNat, BitVec.toNat_ofNat]
    omega
  have hb2 : (BitVec.ofNat 8 m.2).toNat = m.2 % 256 := BitVec.toNat_ofNat _ _
  refine lzDecompressFrom_match h ?_ ?_ ?_ ?_ hpos hback <;> omega

end

/-- The decoder, where a token of the encoder begins and with the input up to its position output, outputs the bytes
that the token stands for. -/
theorem lzDecompressFrom_lzToken {d container rest : List Byte} {dict : Dict} {i j fuel : Nat} {v : Byte}
    (hrising : Table.risingFrom 0 dict = true) (hv : d[i]? = some v)
    (h : container.drop j = (lzToken d dict i v).1 ++ rest) :
    lzDecompressFrom container (fuel + 1) j (d.take i) =
      lzDecompressFrom container fuel (j + (lzToken d dict i v).1.length) (d.take (i + (lzToken d dict i v).2.1)) := by
  obtain ⟨hi, rfl⟩ := List.getElem?_eq_some_iff.mp hv
  by_cases husable : usableMatch (findMatch d dict i) = true
  · obtain ⟨hlen, hoff⟩ := findMatch_le d hrising i
    have hrepeat := findMatch_repeatAt hrising husable
    have hback : (findMatch d dict i).2 ≤ (d.take i).length := by
      rw [List.length_take_of_le (Nat.le_of_lt hi)]
      exact hrepeat.before
    rw [lzToken_of_usable husable] at h ⊢
    rw [lzDecompressFrom_matchToken husable hlen hoff hrepeat.pos hback h, hrepeat.copyBack_take]
    rfl
  · rw [lzToken_of_not_usable husable] at h ⊢
    rw [lzDecompressFrom_lzLiteral h, List.take_concat_get' d i hi]

/-- The decoder, at the place in a container where the tokens from position `i` on begin, outputs the rest of `d`. -/
theorem lzDecompressFrom_lzCompressFrom {d container : List Byte} {dict : Dict} {i j fuel fuel' : Nat}
    (hrising : Table.risingFrom 0 dict = true) (h : container.drop j = lzCompressFrom d fuel i dict [])
    (hfuel : d.length ≤ i + fuel) (hfuel' : container.length ≤ j + fuel') :
    lzDecompressFrom container fuel' j (d.take i) = .ok d := by
  induction fuel generalizing i j dict fuel' with
  | zero => rw [lzDecompressFrom_end h, List.take_of_length_le (by omega)]
  | succ fuel ih =>
    cases hv : d[i]? with
    | none =>
      rw [lzCompressFrom_end hv] at h
      rw [lzDecompressFrom_end h, List.take_of_length_le (List.getElem?_eq_none_iff.mp hv)]
    | some v =>
      have hconsumes := lzToken_consumes d dict i v
      have hemits := (lzToken_length d dict i v).1
      rw [lzCompressFrom_token hv, lzCompressFrom_append, List.nil_append] at h
      have hlength := congrArg List.length h
      rw [List.length_drop, List.length_append] at hlength
      obtain ⟨fuel', rfl⟩ := Nat.exists_eq_add_one.mpr (show 0 < fuel' by omega)
      rw [lzDecompressFrom_lzToken hrising hv h]
      refine ih (lzToken_rising d i v hrising) ?_ (by omega) (by omega)
      rw [← List.drop_drop, h, List.drop_left]

/-- Settles O46: the container is the sequence of the encoder's tokens, and the decoder undoes them one by one. -/
theorem lzRoundTrip : Obligations.LzRoundTrip := fun d =>
  lzDecompressFrom_lzCompressFrom (d := d) (i := 0) (dict := []) rfl rfl (Nat.zero_add _).ge (Nat.zero_add _).ge

end Sys2Proof.Machine
end

section
/-! PROOFS. The LZ77 encoder in the engine: one turn a token (45_lz77_encoder.md R310). -/

namespace Sys2Proof.Machine

/-! ## A turn -/

section

variable {s : State} (hr : s.running = true) (hi : s.inputs = []) (hp : s.work.phase = .lzC)
include hr hi hp

theorem step_of_lzC : step s = lzCStep s := by
  have nothing : s.source = none := by simp only [State.source, hp]
  rw [step_of_no_source hr hi nothing, State.engineWork, hp]

theorem step_of_lzC_token {v : Byte} (h : s.input[s.work.cursor]? = some v) :
    let token := lzToken s.input s.work.dict s.work.cursor v
    step s = .next (s.setWork { s.work.emit token.1 token.2.1 with dict := token.2.2 }) := by
  rw [step_of_lzC hr hi hp, lzCStep, h]

theorem step_of_lzC_end (h : s.input[s.work.cursor]? = none) : step s = .next (s.complete (.ok s.work.out)) := by
  rw [step_of_lzC hr hi hp, lzCStep, h]

end

/-! ## The loop and the operation -/

/-- The turns of LZ.C make up the loop of `lz_compress`. -/
theorem codecGives_lzC {u : State} (hr : u.running = true) (hi : u.inputs = []) (fuel : Nat) {w : Work}
    (hp : w.phase = .lzC) (hfuel : u.input.length ≤ w.cursor + fuel) :
    CodecGives u w (.ok (lzCompressFrom u.input fuel w.cursor w.dict w.out)) := by
  induction fuel generalizing w with
  | zero => exact .of_complete (step_of_lzC_end (s := u.setWork w) hr hi hp (List.getElem?_eq_none hfuel))
  | succ fuel ih =>
    cases h : u.input[w.cursor]? with
    | none =>
      rw [lzCompressFrom_end h]
      exact .of_complete (step_of_lzC_end (s := u.setWork w) hr hi hp h)
    | some v =>
      have hconsumes := lzToken_consumes u.input w.dict w.cursor v
      rw [lzCompressFrom_token h]
      refine .of_turn (step_of_lzC_token (s := u.setWork w) hr hi hp h) (ih (w := { w.emit _ _ with dict := _ }) hp ?_)
      change _ ≤ w.cursor + (lzToken u.input w.dict w.cursor v).2.1 + fuel
      omega

/-- Settles O40: after START and the head of `execute` the encoder's turns compute `lz_compress`. -/
theorem lzCompressOperation : Obligations.LzCompressOperation := by
  intro s hidle hi hlegal hlen
  have hcodec := codecGives_lzC (State.started_running hidle .compress 2) hi s.nextInput.length
    (w := Work.init .lzC) rfl (Nat.zero_add _).ge
  exact operationEnds_of_codecGives hidle hi hlegal hlen (by decide) rfl hcodec

end Sys2Proof.Machine
end

section
/-! PROOFS. The LZ77 decoder in the engine: one turn a token (46_lz77_decoder.md R330 to R336). -/

namespace Sys2Proof.Machine

/-! ## A turn -/

section

variable {s : State} {b1 b2 : Byte} {rest : List Byte}

theorem State.source_of_lzD (hp : s.work.phase = .lzD) (h : s.input.drop s.work.cursor = b1 :: rest) :
    s.source = some (.lz (b1 :: rest)) := by
  have inside : s.work.cursor < s.input.length := by
    rw [length_of_drop_eq_cons h]
    omega
  simp only [State.source, hp, h, if_pos inside]

variable (hr : s.running = true) (hi : s.inputs = []) (hp : s.work.phase = .lzD)
include hr hi hp

theorem step_of_lzD_end (h : s.input.drop s.work.cursor = []) : step s = .next (s.complete (.ok s.work.out)) := by
  have nothing : s.source = none := by
    simp only [State.source, hp, if_neg (Nat.not_lt.mpr (List.drop_eq_nil_iff.mp h))]
  rw [step_of_no_source hr hi nothing, State.engineWork, hp]

/-- A literal below 0x80 is its own token (R331). -/
theorem step_of_lzPlain (h : s.input.drop s.work.cursor = b1 :: rest) (hb1 : b1.toNat < 0x80) :
    step s = .next (s.emit [b1] 1) := by
  obtain ⟨v, rfl, -⟩ := exists_byteOf_of_lt hb1
  exact step_of_decoded hr hi (State.source_of_lzD hp h) (decodeLz_lit v rest)

/-- A literal from 0x80 on stands after the escape (R332). -/
theorem step_of_lzEscaped (h : s.input.drop s.work.cursor = Config.escape :: b2 :: rest) (hb2 : 0x80 ≤ b2.toNat) :
    step s = .next (s.emit [b2] 2) := by
  obtain ⟨v, rfl, -⟩ := exists_byteOf_of_le hb2
  exact step_of_decoded hr hi (State.source_of_lzD hp h) (decodeLz_esc v rest)

/-- A first byte that wants a second one and is the last of the input (R335). -/
theorem step_of_lzTruncated (h : s.input.drop s.work.cursor = [b1]) (hb1 : 0x80 ≤ b1.toNat) :
    step s = .next (s.takeError .malformedPayload s.work.cursor s.work.out.length) := by
  obtain ⟨low, rfl, -⟩ := exists_byteOf_of_le hb1
  exact step_of_malformed hr hi (State.source_of_lzD hp h) (decodeLz_truncated low)

/-- Any other pair is a match, of either kind, by the numbers of its two bytes (R333, R334). -/
theorem step_of_lzPair (h : s.input.drop s.work.cursor = b1 :: b2 :: rest) (hb1 : 0x80 ≤ b1.toNat)
    (hnot : ¬ (b1.toNat = 0x80 ∧ 0x80 ≤ b2.toNat)) :
    step s = lzBackRef (b1.toNat / 16 % 8 + 3) (b1.toNat % 16 * 256 + b2.toNat) s := by
  obtain ⟨-, -, short, long, -⟩ := lzTokensAreClassified b1 b2 rest
  have hsource := State.source_of_lzD hp h
  obtain hesc | hlt := Nat.eq_or_lt_of_le hb1
  · have hb2 : b2.toNat < 0x80 := Nat.lt_of_not_le fun hb2 => hnot ⟨hesc.symm, hb2⟩
    obtain ⟨o, hd, ho, -⟩ := short hesc.symm hb2
    exact (step_of_decoded hr hi hsource hd).trans
      (exec_match (.inl ⟨o, rfl, by rw [← hesc], by rw [← hesc, ho]; exact Nat.zero_add _⟩) s)
  · obtain ⟨l, hh, o, hd, hlen, hoff, -⟩ := long hlt
    rw [step_of_decoded hr hi hsource hd, ← hlen, ← hoff]
    rfl

end

/-- Settles O32: a first byte below 0x80 is a literal; a pair is an escaped literal or a match, and the match copies or
takes its error. -/
theorem lzDecoderTurn : Obligations.LzDecoderTurn := by
  intro s b1 rest hr hi hp h
  refine ⟨fun hb1 => ⟨_, step_of_lzPlain hr hi hp h hb1, s.emit_meaning _ _⟩, ?_, ?_⟩
  · rintro hb1 rfl
    exact ⟨_, step_of_lzTruncated hr hi hp h hb1, s.takeError_ended _ _ _, s.takeError_onlyResultChanged _ _ _⟩
  · rintro b2 tail rfl
    refine ⟨fun hesc hb2 => ?_, fun hb1 hnot => ?_⟩
    · obtain rfl : b1 = Config.escape := BitVec.eq_of_toNat_eq hesc
      exact ⟨_, step_of_lzEscaped hr hi hp h hb2, s.emit_meaning _ _⟩
    · rw [step_of_lzPair hr hi hp h hb1 hnot]
      obtain ⟨hbad, he⟩ | ⟨hpos, hback, he⟩ :=
        lzBackRef_cases (b1.toNat / 16 % 8 + 3) (b1.toNat % 16 * 256 + b2.toNat) s
      · exact ⟨fun _ => ⟨_, he, s.takeError_ended _ _ _, s.takeError_onlyResultChanged _ _ _⟩, fun _ _ => by omega⟩
      · exact ⟨fun _ => by omega, fun _ _ => ⟨_, he, s.setWork_onlyWorkChanged _, rfl, rfl⟩⟩

/-! ## The errors of `lz_decompress` (R335, R336) -/

section

variable {d rest : List Byte} {b1 b2 : Byte} {i fuel : Nat} {out : List Byte}

theorem lzDecompressFrom_truncated (h : d.drop i = [b1]) (hb1 : 0x80 ≤ b1.toNat) :
    lzDecompressFrom d (fuel + 1) i out = .err .malformedPayload i out.length := by
  simp [lzDecompressFrom, h, Nat.not_lt.mpr hb1]

theorem lzDecompressFrom_badReference (h : d.drop i = b1 :: b2 :: rest) (hb1 : 0x80 ≤ b1.toNat)
    (hnot : ¬ (b1.toNat = 0x80 ∧ 0x80 ≤ b2.toNat)) {off : Nat} (hoff : b1.toNat % 16 * 256 + b2.toNat = off)
    (hbad : off = 0 ∨ out.length < off) :
    lzDecompressFrom d (fuel + 1) i out = .err .invalidBackReference i out.length := by
  simp [lzDecompressFrom, h, Nat.not_lt.mpr hb1, hnot, hoff, hbad]

end

/-! ## The loop and the operation -/

/-- The turns of LZ.D make up the loop of `lz_decompress`. -/
theorem codecGives_lzD {u : State} (hr : u.running = true) (hi : u.inputs = []) (fuel : Nat) {w : Work}
    (hp : w.phase = .lzD) (hfuel : u.input.length ≤ w.cursor + fuel) :
    CodecGives u w (lzDecompressFrom u.input fuel w.cursor w.out) := by
  induction fuel generalizing w with
  | zero => exact .of_complete (step_of_lzD_end (s := u.setWork w) hr hi hp (List.drop_eq_nil_of_le hfuel))
  | succ fuel ih =>
    match h : u.input.drop w.cursor with
    | [] =>
      rw [lzDecompressFrom_end h]
      exact .of_complete (step_of_lzD_end (s := u.setWork w) hr hi hp h)
    | b1 :: rest =>
      obtain hb1 | hb1 := Nat.lt_or_ge b1.toNat 0x80
      · rw [lzDecompressFrom_plain h hb1]
        exact .of_turn (step_of_lzPlain (s := u.setWork w) hr hi hp h hb1)
          (ih (w := w.emit _ _) hp (by rw [Work.emit_cursor]; omega))
      match rest with
      | [] =>
        rw [lzDecompressFrom_truncated h hb1]
        exact .of_complete (step_of_lzTruncated (s := u.setWork w) hr hi hp h hb1)
      | b2 :: rest =>
        by_cases hesc : b1.toNat = 0x80 ∧ 0x80 ≤ b2.toNat
        · obtain ⟨hb1, hb2⟩ := hesc
          obtain rfl : b1 = Config.escape := BitVec.eq_of_toNat_eq hb1
          rw [lzDecompressFrom_escaped h hb2]
          exact .of_turn (step_of_lzEscaped (s := u.setWork w) hr hi hp h hb2)
            (ih (w := w.emit _ _) hp (by rw [Work.emit_cursor]; omega))
        have hpair := step_of_lzPair (s := u.setWork w) hr hi hp h hb1 hesc
        obtain ⟨hbad, he⟩ | ⟨hpos, hback, he⟩ :=
          lzBackRef_cases (b1.toNat / 16 % 8 + 3) (b1.toNat % 16 * 256 + b2.toNat) (u.setWork w)
        · rw [lzDecompressFrom_badReference (out := w.out) h hb1 hesc rfl hbad]
          exact .of_complete (hpair.trans he)
        · rw [lzDecompressFrom_match (out := w.out) h hb1 hesc rfl rfl hpos hback]
          exact .of_turn (hpair.trans he)
            (ih (w := { w with out := _, cursor := _ }) hp (show _ ≤ w.cursor + 2 + fuel by omega))

/-- Settles O41: after START and the head of `execute` the decoder's turns compute `lz_decompress`. -/
theorem lzDecompressOperation : Obligations.LzDecompressOperation := by
  intro s hidle hi hlegal hlen
  have hcodec := codecGives_lzD (State.started_running hidle .decompress 2) hi s.nextInput.length
    (w := Work.init .lzD) rfl (Nat.zero_add _).ge
  exact operationEnds_of_codecGives hidle hi hlegal hlen (by decide) rfl hcodec

end Sys2Proof.Machine
end

section
/-! PROOFS. A CMD write, the effects of START with what the registers read while BUSY, and the operations that end before
a codec runs (47_dispatcher.md R360, R361, R380, R381; 60_exceptions.md R406). -/

namespace Sys2Proof.Machine

section

variable {s t : State} {w : Word}

/-! ## Command words by their START bit (30_encoding.md R111) -/

theorem exec_decodeCommand_of_start (hw : w.getLsbD 31 = true) (hb : s.busy = false) :
    exec (decodeCommand w) s = .next (s.started (cmdModeField w) (w.extractLsb' 0 3)) := by
  rw [exec_decodeCommand, cmdStartField, if_pos hw, State.startCommand_of_idle _ _ hb, cmdAlgField]

theorem exec_decodeCommand_of_store (hw : w.getLsbD 31 = false) (hb : s.busy = false) :
    exec (decodeCommand w) s = .next { s with cmdAlg := w.extractLsb' 0 3, cmdMode := cmdModeField w } := by
  rw [exec_decodeCommand, cmdStartField, hw, if_neg Bool.false_ne_true, State.storeCommand_of_idle _ _ hb, cmdAlgField]

theorem exec_decodeCommand_of_busy (w : Word) (hb : s.busy = true) : exec (decodeCommand w) s = .next s :=
  (everyCommandCompletes s).2 hb w

/-! ## The registers while BUSY -/

theorem State.setWork_readReg (s : State) (w : Work) (r : RegName) : (s.setWork w).readReg r = s.readReg r := by
  cases r <;> rfl

theorem State.setInputs_readReg (s : State) (xs : List Input) (r : RegName) :
    (s.setInputs xs).readReg r = s.readReg r := by
  cases r <;> rfl

theorem State.releaseReset_readReg (s : State) (r : RegName) : s.releaseReset.readReg r = s.readReg r := by
  cases r <;> rfl

/-- A turn that leaves the block BUSY changes no register: the end of the operation would clear BUSY. -/
theorem State.engineTurn_readReg (h : s.engineTurn.outcome = .next t) (hb : t.busy = true) (r : RegName) :
    t.readReg r = s.readReg r := by
  obtain ⟨m, rfl⟩ := State.engineTurn_move h
  cases m with
  | work w => exact s.setWork_readReg w r
  | finish r => exact absurd ((s.complete_busy r).symm.trans hb) Bool.false_ne_true

/-- While BUSY a host access changes no register. -/
theorem State.hostAccess_readReg {a : Access} (hb : s.busy = true) (h : (s.hostAccess a).outcome = .next t)
    (r : RegName) : t.readReg r = s.readReg r := by
  obtain rfl | hw := State.hostAccess_reads_or_writes h
  · exact (s.hostRead_onlyRead a.space a.offset).regs r
  · rw [hw.eq_of_busy hb]

theorem step_readReg_of_busy (hb : s.busy = true) (hn : s.NoResetNext) (h : step s = .next t) (hbt : t.busy = true)
    (r : RegName) : t.readReg r = s.readReg r := by
  obtain ⟨rest, hturn | ⟨a, haccess⟩ | rfl⟩ := step_cases_of_noResetNext hn h
  · rw [State.engineTurn_readReg hturn hbt, State.setInputs_readReg]
  · rw [State.hostAccess_readReg (s := s.setInputs rest) hb haccess, State.setInputs_readReg]
  · rw [State.releaseReset_readReg, State.setInputs_readReg]

end

/-- Settles O8: the write runs its command word, and the word does what its START bit says. -/
theorem cmdWriteStartsOrStores : Obligations.CmdWriteStartsOrStores := by
  intro s w rest hi hr
  rw [step_of_cmdWrite hi hr]
  exact ⟨exec_decodeCommand_of_busy (s := s.setInputs rest) w,
    fun hb hw => exec_decodeCommand_of_start (s := s.setInputs rest) hw hb,
    fun hb hw => exec_decodeCommand_of_store (s := s.setInputs rest) hw hb⟩

/-- Settles O9: START is `State.started`, and while the operation runs no step but a reset writes a register. -/
theorem startEffects : Obligations.StartEffects := by
  refine ⟨fun s w hb hw => ?_, fun s t hb hn h hbt => ?_⟩
  · exact ⟨_, exec_decodeCommand_of_start hw hb, rfl, rfl, cmdModeField_eq_decompress_iff w, rfl, rfl, rfl, rfl, rfl, rfl,
      rfl, fun _ => ⟨rfl, rfl⟩, rfl, rfl, fun _ => rfl, rfl, rfl, rfl⟩
  · exact ⟨(parametersNeverChange s t h).1, step_readReg_of_busy hb hn h hbt⟩

/-! ## Operations that end at the head of `execute` -/

section

variable {s : State} {i : Instr} {mode : Mode} {alg : BitVec 3}

theorem step_started (hidle : s.Idle) (hi : s.inputs = []) (mode : Mode) (alg : BitVec 3) :
    step (s.started mode alg) = dispatchStep (s.started mode alg) :=
  step_of_dispatch (State.started_running hidle mode alg) hi rfl

/-- A command whose operation takes an error at the head of `execute`. -/
theorem operationGives_of_dispatchStep (hidle : s.Idle) (hi : s.inputs = [])
    (hexec : exec i s = .next (s.startCommand mode alg)) {kind : ErrorKind} {pos count : Nat}
    (h : dispatchStep (s.started mode alg) = .next ((s.started mode alg).takeError kind pos count)) :
    OperationGives i s (.err kind pos count) := by
  rw [State.startCommand_of_idle mode alg hidle.1] at hexec
  exact ⟨_, _, hexec, .of_step ((step_started hidle hi mode alg).trans h) (.refl _), State.takeError_busy _ _ _ _,
    State.takeError_ended _ _ _ _, { State.takeError_onlyResultChanged _ _ _ _ with }⟩

theorem exec_of_deflateCommand (h : i ∈ [Instr.defC, Instr.defD]) :
    ∃ mode, ∀ s, exec i s = .next (s.startCommand mode 3) := by
  simp only [List.mem_cons, List.not_mem_nil, or_false] at h
  obtain rfl | rfl := h
  · exact ⟨.compress, fun _ => rfl⟩
  · exact ⟨.decompress, fun _ => rfl⟩

theorem exec_of_codecCommand (h : i ∈ [Instr.rleC, Instr.rleD, Instr.hufC, Instr.hufD, Instr.lzC, Instr.lzD]) :
    ∃ mode, ∃ alg : BitVec 3, alg.toNat < 3 ∧ ∀ s, exec i s = .next (s.startCommand mode alg) := by
  simp only [List.mem_cons, List.not_mem_nil, or_false] at h
  obtain rfl | rfl | rfl | rfl | rfl | rfl := h
  · exact ⟨.compress, 0, by decide, fun _ => rfl⟩
  · exact ⟨.decompress, 0, by decide, fun _ => rfl⟩
  · exact ⟨.compress, 1, by decide, fun _ => rfl⟩
  · exact ⟨.decompress, 1, by decide, fun _ => rfl⟩
  · exact ⟨.compress, 2, by decide, fun _ => rfl⟩
  · exact ⟨.decompress, 2, by decide, fun _ => rfl⟩

end

/-- Settles O27: each such command starts, and the first turn is an error, or the refusal, of the head of `execute`. -/
theorem operationsThatEndBeforeTheCodec : Obligations.OperationsThatEndBeforeTheCodec := by
  intro s hidle hi
  refine ⟨fun mode low => ?_, fun i hdef => ?_, fun i hcodec hlen => ?_⟩
  · exact operationGives_of_dispatchStep (mode := mode) (alg := reservedAlg low) hidle hi rfl
      (dispatchStep_of_unsupported (.inl (reservedAlg_ge low)))
  · obtain ⟨mode, hexec⟩ := exec_of_deflateCommand hdef
    refine ⟨fun hd => ?_, fun hd => ?_⟩
    · exact operationGives_of_dispatchStep hidle hi (hexec s) (dispatchStep_of_unsupported (.inr ⟨rfl, hd⟩))
    · exact ⟨s.started mode 3, (hexec s).trans (congrArg _ (State.startCommand_of_idle mode 3 hidle.1)),
        step_started_of_forwarded ⟨hi, hidle.2⟩ hd⟩
  · obtain ⟨mode, alg, halg, hexec⟩ := exec_of_codecCommand hcodec
    exact operationGives_of_dispatchStep hidle hi (hexec s) (dispatchStep_of_tooLong halg hlen)

end Sys2Proof.Machine
end

section
/-! PROOFS. The reset input: what asserting it does, and that nothing but a read has an effect while it is asserted
(70_reset_and_hazards.md R450, R451). -/

namespace Sys2Proof.Machine

section

variable {s t u : State}

/-! ## Asserting reset -/

theorem step_of_resetAssert {rest : List Input} (h : s.inputs = .resetAssert :: rest) :
    step s = .next (s.setInputs rest).assertReset :=
  step_of_input h

theorem State.running_of_resetLine (h : s.resetLine = true) : s.running = false := by
  rw [State.running, h, Bool.not_true, Bool.and_false]

theorem State.assertReset_readReg (s : State) (r : RegName) : s.assertReset.readReg r = resetValue s.params r := by
  cases r with
  | cmd => exact (by decide : cmdRead .compress 0 = 0)
  | _ => rfl

/-! ## While reset is asserted -/

theorem State.OnlyRead.refl (s : State) : s.OnlyRead s :=
  ⟨rfl, fun _ => rfl, rfl, rfl, rfl, fun _ => rfl, rfl, rfl, rfl, rfl⟩

theorem State.OnlyRead.readIn (h : s.OnlyRead t) (a : Nat) : t.readIn a = s.readIn a := by
  rw [State.readIn, State.readIn, h.inMem, h.inEpoch]

/-- Of the accesses that the block carries out only a read has an effect. -/
theorem State.hostAccess_of_resetLine {a : Access} (hr : s.resetLine = true) (ha : admits s.params a = true) :
    ∃ t, (s.hostAccess a).outcome = .next t ∧ s.OnlyRead t := by
  rw [State.hostAccess, if_pos ha]
  cases a.op with
  | read => exact ⟨_, rfl, s.hostRead_onlyRead a.space a.offset⟩
  | write v =>
    refine ⟨s, ?_, .refl s⟩
    simp only [State.hostWrite, hr, if_true, Next.outcome]

/-- The engine is idle, and an access by physical address is the access to its space. -/
theorem State.take_of_resetLine {x : Input} (hr : s.resetLine = true) (hx : admittedInput s.params x = true) :
    ∃ t, (s.take x).outcome = .next t ∧ s.OnlyRead t := by
  cases x with
  | access a => exact State.hostAccess_of_resetLine hr hx
  | bus address width op =>
    rw [admittedInput] at hx
    cases hl : locate s.params address with
    | none => simp [hl] at hx
    | some place =>
      rw [State.take_bus_of_locate hl]
      exact State.hostAccess_of_resetLine hr (by simpa only [hl] using hx)
  | turn =>
    rw [State.take, State.engineTurn_of_not_running (State.running_of_resetLine hr)]
    exact ⟨s, rfl, .refl s⟩
  | resetAssert => cases hx
  | resetRelease => cases hx
  | powerUp => cases hx

/-- The block with reset asserted in state `s`: its registers read their reset values, and IN is that of `s`. -/
structure HeldInReset (s u : State) : Prop where
  resetLine : u.resetLine = true
  params : u.params = s.params
  regs : ∀ r, u.readReg r = resetValue s.params r
  inBytes : ∀ a, u.readIn a = s.readIn a

theorem State.assertReset_held (s : State) : HeldInReset s s.assertReset :=
  ⟨rfl, rfl, s.assertReset_readReg, fun _ => rfl⟩

theorem HeldInReset.onlyRead (h : HeldInReset s u) (hread : u.OnlyRead t) : HeldInReset s t where
  resetLine := hread.resetLine.trans h.resetLine
  params := hread.params.trans h.params
  regs := fun r => (hread.regs r).trans (h.regs r)
  inBytes := fun a => (hread.readIn a).trans (h.inBytes a)

theorem HeldInReset.setInputs (h : HeldInReset s u) (rest : List Input) : HeldInReset s (u.setInputs rest) :=
  ⟨h.resetLine, h.params, fun r => (u.setInputs_readReg rest r).trans (h.regs r), h.inBytes⟩

/-- Any admitted inputs pass, and the block is still held. -/
theorem HeldInReset.steps (xs : List Input) {rest : List Input} (h : HeldInReset s u)
    (hxs : ∀ x ∈ xs, admittedInput s.params x = true) (hi : u.inputs = xs ++ rest) :
    ∃ v, HeldInReset s v ∧ v.inputs = rest ∧ ∀ k, Machine.steps (xs.length + k) u = Machine.steps k v := by
  induction xs generalizing u with
  | nil => exact ⟨u, h, hi, fun k => by rw [List.length_nil, Nat.zero_add]⟩
  | cons x xs ih =>
    have held := h.setInputs (xs ++ rest)
    obtain ⟨hx, hxs⟩ := List.forall_mem_cons.mp hxs
    obtain ⟨t, ht, hread⟩ := State.take_of_resetLine held.resetLine (held.params.symm ▸ hx)
    obtain ⟨v, hv, hvi, hsteps⟩ := ih (held.onlyRead hread) hxs hread.inputs
    refine ⟨v, hv, hvi, fun k => ?_⟩
    rw [List.length_cons, Nat.add_right_comm, steps_succ_of_step ((step_of_input hi).trans ht), hsteps]

/-- Releasing reset leaves the block idle, with its registers at their reset values (R450). -/
theorem HeldInReset.release (h : HeldInReset s u) (hi : u.inputs = [.resetRelease]) :
    ∃ t, step u = .next t ∧ t.Idle ∧ t.status = 0 ∧ (∀ r, t.readReg r = resetValue s.params r) ∧
      ∀ a, t.readIn a = s.readIn a := by
  have hstatus : u.status = 0 := h.regs .status
  have hbusy : u.busy = false := by rw [State.busy, hstatus]; rfl
  exact ⟨(u.setInputs []).releaseReset, step_of_input hi, ⟨hbusy, rfl⟩, hstatus,
    fun r => by rw [State.releaseReset_readReg, State.setInputs_readReg, h.regs], h.inBytes⟩

end

/-- Settles O21: asserting reset puts every register at its reset value and empties OUT, and the engine needs reset
released to run. -/
theorem resetAbandonsTheOperation : Obligations.ResetAbandonsTheOperation := by
  intro s rest _ hi
  exact ⟨_, step_of_resetAssert hi, rfl, rfl, rfl, rfl, rfl, fun _ => ⟨rfl, rfl⟩, fun _ => rfl, rfl,
    State.running_of_resetLine rfl⟩

/-- Settles O22: the block is held in reset after each of the inputs, and idle after the release. -/
theorem resetHoldsWhileAsserted : Obligations.ResetHoldsWhileAsserted := by
  intro s xs hxs hi
  have hassert := step_of_resetAssert hi
  have held : HeldInReset s (s.setInputs (xs ++ [.resetRelease])).assertReset :=
    { (s.setInputs (xs ++ [.resetRelease])).assertReset_held with }
  constructor
  · intro k hk
    have hparts : xs ++ [.resetRelease] = xs.take k ++ (xs.drop k ++ [.resetRelease]) := by
      rw [← List.append_assoc, List.take_append_drop]
    obtain ⟨u, hu, -, hsteps⟩ := held.steps (xs.take k) (fun x hx => hxs x (List.mem_of_mem_take hx)) hparts
    have hrun := hsteps 0
    rw [List.length_take_of_le hk] at hrun
    exact ⟨u, (steps_succ_of_step hassert).trans hrun, hu.resetLine, State.running_of_resetLine hu.resetLine, hu.regs,
      hu.inBytes⟩
  · obtain ⟨u, hu, hui, hsteps⟩ := held.steps xs hxs rfl
    obtain ⟨t, ht, hidle, hstatus, hregs, hin⟩ := hu.release hui
    exact ⟨t, (steps_succ_of_step hassert).trans ((hsteps 1).trans (steps_succ_of_step ht)), hidle, hstatus, hregs, hin⟩

end Sys2Proof.Machine
end

section
/-! PROOFS. What is due at an engine's turn happens: the error of 60_exceptions.md R402, or the codec's result
(47_dispatcher.md R366, R370, R371). -/

namespace Sys2Proof.Machine

section

variable {s : State} {b1 b0 : Byte} {rest out : List Byte}

/-! ## The end of an operation as one state -/

theorem saturate32_min (n : Nat) : saturate32 (min n (2 ^ 32 - 1)) = saturate32 n := by
  rw [saturate32, min_assoc, min_self, saturate32]

theorem State.complete_of_fits (h : out.length ≤ s.params.outCap) : s.complete (.ok out) = s.completeOk out := by
  rw [State.complete, capCheck, if_neg (Nat.not_lt.mpr h)]

/-- The count that the capacity check saturates is the one that ERR_COUNT saturates (R366, R402). -/
theorem State.complete_of_overflow (h : s.params.outCap < out.length) :
    s.complete (.ok out) = s.takeError .outputOverflow s.params.outCap out.length := by
  rw [State.complete, capCheck, if_pos h]
  simp only [State.takeError, saturate32_min]

/-! ## Fields of a Huffman container by their bytes (30_encoding.md R125) -/

theorem be16_toNat (b1 b0 : Byte) : (be16 b1 b0).toNat = b1.toNat * 256 + b0.toNat := toNat_append_eq b1 b0

theorem be32_eq_zero_iff (f3 f2 f1 f0 : Byte) :
    be32 f3 f2 f1 f0 = 0 ↔ f3 = 0 ∧ f2 = 0 ∧ f1 = 0 ∧ f0 = 0 := by
  simp only [← BitVec.toNat_inj, be32_toNat, show (0 : Byte).toNat = 0 from rfl, show (0 : Word).toNat = 0 from rfl]
  omega

theorem decodeHufEntry_of_short {bs : List Byte} (h : bs.length < 5) : decodeHufEntry bs = .error .truncatedEntry := by
  match bs, h with
  | [], _ => rfl
  | [_], _ => rfl
  | [_, _], _ => rfl
  | [_, _, _], _ => rfl
  | [_, _, _, _], _ => rfl

/-! ## Where the decoder reads -/

theorem State.source_of_hufEntries (hp : s.work.phase = .hufEntries) (hmore : s.work.entry < s.work.count) :
    s.source = some (.hufEntry (s.input.drop (2 + 5 * s.work.entry))) := by
  rw [State.source, hp]
  exact if_pos hmore

theorem State.source_of_hufPayload_bits (hp : s.work.phase = .hufPayload) (hmore : s.work.out.length < s.work.total) :
    s.source = some (.hufCode s.work.nodes (rootOf s.work.active) (s.work.reader.remaining s.payload)) := by
  rw [State.source, hp]
  exact if_pos hmore

/-- The one entry is read and nothing follows it (R247, R248). -/
theorem hufHeaderDone_of_last (hk : s.work.count = 1) (hn : s.latch.len.toNat ≤ 7) :
    hufHeaderDone s = .next (s.complete (.ok (s.work.freq.symbols.flatMap
      fun v => List.replicate (s.work.freq.at v).toNat v))) := by
  rw [hufHeaderDone, if_pos hk, if_neg (Nat.not_lt.mpr hn)]

variable (hr : s.running = true) (hi : s.inputs = [])
include hr hi

theorem step_of_hufHeader_cons (hp : s.work.phase = .hufHeader) (h : s.input = b1 :: b0 :: rest) :
    step s = exec (.hufHdrCount (be16 b1 b0)) s := by
  have hturn := step_of_hufHeader hr hi hp (by rw [h]; exact Nat.le_add_left 2 rest.length)
  rw [h] at hturn
  exact hturn

/-! ## Results and errors -/

theorem step_of_resultDue (h : s.resultDue = some out) : step s = .next (s.complete (.ok out)) := by
  cases hp : s.work.phase <;>
    simp only [State.resultDue, hp, reduceCtorEq, Option.ite_none_right_eq_some, Option.some.injEq] at h <;>
    obtain ⟨hend, rfl⟩ := h
  case rleC => exact step_of_rleC_end hr hi hp hend
  case rleD => exact step_of_rleD_end hr hi hp (List.drop_eq_nil_of_le hend)
  case hufCount =>
    obtain ⟨hend, hk⟩ := hend
    exact (step_of_hufCount hr hi hp).trans (hufCountStep_of_le_one (List.drop_eq_nil_of_le hend) hk)
  case hufEncode =>
    exact (step_of_hufEncode hr hi hp).trans (hufEncodeStep_of_end (List.drop_eq_nil_of_le hend))
  case hufHeader =>
    have hlen : s.latch.len.toNat = 2 := by rw [← s.input_length, hend]; rfl
    exact (step_of_hufHeader_cons hr hi hp hend).trans (execHufHdrCount_of_empty rfl hlen.le)
  case hufEntries =>
    obtain ⟨hend, hk, hn⟩ := hend
    exact (step_of_hufEntries_end hr hi hp hend).trans (hufHeaderDone_of_last hk hn)
  case hufPayload => exact step_of_hufPayload_end hr hi hp hend
  case lzC => exact step_of_lzC_end hr hi hp (List.getElem?_eq_none hend)
  case lzD => exact step_of_lzD_end hr hi hp (List.drop_eq_nil_of_le hend)

/-- Every error of the table is taken at the turn at which it is due, with its position and count. -/
theorem step_of_errorDue {kind : ErrorKind} {pos count : Nat} (h : ErrorDue s kind pos count) :
    step s = .next (s.takeError kind pos count) := by
  have hlen := s.input_length
  cases h with
  | unsupported hp h => exact (step_of_dispatch hr hi hp).trans (dispatchStep_of_unsupported h)
  | tooLong hp halg hlong => exact (step_of_dispatch hr hi hp).trans (dispatchStep_of_tooLong halg hlong)
  | noCount hp hshort => exact step_of_hufHeader_short hr hi hp hshort
  | trailingZero rest hp hin hne =>
    refine (step_of_hufHeader_cons hr hi hp hin).trans (execHufHdrCount_of_trailing rfl ?_)
    rw [← hlen, hin]
    exact Nat.add_lt_add_right (List.length_pos_of_ne_nil hne) 2
  | tooMany b1 b0 rest hp hin hmany =>
    rw [← be16_toNat] at hmany
    exact (step_of_hufHeader_cons hr hi hp hin).trans (execHufHdrCount_of_tooMany hmany)
  | fewEntries b1 b0 rest hp hin hpos hmany hfew =>
    rw [← be16_toNat] at hpos hmany hfew
    rw [hlen] at hfew ⊢
    exact (step_of_hufHeader_cons hr hi hp hin).trans
      (execHufHdrCount_of_fewEntries (Nat.ne_of_gt hpos) hmany hfew)
  | cutEntry hp hmore hcut =>
    exact step_of_malformed hr hi (State.source_of_hufEntries hp hmore) (decodeHufEntry_of_short hcut)
  | badEntry v f3 f2 f1 f0 rest hp hmore hin hbad =>
    rw [← be32_eq_zero_iff] at hbad
    have hs := State.source_of_hufEntries hp hmore
    rw [hin] at hs
    exact (step_of_decoded hr hi hs rfl).trans (execHufHdrEntry_of_bad hbad)
  | trailingSingle hp hend hk hn =>
    exact (step_of_hufEntries_end hr hi hp hend).trans (hufHeaderDone_of_trailing hk hn)
  | bitsOut hp hmore hd => exact step_of_malformed hr hi (State.source_of_hufPayload_bits hp hmore) hd
  | noChild depth hp hmore hd => exact step_of_malformed hr hi (State.source_of_hufPayload_bits hp hmore) hd
  | cutBlock c rest hp hin hcut =>
    refine step_of_rleTruncated hr hi hp hin ?_
    obtain ⟨hc, rfl⟩ | ⟨hc, hrest⟩ := hcut
    · obtain ⟨len, rfl, -⟩ := exists_byteOf_of_le hc
      exact decodeRle_run_truncated len
    · obtain ⟨len, rfl, hlen⟩ := exists_byteOf_of_lt hc
      exact decodeRle_lit_truncated (hlen.symm ▸ hrest)
  | cutToken b1 hp hin hb1 => exact step_of_lzTruncated hr hi hp hin hb1
  | badReference b1 b2 rest hp hin hb1 hnot hbad =>
    exact (step_of_lzPair hr hi hp hin hb1 hnot).trans (if_pos hbad)
  | overflow out h hcap => exact (step_of_resultDue hr hi h).trans (congrArg _ (State.complete_of_overflow hcap))

end

end Sys2Proof.Machine
end

section
/-! PROOFS. The four things an engine's turn can be: an error that is due, a result that is due, the refusal of a
forwarded operation, or a turn of a loop, after which fewer turns are left (47_dispatcher.md R362, R365;
60_exceptions.md R402). -/

namespace Sys2Proof.Machine

/-! ## How many turns are left -/

/-- The input bytes that the loop of an encoder or decoder has not passed. -/
def State.bytesLeft (s : State) : Nat := s.input.length - s.work.cursor

/-- A bound of the turns after the last merge: the encode pass, or the walk over the bits of the payload. -/
def State.treeTurns (s : State) : Nat :=
  match s.latch.mode with
  | .compress => s.input.length + 2
  | .decompress => 8 * s.input.length + 2

/-- A bound of the turns that an operation still takes (R365). -/
def State.turnsLeft (s : State) : Nat :=
  match s.work.phase with
  | .dispatch => 8 * s.input.length + 600
  | .rleC => s.bytesLeft + 1
  | .rleD => s.bytesLeft + 1
  | .hufCount => s.bytesLeft + 257 + s.treeTurns
  | .hufMerge => s.work.active.length + s.treeTurns
  | .hufEncode => s.bytesLeft + 1
  | .hufHeader => 514 + s.treeTurns
  | .hufEntries => s.work.count - s.work.entry + 257 + s.treeTurns
  | .hufPayload => (s.work.reader.remaining s.payload).length + 1
  | .lzC => s.bytesLeft + 1
  | .lzD => s.bytesLeft + 1

/-- The phases whose loop passes over the input with one turn a round. -/
abbrev Phase.IsPass (p : Phase) : Prop := p ∈ [Phase.rleC, .rleD, .hufEncode, .lzC, .lzD]

section

variable {s : State} {w : Work}

theorem State.treeTurns_pos (s : State) : 1 ≤ s.treeTurns := by
  unfold State.treeTurns
  split <;> omega

theorem State.turnsLeft_pos (s : State) : 1 ≤ s.turnsLeft := by
  have := s.treeTurns_pos
  unfold State.turnsLeft
  split <;> omega

theorem State.turnsLeft_of_isPass (h : s.work.phase.IsPass) : s.turnsLeft = s.bytesLeft + 1 := by
  simp only [Phase.IsPass, List.mem_cons, List.not_mem_nil, or_false] at h
  unfold State.turnsLeft
  obtain h | h | h | h | h := h <;> rw [h]

/-- A round that moves the cursor leaves fewer bytes. -/
theorem State.bytesLeft_setWork_lt (hmore : s.work.cursor < s.input.length) (hcursor : s.work.cursor < w.cursor) :
    (s.setWork w).bytesLeft < s.bytesLeft :=
  Nat.sub_lt_sub_left hmore hcursor

theorem State.turnsLeft_setWork_lt (hpass : s.work.phase.IsPass) (hphase : w.phase = s.work.phase)
    (hmore : s.work.cursor < s.input.length) (hcursor : s.work.cursor < w.cursor) :
    (s.setWork w).turnsLeft < s.turnsLeft := by
  rw [State.turnsLeft_of_isPass hpass, State.turnsLeft_of_isPass (s := s.setWork w) (hphase ▸ hpass)]
  exact Nat.add_lt_add_right (State.bytesLeft_setWork_lt hmore hcursor) 1

/-- The turns from the placed leaves on: at most 255 merges, and what follows them. -/
theorem State.turnsLeft_setWork_placed_le (hphase : w.phase = .hufMerge)
    (hactive : w.active = List.range (leaves w.freq).length) : (s.setWork w).turnsLeft ≤ 256 + s.treeTurns := by
  have hleaves := length_leaves_le w.freq
  have hturns : (s.setWork w).turnsLeft = w.active.length + s.treeTurns := by
    simp only [State.turnsLeft, State.setWork_work, hphase]
    rfl
  rw [hturns, hactive, List.length_range]
  omega

/-- A codec that begins has fewer turns before it than the head of `execute` had. -/
theorem State.turnsLeft_init_lt (s : State) :
    (s.setWork (Work.init (codecPhase s.latch.alg s.latch.mode))).turnsLeft < 8 * s.input.length + 600 := by
  have hpass {p : Phase} (h : p.IsPass) : (s.setWork (Work.init p)).turnsLeft = s.input.length + 1 :=
    State.turnsLeft_of_isPass (s := s.setWork (Work.init p)) h
  have hcount : (s.setWork (Work.init .hufCount)).turnsLeft = s.input.length + 257 + s.treeTurns := rfl
  have hheader : (s.setWork (Work.init .hufHeader)).turnsLeft = 514 + s.treeTurns := rfl
  cases hmode : s.latch.mode with
  | compress =>
    simp only [State.treeTurns, hmode] at hcount
    rw [codecPhase]
    split
    · rw [hpass (by decide)]; omega
    · split
      · omega
      · rw [hpass (by decide)]; omega
  | decompress =>
    simp only [State.treeTurns, hmode] at hheader
    rw [codecPhase]
    split
    · rw [hpass (by decide)]; omega
    · split
      · omega
      · rw [hpass (by decide)]; omega

/-! ## The turns of the payload -/

/-- A code word read leaves fewer bits. -/
theorem Reader.remaining_skip_length_lt {p : List Byte} {r : Reader} {path rest : List Bool} (hbit : r.rbit < 8)
    (hbits : r.remaining p = path ++ rest) (hne : path ≠ []) :
    ((Reader.skip p path.length r).remaining p).length < (r.remaining p).length := by
  have hpos := List.length_pos_of_ne_nil hne
  have hle : path.length ≤ (r.remaining p).length := by rw [hbits, List.length_append]; omega
  have hskip := Reader.skip_of_le_remaining hle (Nat.ne_of_gt hpos) hbit
  have hr := Reader.eq_atBit hbit
  generalize 8 * r.rbyte + r.rbit = k at hskip hr
  subst hr
  rw [hskip]
  rw [Reader.remaining_atBit_length] at hle ⊢
  rw [Reader.remaining_atBit_length]
  omega

theorem Reader.remaining_start_length (p : List Byte) : (Reader.start.remaining p).length = 8 * p.length := by
  obtain ⟨hbits, hlen, -⟩ := bitReaderOrder p
  rw [hbits, hlen]

/-- Bits without a code word have run out, or lead to a missing child (R252, R254). -/
theorem walkCode_error_cases {nodes : List Node} {depth x : Nat} {bits : List Bool} {e : DecodeError}
    (h : walkCode nodes depth x bits = .error e) : e = .endOfStream ∨ ∃ d, e = .missingChild d := by
  obtain ⟨he, -⟩ | ⟨d, he, -⟩ := walkPayload_of_walkCode_error (root := 0) (start := 0) (n := 0) (first := 0)
    (out := []) h (Nat.zero_add depth).symm Nat.zero_lt_one
  · exact .inl he
  · exact .inr ⟨d, he⟩

end

/-! ## The cases of a turn -/

/-- What the engine's turn at `s` is. With the storage in its bounds a turn of a loop leaves fewer turns. -/
inductive State.TurnCase (s : State) : Prop
  | error {kind : ErrorKind} {pos count : Nat} : ErrorDue s kind pos count → s.TurnCase
  | result {out : List Byte} : s.resultDue = some out → s.TurnCase
  | forwarded : s.work.phase = .dispatch → s.latch.alg = 3 → s.params.deflateAttached = true → s.TurnCase
  | work (w : Work) : step s = .next (s.setWork w) →
      (s.work.Bounded → (s.setWork w).turnsLeft < s.turnsLeft) → s.TurnCase

section

variable {s : State} (hr : s.running = true) (hi : s.inputs = [])
include hr hi

theorem turnCase_of_dispatch (hp : s.work.phase = .dispatch) : s.TurnCase := by
  obtain halg | halg | halg := Nat.lt_trichotomy s.latch.alg.toNat 3
  · by_cases hlong : s.params.inCap < s.latch.len.toNat
    · exact .error (.tooLong hp halg hlong)
    · refine .work _ ((step_of_dispatch hr hi hp).trans (dispatchStep_of_codec halg (Nat.le_of_not_lt hlong))) fun _ => ?_
      rw [State.turnsLeft.eq_def s, hp]
      exact s.turnsLeft_init_lt
  · have halg : s.latch.alg = 3 := BitVec.eq_of_toNat_eq halg
    cases hd : s.params.deflateAttached with
    | false => exact .error (.unsupported hp (.inr ⟨halg, hd⟩))
    | true => exact .forwarded hp halg hd
  · exact .error (.unsupported hp (.inl halg))

/-! ### RLE -/

theorem turnCase_of_rleC (hp : s.work.phase = .rleC) : s.TurnCase := by
  by_cases hmore : s.work.cursor < s.input.length
  · have hcovers := rleBlock_covers (List.drop_eq_nil_iff.not.mpr (Nat.not_le.mpr hmore))
    exact .work _ (step_of_rleC_block hr hi hp hmore) fun _ =>
      State.turnsLeft_setWork_lt (by rw [hp]; decide) rfl hmore (Nat.lt_add_of_pos_right hcovers.1)
  · refine .result (out := s.work.out) ?_
    rw [State.resultDue, hp]
    exact if_pos (Nat.le_of_not_lt hmore)

theorem turnCase_of_rleD (hp : s.work.phase = .rleD) : s.TurnCase := by
  match h : s.input.drop s.work.cursor with
  | [] =>
    refine .result (out := s.work.out) ?_
    rw [State.resultDue, hp]
    exact if_pos (List.drop_eq_nil_iff.mp h)
  | c :: rest =>
    have hlen := length_of_drop_eq_cons h
    have hfewer (bytes : List Byte) {used : Nat} (hused : 0 < used) :
        (s.setWork (s.work.emit bytes used)).turnsLeft < s.turnsLeft :=
      State.turnsLeft_setWork_lt (by rw [hp]; decide) rfl (by omega) (Nat.lt_add_of_pos_right hused)
    obtain hc | hc := Nat.lt_or_ge c.toNat 0x80
    · obtain ⟨len, rfl, hc'⟩ := exists_byteOf_of_lt hc
      by_cases hwhole : len.toNat + 1 ≤ rest.length
      · exact .work _ (step_of_rleLiteral hr hi hp h hwhole) fun _ => hfewer _ (by omega)
      · exact .error (.cutBlock _ rest hp h (.inr ⟨hc, by omega⟩))
    · obtain ⟨len, rfl, -⟩ := exists_byteOf_of_le hc
      match rest with
      | [] => exact .error (.cutBlock _ [] hp h (.inl ⟨hc, rfl⟩))
      | v :: rest => exact .work _ (step_of_rleRun hr hi hp h) fun _ => hfewer _ (by omega)

/-! ### LZ77 -/

theorem turnCase_of_lzC (hp : s.work.phase = .lzC) : s.TurnCase := by
  cases h : s.input[s.work.cursor]? with
  | none =>
    refine .result (out := s.work.out) ?_
    rw [State.resultDue, hp]
    exact if_pos (List.getElem?_eq_none_iff.mp h)
  | some v =>
    obtain ⟨hmore, -⟩ := List.getElem?_eq_some_iff.mp h
    exact .work _ (step_of_lzC_token hr hi hp h) fun _ => State.turnsLeft_setWork_lt (by rw [hp]; decide) rfl hmore
      (Nat.lt_add_of_pos_right (lzToken_consumes s.input s.work.dict s.work.cursor v))

theorem turnCase_of_lzD (hp : s.work.phase = .lzD) : s.TurnCase := by
  match h : s.input.drop s.work.cursor with
  | [] =>
    refine .result (out := s.work.out) ?_
    rw [State.resultDue, hp]
    exact if_pos (List.drop_eq_nil_iff.mp h)
  | b1 :: rest =>
    have hlen := length_of_drop_eq_cons h
    have hfewer {w : Work} (hphase : w.phase = s.work.phase) (hcursor : s.work.cursor < w.cursor) :
        (s.setWork w).turnsLeft < s.turnsLeft :=
      State.turnsLeft_setWork_lt (by rw [hp]; decide) hphase (by omega) hcursor
    obtain hb1 | hb1 := Nat.lt_or_ge b1.toNat 0x80
    · exact .work _ (step_of_lzPlain hr hi hp h hb1) fun _ => hfewer rfl (Nat.lt_add_of_pos_right Nat.zero_lt_one)
    match rest with
    | [] => exact .error (.cutToken b1 hp h hb1)
    | b2 :: rest =>
      by_cases hesc : b1.toNat = 0x80 ∧ 0x80 ≤ b2.toNat
      · obtain ⟨hb1, hb2⟩ := hesc
        obtain rfl : b1 = Config.escape := BitVec.eq_of_toNat_eq hb1
        exact .work _ (step_of_lzEscaped hr hi hp h hb2) fun _ => hfewer rfl (Nat.lt_add_of_pos_right Nat.zero_lt_two)
      by_cases hbad : b1.toNat % 16 * 256 + b2.toNat = 0 ∨ s.work.out.length < b1.toNat % 16 * 256 + b2.toNat
      · exact .error (.badReference b1 b2 rest hp h hb1 hesc hbad)
      · exact .work _ ((step_of_lzPair hr hi hp h hb1 hesc).trans (if_neg hbad)) fun _ =>
          hfewer rfl (Nat.lt_add_of_pos_right Nat.zero_lt_two)

/-! ### Huffman encoder and tree -/

theorem turnCase_of_hufCount (hp : s.work.phase = .hufCount) : s.TurnCase := by
  have hturns : s.turnsLeft = s.bytesLeft + 257 + s.treeTurns := by rw [State.turnsLeft, hp]
  match h : s.input.drop s.work.cursor with
  | [] =>
    obtain hk | hk := Nat.lt_or_ge 1 s.work.freq.symbols.length
    · refine .work _ ((step_of_hufCount hr hi hp).trans (hufCountStep_of_two_le h hk)) fun _ => ?_
      have hplaced := State.turnsLeft_setWork_placed_le (s := s) (w := { s.work.placeLeaves with
        out := hufHeaderBytes s.work.freq, count := s.work.freq.symbols.length }) rfl rfl
      omega
    · refine .result (out := hufHeaderBytes s.work.freq) ?_
      rw [State.resultDue, hp]
      exact if_pos ⟨List.drop_eq_nil_iff.mp h, hk⟩
  | v :: rest =>
    have hlen := length_of_drop_eq_cons h
    refine .work _ ((step_of_hufCount hr hi hp).trans (hufCountStep_of_byte h)) fun _ => ?_
    rw [hturns, State.turnsLeft, State.setWork_work, hp]
    exact Nat.add_lt_add_right (Nat.add_lt_add_right
      (State.bytesLeft_setWork_lt (by omega) (Nat.lt_add_of_pos_right Nat.zero_lt_one)) 257) _

theorem turnCase_of_hufMerge (hp : s.work.phase = .hufMerge) : s.TurnCase := by
  have hturns : s.turnsLeft = s.work.active.length + s.treeTurns := by rw [State.turnsLeft, hp]
  have hstep := step_of_hufMerge hr hi hp
  by_cases hmore : 1 < s.work.active.length
  · refine .work _ (hstep.trans (if_pos hmore)) fun _ => ?_
    rw [hturns, State.turnsLeft, State.setWork_work, hp]
    refine Nat.add_lt_add_right ?_ _
    match s.work.active, hmore with
    | a :: b :: rest, _ =>
      exact (mergeLeast_active_perm s.work.nodes a b rest).length_eq.trans_lt (Nat.lt_succ_self _)
  have hactive := Nat.le_of_not_lt hmore
  cases hmode : s.latch.mode with
  | compress =>
    refine .work _ (hstep.trans (hufMergeStep_of_compress hmode hactive)) fun _ => ?_
    rw [hturns, State.treeTurns, hmode, State.turnsLeft_of_isPass (by decide : Phase.hufEncode.IsPass)]
    exact Nat.lt_of_lt_of_le (Nat.lt_succ_self (s.input.length + 1)) (Nat.le_add_left _ _)
  | decompress =>
    refine .work _ (hstep.trans (hufMergeStep_of_decompress hmode hactive)) fun _ => ?_
    have hpayload : s.payload.length ≤ s.input.length := by
      rw [State.payload, List.length_drop]
      exact Nat.sub_le _ _
    have hbits := Reader.remaining_start_length s.payload
    rw [hturns, State.treeTurns, hmode]
    change (Reader.start.remaining s.payload).length + 1 < _ + (8 * s.input.length + 2)
    omega

theorem turnCase_of_hufEncode (hp : s.work.phase = .hufEncode) : s.TurnCase := by
  match h : s.input.drop s.work.cursor with
  | [] =>
    refine .result (out := s.work.out ++ s.work.writer.finish) ?_
    rw [State.resultDue, hp]
    exact if_pos (List.drop_eq_nil_iff.mp h)
  | v :: rest =>
    have hlen := length_of_drop_eq_cons h
    exact .work _ ((step_of_hufEncode hr hi hp).trans (hufEncodeStep_of_byte h)) fun _ =>
      State.turnsLeft_setWork_lt (by rw [hp]; decide) rfl (by omega) (Nat.lt_add_of_pos_right Nat.zero_lt_one)

/-! ### Huffman decoder -/

theorem turnCase_of_hufHeader (hp : s.work.phase = .hufHeader) : s.TurnCase := by
  have hlen := s.input_length
  match hin : s.input with
  | [] => exact .error (.noCount hp (by rw [hin]; decide))
  | [_] => exact .error (.noCount hp (by rw [hin]; exact Nat.one_lt_two))
  | b1 :: b0 :: rest =>
    have hcount := be16_toNat b1 b0
    obtain hk | hk := Nat.eq_zero_or_pos (b1.toNat * 256 + b0.toNat)
    · obtain rfl : b1 = 0 := BitVec.eq_of_toNat_eq (show b1.toNat = 0 by omega)
      obtain rfl : b0 = 0 := BitVec.eq_of_toNat_eq (show b0.toNat = 0 by omega)
      by_cases hrest : rest = []
      · refine .result (out := []) ?_
        rw [State.resultDue, hp]
        exact if_pos (by rw [hin, hrest])
      · exact .error (.trailingZero rest hp hin hrest)
    obtain hmany | hmany := Nat.lt_or_ge 256 (b1.toNat * 256 + b0.toNat)
    · exact .error (.tooMany b1 b0 rest hp hin hmany)
    obtain hfew | hwhole := Nat.lt_or_ge s.input.length (2 + 5 * (b1.toNat * 256 + b0.toNat))
    · exact .error (.fewEntries b1 b0 rest hp hin hk hmany hfew)
    rw [← hcount] at hk hmany hwhole
    refine .work _ ((step_of_hufHeader_cons hr hi hp hin).trans
      (execHufHdrCount_of_whole (Nat.ne_of_gt hk) hmany (hlen ▸ hwhole))) fun _ => ?_
    rw [State.turnsLeft.eq_def s, hp]
    change (be16 b1 b0).toNat - 0 + 257 + s.treeTurns < 514 + s.treeTurns
    omega

/-- At an entry of the header (R244 to R246). -/
theorem turnCase_of_hufEntry (hp : s.work.phase = .hufEntries) (hmore : s.work.entry < s.work.count) :
    s.TurnCase := by
  obtain hcut | hwhole := Nat.lt_or_ge (s.input.drop (2 + 5 * s.work.entry)).length 5
  · exact .error (.cutEntry hp hmore hcut)
  match hin : s.input.drop (2 + 5 * s.work.entry), hwhole with
  | v :: f3 :: f2 :: f1 :: f0 :: rest, _ =>
    by_cases hbad : be32 f3 f2 f1 f0 = 0 ∨ s.work.freq.at v ≠ 0
    · exact .error (.badEntry v f3 f2 f1 f0 rest hp hmore hin (hbad.imp_left (be32_eq_zero_iff f3 f2 f1 f0).mp))
    have hs := State.source_of_hufEntries hp hmore
    rw [hin] at hs
    refine .work _ ((step_of_decoded hr hi hs rfl).trans (execHufHdrEntry_of_good hbad)) fun _ => ?_
    rw [State.turnsLeft.eq_def s, hp, State.turnsLeft, State.setWork_work, hp]
    exact Nat.add_lt_add_right (Nat.add_lt_add_right
      (Nat.sub_lt_sub_left hmore (Nat.lt_succ_self s.work.entry)) 257) s.treeTurns

theorem turnCase_of_hufEntries (hp : s.work.phase = .hufEntries) : s.TurnCase := by
  obtain hmore | hend := Nat.lt_or_ge s.work.entry s.work.count
  · exact turnCase_of_hufEntry hr hi hp hmore
  have hstep := step_of_hufEntries_end hr hi hp hend
  by_cases hk : s.work.count = 1
  · obtain hn | hn := Nat.lt_or_ge 7 s.latch.len.toNat
    · exact .error (.trailingSingle hp hend hk hn)
    · refine .result (out := s.work.freq.symbols.flatMap fun v => List.replicate (s.work.freq.at v).toNat v) ?_
      rw [State.resultDue, hp]
      exact if_pos ⟨hend, hk, hn⟩
  · refine .work _ (hstep.trans (hufHeaderDone_of_ne_one hk)) fun _ => ?_
    have hplaced := State.turnsLeft_setWork_placed_le (s := s) (w := s.work.placeLeaves) rfl rfl
    rw [State.turnsLeft.eq_def s, hp]
    dsimp only
    omega

theorem turnCase_of_hufPayload (hp : s.work.phase = .hufPayload) : s.TurnCase := by
  obtain hmore | hend := Nat.lt_or_ge s.work.out.length s.work.total
  · cases hw : walkCode s.work.nodes 0 (rootOf s.work.active) (s.work.reader.remaining s.payload) with
    | ok path =>
      obtain ⟨v, rest, hbits, hpath⟩ := followPath_of_walkCode hw
      have hne : path ≠ [] := by rintro rfl; cases hpath
      refine .work _ ((step_of_decoded hr hi (State.source_of_hufPayload_bits hp hmore)
        (congrArg (Except.map Instr.hufCode) hw)).trans (execHufCode_of_leaf hpath)) fun hbounded => ?_
      rw [State.turnsLeft.eq_def s, hp, State.turnsLeft, State.setWork_work, hp]
      exact Nat.add_lt_add_right (Reader.remaining_skip_length_lt hbounded.rbit hbits hne) 1
    | error e =>
      have hd := congrArg (Except.map Instr.hufCode) hw
      obtain rfl | ⟨depth, rfl⟩ := walkCode_error_cases hw
      · exact .error (.bitsOut hp hmore hd)
      · exact .error (.noChild depth hp hmore hd)
  · refine .result (out := s.work.out) ?_
    rw [State.resultDue, hp]
    exact if_pos hend

theorem State.turnCase : s.TurnCase := by
  cases hp : s.work.phase with
  | dispatch => exact turnCase_of_dispatch hr hi hp
  | rleC => exact turnCase_of_rleC hr hi hp
  | rleD => exact turnCase_of_rleD hr hi hp
  | hufCount => exact turnCase_of_hufCount hr hi hp
  | hufMerge => exact turnCase_of_hufMerge hr hi hp
  | hufEncode => exact turnCase_of_hufEncode hr hi hp
  | hufHeader => exact turnCase_of_hufHeader hr hi hp
  | hufEntries => exact turnCase_of_hufEntries hr hi hp
  | hufPayload => exact turnCase_of_hufPayload hr hi hp
  | lzC => exact turnCase_of_lzC hr hi hp
  | lzD => exact turnCase_of_lzD hr hi hp

end

end Sys2Proof.Machine
end

section
/-! PROOFS. Errors are precise, and every operation ends (47_dispatcher.md R365, R366; 60_exceptions.md R402, R404). -/

namespace Sys2Proof.Machine

section

variable {s : State} {kind : ErrorKind} {pos count : Nat} {out : List Byte} (hr : s.running = true) (hi : s.inputs = [])
include hr hi

/-! ## Errors -/

theorem errorDue_is_taken (h : ErrorDue s kind pos count) :
    ∃ t, step s = .next t ∧ EndedWithError t kind pos count ∧ OnlyResultChanged s t :=
  ⟨_, step_of_errorDue hr hi h, s.takeError_ended _ _ _, s.takeError_onlyResultChanged _ _ _⟩

theorem resultDue_is_given (h : s.resultDue = some out) (hfits : out.length ≤ s.params.outCap)
    (hcap : s.params.outCap ≤ 2 ^ 32 - 1) :
    ∃ t, step s = .next t ∧ EndedWithSuccess t out ∧ OnlyResultChanged s t :=
  ⟨_, (step_of_resultDue hr hi h).trans (congrArg _ (State.complete_of_fits hfits)),
    s.completeOk_ended (hfits.trans hcap), s.completeOk_onlyResultChanged out⟩

/-- A turn that ends with ERROR takes an error that is due: a result that fits ends with DONE, and a turn of a loop leaves
the block BUSY. -/
theorem exists_errorDue_of_status {t : State} (h : step s = .next t) (hstatus : t.status = 0b100#32) :
    ∃ kind pos count, ErrorDue s kind pos count ∧ EndedWithError t kind pos count ∧ OnlyResultChanged s t := by
  have taken {kind : ErrorKind} {pos count : Nat} (due : ErrorDue s kind pos count) :
      ∃ kind pos count, ErrorDue s kind pos count ∧ EndedWithError t kind pos count ∧ OnlyResultChanged s t := by
    cases (step_of_errorDue hr hi due).symm.trans h
    exact ⟨_, _, _, due, s.takeError_ended _ _ _, s.takeError_onlyResultChanged _ _ _⟩
  cases s.turnCase hr hi with
  | error due => exact taken due
  | @result out due =>
    obtain hover | hfits := Nat.lt_or_ge s.params.outCap out.length
    · exact taken (.overflow out due hover)
    · cases ((step_of_resultDue hr hi due).trans (congrArg _ (State.complete_of_fits hfits))).symm.trans h
      exact absurd hstatus (by decide : statusDone ≠ 0b100#32)
  | forwarded hp halg hd =>
    cases ((step_of_dispatch hr hi hp).trans (dispatchStep_of_forwarded halg hd)).symm.trans h
  | work w hstep =>
    cases hstep.symm.trans h
    have hbusy := (s.running_iff.mp hr).1
    rw [State.busy, show s.status = 0b100#32 from hstatus] at hbusy
    exact absurd hbusy (by decide)

end

/-- Settles O28: an engine's turn is one of the cases of `State.TurnCase`, and what is due in it happens. -/
theorem errorsArePrecise : Obligations.ErrorsArePrecise := fun _ hr hi =>
  ⟨fun _ => exists_errorDue_of_status hr hi, fun _ _ _ => errorDue_is_taken hr hi, fun _ => resultDue_is_given hr hi⟩

/-! ## The end of an operation -/

/-- The operation has ended, with DONE or with ERROR. -/
def State.Ended (t : State) : Prop := t.busy = false ∧ (t.done = true ∨ t.error = true)

/-- The engine's turns bring the operation to its end within `n` of them. -/
def State.EndsWithin (s : State) (n : Nat) : Prop := ∃ k t, k ≤ n ∧ steps k s = .next t ∧ t.Ended

section

variable {s t : State} {n : Nat}

theorem State.complete_hasEnded (s : State) (r : Result) : (s.complete r).Ended := by
  refine ⟨s.complete_busy r, ?_⟩
  obtain ⟨out, -, -, h⟩ | ⟨out, -, -, h⟩ | ⟨kind, pos, count, -, h⟩ := s.complete_cases r <;> rw [h]
  · exact .inl (by decide : statusDone.getLsbD 1 = true)
  · exact .inr (by decide : statusError.getLsbD 2 = true)
  · exact .inr (by decide : statusError.getLsbD 2 = true)

theorem State.EndsWithin.of_complete {r : Result} (h : step s = .next (s.complete r)) (hn : 1 ≤ n) : s.EndsWithin n :=
  ⟨1, _, hn, steps_succ_of_step h, s.complete_hasEnded r⟩

theorem State.EndsWithin.of_step {m : Nat} (h : step s = .next t) (ht : t.EndsWithin m) (hm : m < n) :
    s.EndsWithin n := by
  obtain ⟨k, u, hk, hsteps, hu⟩ := ht
  exact ⟨k + 1, u, by omega, (steps_succ_of_step h).trans hsteps, hu⟩

/-- Each turn of a loop leaves fewer turns, and keeps the storage in its bounds (O25). -/
theorem endsWithin_turnsLeft (hr : s.running = true) (hi : s.inputs = [])
    (hd : s.latch.alg = 3 → s.params.deflateAttached = false) (hbounded : s.work.Bounded) :
    s.EndsWithin s.turnsLeft := by
  induction hn : s.turnsLeft using Nat.strong_induction_on generalizing s with
  | _ n ih =>
    subst hn
    cases s.turnCase hr hi with
    | error due => exact .of_complete (r := .err _ _ _) (step_of_errorDue hr hi due) s.turnsLeft_pos
    | result due => exact .of_complete (step_of_resultDue hr hi due) s.turnsLeft_pos
    | forwarded hp halg hattached => exact absurd ((hd halg).symm.trans hattached) Bool.false_ne_true
    | work w hstep hfewer =>
      have hfewer := hfewer hbounded
      exact .of_step hstep (ih _ hfewer hr hi hd (stepKeepsStorageBounds s _ hbounded hstep) rfl) hfewer

end

/-- Settles O42: the head of `execute` ends the operation or begins a codec, whose turns `State.turnsLeft` bounds. -/
theorem everyOperationEnds : Obligations.EveryOperationEnds := by
  intro s hr hi hp hd
  suffices h : s.EndsWithin (8 * s.latch.len.toNat + 600) by
    obtain ⟨k, t, hk, hsteps, hbusy, hended⟩ := h
    exact ⟨k, t, hk, hsteps, hbusy, hended⟩
  have hstep := step_of_dispatch hr hi hp
  obtain he | ⟨halg, hattached, -⟩ | ⟨-, -, he⟩ | ⟨-, -, he⟩ := dispatchStep_cases s
  · exact .of_complete (r := .err _ _ _) (hstep.trans he) (Nat.le_add_left 1 _)
  · exact absurd ((hd halg).symm.trans hattached) Bool.false_ne_true
  · exact .of_complete (r := .err _ _ _) (hstep.trans he) (Nat.le_add_left 1 _)
  · rw [← s.input_length]
    exact .of_step (hstep.trans he)
      (endsWithin_turnsLeft (s := s.setWork _) hr hi hd (Work.init_bounded _)) s.turnsLeft_init_lt

end Sys2Proof.Machine
end
